-- ==== Sys2Proof/Word.lean ====
section
/-! DEFINITION. The word types of FE, with the widths of 00_scope.md R6 and R8. Every value is unsigned (R8). -/

namespace Sys2Proof

/-- A byte, 8 bits (R8). -/
abbrev Byte := BitVec 8

/-- `u16` (R8): the declared size, the request length and the progress counter (`SIZE_W`, `CTR_W`). -/
abbrev U16 := BitVec 16

/-- `u32` (R8): an address half, the clock value and the timeout (`TIME_W`, `TIMEOUT_W`). -/
abbrev U32 := BitVec 32

/-- `u33` (R8): the deadline, which holds `now + TIMEOUT` exactly (`DEADLINE_W`). -/
abbrev U33 := BitVec 33

end Sys2Proof
end

