-- ==== Sys2Proof/Machine/Operands.lean ====
section
/-! DEFINITION. Multi-byte values as bytes: every multi-byte field of the wire and of the command port is big-endian
(20_memory.md R54, 00_scope.md R8). -/

namespace Sys2Proof

/-- `be16(v)` (R8). -/
def be16 (v : U16) : List Byte :=
  [v.extractLsb' 8 8, v.extractLsb' 0 8]

/-- `be32(v)` (R8). -/
def be32 (v : U32) : List Byte :=
  [v.extractLsb' 24 8, v.extractLsb' 16 8, v.extractLsb' 8 8, v.extractLsb' 0 8]

/-- `{hi, lo}` of two bytes (R8, R79). -/
def u16Of (hi lo : Byte) : U16 := hi ++ lo

/-- `{a, b, c, d}` of four bytes (R8, R54). -/
def u32Of (a b c d : Byte) : U32 := a ++ b ++ c ++ d

/-- `zext_33(v)` (R8). -/
def zext33 (v : U32) : U33 := v.setWidth 33

end Sys2Proof
end

