-- ==== Sys2Proof/Syntax.lean ====
section
/-! DEFINITION. The command set FE-CMD version 1 (30_encoding.md R82, R83): one constructor per row of
spec/opcode_table.json. -/

namespace Sys2Proof

/-- Who issues an accumulator micro-operation (60_exceptions.md R207): the host, whose one-byte command carries no operand
(30_encoding.md R87), or the parser's byte step, with its operands. Log entry 7. -/
inductive MicroIssue (α : Type) where
  | port
  | parser (operands : α)
  deriving DecidableEq, Repr

/-- A command, or a micro-operation FE issues to itself. -/
inductive Instr where
  /-- 0x01, FW: set `CFG.timeout` to `w`. -/
  | settmo (w : U32)
  /-- 0x02, F0: attach the stream collaborator. -/
  | attach
  /-- 0x03, F0: detach it. -/
  | detach
  /-- 0x10, FA: construct a request with the address `(hi, lo)`. -/
  | reqnew (hi lo : U32)
  /-- 0x11, FB: attach a payload by copy-in; the operand `n` is the length of `data`. -/
  | reqcpy (data : List Byte)
  /-- 0x12, FB: attach a payload by take-ownership; the operand `n` is the length of `data`. -/
  | reqtake (data : List Byte)
  /-- 0x13, F0: return the encoded frame. -/
  | encode
  /-- 0x14, F0: write the encoded frame to the stream. -/
  | send
  /-- 0x20, FT: drain inbound bytes and return a status; `now` is the clock value. -/
  | poll (now : U32)
  /-- 0x30, F0: `is_valid()` of the latest frame. -/
  | lvalid
  /-- 0x31, F0: `api_id()`. -/
  | lapi
  /-- 0x32, F0: `declared_size()`. -/
  | lsize
  /-- 0x33, F0: `payload()`. -/
  | lpayld
  /-- 0x34, F0: `checksum()`. -/
  | lcsum
  /-- 0x35, F0: `is_complete_checksum()`. -/
  | lcompl
  /-- 0x36, F0: `sender_address()`. -/
  | lsaddr
  /-- 0x37, F0: `application_data()`. -/
  | lappdat
  /-- 0x80, internal: `begin_size(byte)`. -/
  | beginSize (op : MicroIssue Byte)
  /-- 0x81, internal: `set_api_id(byte)`. -/
  | setApiId (op : MicroIssue Byte)
  /-- 0x82, internal: `write_at(offset, byte)`. -/
  | writeAt (op : MicroIssue (U16 × Byte))
  /-- 0x83, internal: `accumulate_checksum(byte)`. -/
  | accCsum (op : MicroIssue Byte)
  /-- 0x84, internal: `is_complete_checksum()` of the live accumulator. -/
  | isComplete (op : MicroIssue Unit)
  deriving DecidableEq, Repr

end Sys2Proof
end

