-- ==== Sys2Proof/WellFormed.lean ====
section
/-! DEFINITION. Which instructions are commands of the host port: the payload length fits the 16-bit operand `n`
(30_encoding.md R82), and a micro-operation is issued by the port, since the byte step's own issues have no encoding (R87). -/

namespace Sys2Proof

/-- A micro-operation as the host port issues it (R87). -/
def MicroIssue.fromPort {α : Type} : MicroIssue α → Bool
  | .port => true
  | .parser _ => false

/-- The instruction is a command that the port can carry. -/
def Instr.wellFormed : Instr → Bool
  | .settmo _ => true
  | .attach => true
  | .detach => true
  | .reqnew _ _ => true
  | .reqcpy data => decide (data.length < 65536)
  | .reqtake data => decide (data.length < 65536)
  | .encode => true
  | .send => true
  | .poll _ => true
  | .lvalid => true
  | .lapi => true
  | .lsize => true
  | .lpayld => true
  | .lcsum => true
  | .lcompl => true
  | .lsaddr => true
  | .lappdat => true
  | .beginSize op => op.fromPort
  | .setApiId op => op.fromPort
  | .writeAt op => op.fromPort
  | .accCsum op => op.fromPort
  | .isComplete op => op.fromPort

end Sys2Proof
end

