-- ==== Sys2Proof/Decode.lean ====
section
/-! DEFINITION. The command port's decoder and encoder (30_encoding.md R82, R83, R87, R88). The decoder is total on any
bytes: it gives a command and the bytes after it, or names a reserved opcode, or says that bytes are still missing. -/

namespace Sys2Proof

/-- What the port reads from the bytes that have arrived. -/
inductive Decoded where
  /-- A whole command; `rest` are the bytes after its last byte (R88). -/
  | instr (i : Instr) (rest : List Byte)
  /-- A reserved opcode: one byte, no operand bytes (R87). -/
  | reserved (op : Byte) (rest : List Byte)
  /-- Not all bytes of the command have arrived: the port holds (R88). -/
  | incomplete
  deriving DecidableEq, Repr

/-- Formats FW and FT: one big-endian `u32` operand. -/
def decodeW (mk : U32 → Instr) : List Byte → Decoded
  | a :: b :: c :: d :: rest => .instr (mk (u32Of a b c d)) rest
  | _ => .incomplete

/-- Format FA: two big-endian `u32` operands, `hi` first. -/
def decodeA (mk : U32 → U32 → Instr) : List Byte → Decoded
  | a :: b :: c :: d :: e :: f :: g :: h :: rest => .instr (mk (u32Of a b c d) (u32Of e f g h)) rest
  | _ => .incomplete

/-- Format FB: a big-endian `u16` count `n`, then `n` data bytes. -/
def decodeB (mk : List Byte → Instr) : List Byte → Decoded
  | a :: b :: rest =>
    if (u16Of a b).toNat ≤ rest.length then
      .instr (mk (rest.take (u16Of a b).toNat)) (rest.drop (u16Of a b).toNat)
    else .incomplete
  | _ => .incomplete

/-- The opcode map (R83), on an opcode and the bytes after it. -/
def decodeOp (op : Byte) (rest : List Byte) : Decoded :=
  if op = 0x01 then decodeW .settmo rest
  else if op = 0x02 then .instr .attach rest
  else if op = 0x03 then .instr .detach rest
  else if op = 0x10 then decodeA .reqnew rest
  else if op = 0x11 then decodeB .reqcpy rest
  else if op = 0x12 then decodeB .reqtake rest
  else if op = 0x13 then .instr .encode rest
  else if op = 0x14 then .instr .send rest
  else if op = 0x20 then decodeW .poll rest
  else if op = 0x30 then .instr .lvalid rest
  else if op = 0x31 then .instr .lapi rest
  else if op = 0x32 then .instr .lsize rest
  else if op = 0x33 then .instr .lpayld rest
  else if op = 0x34 then .instr .lcsum rest
  else if op = 0x35 then .instr .lcompl rest
  else if op = 0x36 then .instr .lsaddr rest
  else if op = 0x37 then .instr .lappdat rest
  else if op = 0x80 then .instr (.beginSize .port) rest
  else if op = 0x81 then .instr (.setApiId .port) rest
  else if op = 0x82 then .instr (.writeAt .port) rest
  else if op = 0x83 then .instr (.accCsum .port) rest
  else if op = 0x84 then .instr (.isComplete .port) rest
  else .reserved op rest

/-- The decoder of the command port. -/
def decode : List Byte → Decoded
  | [] => .incomplete
  | op :: rest => decodeOp op rest

/-- Format FB's operand bytes: `be16(n)` and the data (R82). -/
def encodeB (data : List Byte) : List Byte :=
  be16 (BitVec.ofNat 16 data.length) ++ data

/-- The bytes of a command (R82, R83). A micro-operation has its opcode byte alone, whoever issues it. -/
def encode : Instr → List Byte
  | .settmo w => 0x01 :: be32 w
  | .attach => [0x02]
  | .detach => [0x03]
  | .reqnew hi lo => 0x10 :: (be32 hi ++ be32 lo)
  | .reqcpy data => 0x11 :: encodeB data
  | .reqtake data => 0x12 :: encodeB data
  | .encode => [0x13]
  | .send => [0x14]
  | .poll now => 0x20 :: be32 now
  | .lvalid => [0x30]
  | .lapi => [0x31]
  | .lsize => [0x32]
  | .lpayld => [0x33]
  | .lcsum => [0x34]
  | .lcompl => [0x35]
  | .lsaddr => [0x36]
  | .lappdat => [0x37]
  | .beginSize _ => [0x80]
  | .setApiId _ => [0x81]
  | .writeAt _ => [0x82]
  | .accCsum _ => [0x83]
  | .isComplete _ => [0x84]

/-- How many bytes the command at the head of the port has (R82, R88); `none` while the bytes that decide it are still
missing. A reserved opcode is one byte (R87). -/
def commandLength : List Byte → Option Nat
  | [] => none
  | op :: rest =>
    if op = 0x01 ∨ op = 0x20 then some 5
    else if op = 0x10 then some 9
    else if op = 0x11 ∨ op = 0x12 then
      match rest with
      | a :: b :: _ => some (3 + (u16Of a b).toNat)
      | _ => none
    else some 1

/-- The bytes of the first command of a sequence, or all of them while its last byte is missing. -/
def firstCommand (bs : List Byte) : List Byte :=
  match commandLength bs with
  | some n => bs.take n
  | none => bs

/-- The bytes after the first command of a sequence (R88). -/
def afterCommand (bs : List Byte) : List Byte :=
  match commandLength bs with
  | some n => bs.drop n
  | none => []

/-- The bytes of a word numbered as spec/opcode_table.json numbers it: bit 0 is the least significant bit of the first
byte, and each later byte's bits count on from it. -/
def wordBytes : (count w : Nat) → List Byte
  | 0, _ => []
  | count + 1, w => BitVec.ofNat 8 w :: wordBytes count (w / 256)

/-- The table's word as the bytes of one command: operand bytes above `nbits` are zero, and nothing follows the command. -/
def tableWordBytes (nbits w : Nat) : List Byte :=
  let head := wordBytes ((nbits + 7) / 8) w
  match commandLength (head ++ [0, 0, 0]) with
  | some n => (head ++ List.replicate (n - head.length) 0).take n
  | none => head

/-- The instruction the decoder reads from a table word (log entry 20). -/
def decodeTableWord (nbits w : Nat) : Option Instr :=
  match decode (tableWordBytes nbits w) with
  | .instr i _ => some i
  | .reserved _ _ => none
  | .incomplete => none

end Sys2Proof
end

