-- ==== Sys2Proof/Machine/Flags.lean ====
section
/-! DEFINITION. FE has no flag register (10_state.md R33). What it computes instead: the byte sum modulo 256, the checksum
byte of an encoded frame, and the one flag-like predicate `is_complete_checksum`. -/

namespace Sys2Proof

/-- `sum8(s)` (00_scope.md R8): the sum of the bytes modulo 256. -/
def sum8 : List Byte → Byte
  | [] => 0
  | b :: bs => b + sum8 bs

/-- `0xFF − s` modulo 256 (30_encoding.md R75, 40_encoder.md R107). -/
def checksumByte (s : Byte) : Byte := 0xFF - s

/-- `is_complete_checksum` (10_state.md R33, 41_accumulator.md R137): the running checksum is 0xFF. -/
def isCompleteChecksum (csum : Byte) : Bool := csum == 0xFF

end Sys2Proof
end

