-- ==== Sys2Proof/Config.lean ====
section
/-! DEFINITION. The free values: what the spec leaves unspecified (93_implementation_defined.md V1 to V5, 20_memory.md
R52). None has a body, so no proof can see a value of it. Each is applied to the number of the draw it belongs to
(`State.draws`). The parameters of 00_scope.md R6 are in Sys2Proof/Machine/Parameters.lean, in this namespace.
See log entries 2, 3 and 14. -/

namespace Sys2Proof.Config

/-- A free byte (`ACC.api_id`, `ACC.csum`, each half of `ACC.size`, `LAT.api_id`, `LAT.csum` while unspecified). -/
opaque freeByte : Nat → Byte

/-- A free 16-bit value (`LAT.size` while unspecified). -/
opaque freeU16 : Nat → U16

/-- A free 33-bit value (`P.deadline` while unspecified). -/
opaque freeU33 : Nat → U33

/-- A free bit (`ACC.size_phase`, `ACC.alloc` while unspecified). -/
opaque freeBit : Nat → Bool

/-- The byte an unwritten memory byte holds (R52): of the memory contents drawn as number `draw`, the byte at an
offset. -/
opaque freeMem : (draw : Nat) → (offset : Nat) → Byte

end Sys2Proof.Config
end

