-- ==== Sys2Proof/Machine/Parameters.lean ====
section
/-! DEFINITION. The implementation parameters of 00_scope.md R6, one constant each. -/

namespace Sys2Proof.Config

/-- `START`: the start delimiter byte. -/
def start : Byte := 0x7E

/-- `TX_TYPE`: the frame type the encoder emits. -/
def txType : Byte := 0x10

/-- `TX_FRAME_ID`: the frame ID the encoder emits. -/
def txFrameId : Byte := 0x00

/-- `RES16`: the reserved 16-bit address placeholder. -/
def res16 : U16 := 0xFFFE

/-- `TX_RADIUS`: the broadcast radius the encoder emits. -/
def txRadius : Byte := 0x00

/-- `TX_OPTIONS`: the options byte the encoder emits. -/
def txOptions : Byte := 0x00

/-- `TX_HDR`: bytes before the payload in an encoded frame (offsets 0 to 16). -/
def txHdr : Nat := 17

/-- `TX_OVERHEAD`: length-field bytes that are not payload (offsets 3 to 16); 90_conflicts.md C1. -/
def txOverhead : Nat := 14

/-- `LEN_MAX`: the largest value of the 16-bit length field. -/
def lenMax : Nat := 65535

/-- `MAX_PAYLOAD`: the largest declared size the parser accepts. -/
def maxPayload : Nat := 65520

/-- `TIMEOUT_DEFAULT`: the reset value of the timeout. -/
def timeoutDefault : U32 := 1000

/-- `RX_ADDR_BYTES`: payload bytes `sender_address` reads. -/
def rxAddrBytes : Nat := 8

/-- `RX_PREFIX`: payload bytes `application_data` strips. -/
def rxPrefix : Nat := 11

/-- `ADDR_W`: the address width, as two 32-bit halves. -/
def addrW : Nat := 64

/-- `CSUM_W`: the running checksum width. -/
def csumW : Nat := 8

/-- `SIZE_W`: the declared-size width. -/
def sizeW : Nat := 16

/-- `CTR_W`: the progress-counter width. -/
def ctrW : Nat := 16

/-- `TIME_W`: the width of the clock input. -/
def timeW : Nat := 32

/-- `TIMEOUT_W`: the width of the timeout register. -/
def timeoutW : Nat := 32

/-- `DEADLINE_W`: the width of the deadline register. -/
def deadlineW : Nat := 33

/-- `REQ_CAP`: the request payload capacity in bytes. -/
def reqCap : Nat := 65535

end Sys2Proof.Config
end

