-- ==== Sys2Proof/Machine/State.lean ====
section
/-! DEFINITION. FE's state (10_state.md), the environment components of its step (10_state.md R34), the outcomes' reasons and
the state after reset (70_reset_and_hazards.md R230). -/

namespace Sys2Proof.Machine

/-- One byte memory (20_memory.md R50): the bytes written, by rising offset, and the number of the draw that an unwritten
byte's free value belongs to (R52, log entry 3). -/
structure Memory where
  cells : List Host.Cell
  draw : Nat
  deriving DecidableEq, Repr

/-- Parser state: `P.counter` (R21) and `P.deadline` (R22). -/
structure Parser where
  counter : U16
  deadline : U33
  deriving DecidableEq, Repr

/-- The accumulator under construction, `ACC` (R23). `ACC.size` is held as its two bytes, which BEGIN_SIZE writes one at a
time (41_accumulator.md R132); read whole it is `Acc.size` (R26). -/
structure Acc where
  apiId : Byte
  csum : Byte
  sizeHigh : Byte
  sizeLow : Byte
  sizePhase : Bool
  alloc : Bool
  pay : Memory
  deriving DecidableEq, Repr

/-- The latest-completed-frame slot, `LAT` (R29). -/
structure Latest where
  valid : Bool
  apiId : Byte
  csum : Byte
  size : U16
  pay : Memory
  deriving DecidableEq, Repr

/-- Configuration, `CFG` (R30, R31). -/
structure Cfg where
  timeout : U32
  attached : Bool
  deriving DecidableEq, Repr

/-- The request, `REQ` (R32); `opened` is `REQ.open`, `isSet` is `REQ.set`. -/
structure Request where
  opened : Bool
  addrHi : U32
  addrLo : U32
  isSet : Bool
  len : U16
  pay : Memory
  deriving DecidableEq, Repr

/-- The response codes (30_encoding.md R84). -/
inductive RespCode where
  | ok
  | errUndefined
  | errInternal
  | errNoRequest
  | errImmutable
  | errNoPayload
  | errLenOverflow
  | errNoStream
  | errEmpty
  | errShort
  deriving DecidableEq, Repr

/-- The poll statuses (30_encoding.md R86). -/
inductive PollStatus where
  | none
  | inProgress
  | valid
  | tooLarge
  | timeout
  | invalid
  deriving DecidableEq, Repr

/-- One response: its code and its data bytes (R84, R85). -/
structure Response where
  code : RespCode
  data : List Byte
  deriving DecidableEq, Repr

/-- What the host and its collaborators may do between commands (60_exceptions.md R211). -/
inductive HostMove where
  /-- The host puts command bytes on the port, those of a later command only once FE has answered the one before. -/
  | issue (bytes : List Byte)
  /-- Bytes arrive at the stream's inbound side, in order. -/
  | arrive (bytes : List Byte)
  /-- The oldest `n` outbound bytes are delivered to a radio, or dropped. -/
  | deliver (n : Nat)
  /-- The oldest `n` outbound bytes are looped back into the inbound side. -/
  | loopback (n : Nat)
  /-- The clock collaborator's reading advances. -/
  | tick (ticks : U32)
  /-- The host takes the oldest `n` responses. -/
  | collect (n : Nat)
  deriving DecidableEq, Repr

/-- The environment components of the step (R34): not FE's own state. -/
structure Env where
  port : List Byte
  inbound : List Byte
  outbound : List Byte
  responses : List Response
  clock : U32
  agenda : List HostMove
  deriving DecidableEq, Repr

/-- The whole machine. `draws` is the model's own field: the number of the next free draw (log entry 2). -/
structure State where
  p : Parser
  acc : Acc
  lat : Latest
  cfg : Cfg
  req : Request
  env : Env
  draws : Nat
  deriving DecidableEq, Repr

/-- Why the machine stops. None is reachable by a command from a state that meets `Safety.Inv`. -/
inductive Fault where
  /-- A WRITE_AT while `ACC.alloc = 0` (41_accumulator.md R135, 20_memory.md R51). Safe: the spec says to record a fault. -/
  | payloadUnallocated
  /-- An access to a byte memory at or beyond its valid length or capacity (20_memory.md R51). Safe: as above. -/
  | payloadOutOfRange
  /-- A byte step with `P.counter > ACC.size + 3`, where no rule of 42_parser.md R162 to R167 applies. Safe: R171 says that no
  such state is reached. -/
  | counterPastEnd
  /-- A host move that takes the clock past 2^32 − 1 (60_exceptions.md R209). Safe: such a run is outside the spec. -/
  | clockWrapped
  deriving DecidableEq, Repr

/-- Why an instruction has no meaning. -/
inductive Refusal where
  /-- Raised by an arm of `exec` whose instruction has no meaning yet. Safe: the machine stops. No arm raises it. -/
  | notModelled (mnemonic : String)
  deriving DecidableEq, Repr

/-- The state after reset (R230). Where R230 says "unspecified", a register holds 0 (log entry 1) and a memory lists nothing
(log entry 3). -/
def State.reset : State where
  p := { counter := 0, deadline := 0 }
  acc := { apiId := 0, csum := 0, sizeHigh := 0, sizeLow := 0, sizePhase := false, alloc := false,
           pay := { cells := [], draw := 0 } }
  lat := { valid := false, apiId := 0, csum := 0, size := 0, pay := { cells := [], draw := 1 } }
  cfg := { timeout := Config.timeoutDefault, attached := false }
  req := { opened := false, addrHi := 0, addrLo := 0, isSet := false, len := 0, pay := { cells := [], draw := 2 } }
  env := { port := [], inbound := [], outbound := [], responses := [], clock := 0, agenda := [] }
  draws := 3

end Sys2Proof.Machine
end

