-- ==== Sys2Proof/Machine/Ops.lean ====
section
/-! DEFINITION. The named operations over FE's memories, registers and streams, the responses, and the two shared ways an
error is taken: `raise` (00_scope.md R9, 60_exceptions.md R202) and `discard` (60_exceptions.md R204). -/

namespace Sys2Proof.Machine

/-- One outcome after another: the first fault or refusal ends it. -/
def andThen {σ τ : Type} (o : Host.Outcome σ Fault Refusal) (f : σ → Host.Outcome τ Fault Refusal) :
    Host.Outcome τ Fault Refusal :=
  match o with
  | .next s => f s
  | .fault r => .fault r
  | .refused r => .refused r

/-! ## Byte memories (20_memory.md R50 to R52) -/

/-- The byte listed at an offset. -/
def lookupCell (i : Nat) : List Host.Cell → Option Byte
  | [] => none
  | c :: rest => if c.1 = i then some c.2 else lookupCell i rest

/-- A byte stored at an offset, the offsets kept rising. -/
def insertCell (i : Nat) (b : Byte) : List Host.Cell → List Host.Cell
  | [] => [(i, b)]
  | c :: rest =>
    if i < c.1 then (i, b) :: c :: rest
    else if i = c.1 then (i, b) :: rest
    else c :: insertCell i b rest

/-- The offsets of the cells rise strictly. -/
def risingCells : List Host.Cell → Bool
  | [] => true
  | c :: rest => rest.all (fun d => decide (c.1 < d.1)) && risingCells rest

/-- The canonical form of a memory: strictly rising offsets (log entry 3). -/
def Memory.wf (m : Memory) : Bool := risingCells m.cells

/-- What a byte that nothing has written reads as: a free value (R52). -/
def Memory.unwritten (m : Memory) (i : Nat) : Byte := Config.freeMem m.draw i

/-- The byte a memory holds at an offset. -/
def Memory.byteAt (m : Memory) (i : Nat) : Byte := (lookupCell i m.cells).getD (m.unwritten i)

/-- `MemWrite` (R9). -/
def Memory.write (m : Memory) (i : Nat) (b : Byte) : Memory := { m with cells := insertCell i b m.cells }

/-- `MemWrite` of each byte of a sequence, the first at offset `start`. -/
def Memory.writeBytes (m : Memory) (start : Nat) : List Byte → Memory
  | [] => m
  | b :: bs => (m.writeBytes (start + 1) bs).write start b

/-- The bytes at `count` offsets from `start`. -/
def Memory.bytes (m : Memory) (start count : Nat) : List Byte :=
  (List.range count).map fun i => m.byteAt (start + i)

/-- `MemRead` of `count` bytes from `start`, of a memory whose valid length is `len`: an offset at or beyond it is a fault
(R51). -/
def Memory.readRange (m : Memory) (len start count : Nat) : Host.Outcome (List Byte) Fault Refusal :=
  if start + count ≤ len then .next (m.bytes start count) else .fault .payloadOutOfRange

/-- `MemWrite` of one byte, of a memory whose valid length is `len` (R51). -/
def Memory.writeChecked (m : Memory) (len i : Nat) (b : Byte) : Host.Outcome Memory Fault Refusal :=
  if i < len then .next (m.write i b) else .fault .payloadOutOfRange

/-- `MemWrite` of a whole byte sequence from offset 0, into a memory of capacity `cap` (R51). -/
def Memory.fillChecked (m : Memory) (cap : Nat) (bs : List Byte) : Host.Outcome Memory Fault Refusal :=
  if bs.length ≤ cap then .next (m.writeBytes 0 bs) else .fault .payloadOutOfRange

/-- The first `len` bytes of a memory, for a copy (R53). -/
def Memory.firstBytes (m : Memory) (len : Nat) : Memory :=
  { m with cells := m.cells.filter fun c => decide (c.1 < len) }

/-! ## Unspecified elements (93_implementation_defined.md V1 to V5, log entries 2 and 14) -/

/-- An accumulator of which nothing is specified. -/
def unspecifiedAcc (draw : Nat) : Acc where
  apiId := Config.freeByte (4 * draw)
  csum := Config.freeByte (4 * draw + 1)
  sizeHigh := Config.freeByte (4 * draw + 2)
  sizeLow := Config.freeByte (4 * draw + 3)
  sizePhase := Config.freeBit (2 * draw)
  alloc := Config.freeBit (2 * draw + 1)
  pay := { cells := [], draw := draw }

/-- An empty latest slot: nothing but `LAT.valid = 0` is specified (R29). -/
def emptyLatest (draw : Nat) : Latest where
  valid := false
  apiId := Config.freeByte (4 * draw)
  csum := Config.freeByte (4 * draw + 1)
  size := Config.freeU16 draw
  pay := { cells := [], draw := draw }

/-! ## Responses (30_encoding.md R84 to R86) -/

/-- The response code byte (R84). -/
def respCodeByte : RespCode → Byte
  | .ok => 0x00
  | .errUndefined => 0x01
  | .errInternal => 0x02
  | .errNoRequest => 0x03
  | .errImmutable => 0x04
  | .errNoPayload => 0x05
  | .errLenOverflow => 0x06
  | .errNoStream => 0x07
  | .errEmpty => 0x08
  | .errShort => 0x09

/-- The poll status byte (R86). -/
def pollStatusByte : PollStatus → Byte
  | .none => 0x00
  | .inProgress => 0x01
  | .valid => 0x02
  | .tooLarge => 0x03
  | .timeout => 0x04
  | .invalid => 0x05

/-- The bytes of a response: the code byte, then the data (R84). -/
def responseBytes (r : Response) : List Byte := respCodeByte r.code :: r.data

/-- A bit as a data byte: 0x00 or 0x01 (R85). -/
def bitByte (b : Bool) : Byte := if b then 0x01 else 0x00

/-- POLL's data: the status, then the number of bytes read (R85, R188). -/
def pollData (st : PollStatus) (consumed : U32) : List Byte := pollStatusByte st :: be32 consumed

/-- `respond(code, data)` (R9). -/
def State.respond (s : State) (code : RespCode) (data : List Byte) : State :=
  { s with env := { s.env with responses := s.env.responses ++ [{ code := code, data := data }] } }

/-- `raise E` (R9, R84, R202): the command ends with code `E`, no data and no state change. -/
def State.raise (s : State) (code : RespCode) : State := s.respond code []

/-! ## Configuration and request registers -/

/-- `CFG.timeout <- w` (R30). -/
def State.setTimeout (s : State) (w : U32) : State := { s with cfg := { s.cfg with timeout := w } }

/-- `CFG.attached <- b` (R31). -/
def State.setAttached (s : State) (b : Bool) : State := { s with cfg := { s.cfg with attached := b } }

/-- The five writes of REQNEW (R103); `REQ.PAY` keeps its bytes, outside its valid length (log entry 12). -/
def State.openRequest (s : State) (hi lo : U32) : State :=
  { s with req := { s.req with addrHi := hi, addrLo := lo, opened := true, isSet := false, len := 0 } }

/-- `REQ.PAY`, `REQ.len` and `REQ.set` written (R104, R105). -/
def State.setPayload (s : State) (pay : Memory) (len : U16) : State :=
  { s with req := { s.req with pay := pay, len := len, isSet := true } }

/-! ## Parser, accumulator and latest slot -/

/-- `P.counter <- c` (R21). -/
def State.setCounter (s : State) (c : U16) : State := { s with p := { s.p with counter := c } }

/-- `P.deadline <- d` (R22). -/
def State.setDeadline (s : State) (d : U33) : State := { s with p := { s.p with deadline := d } }

/-- `ACC.size` read whole (R26): the high byte, then the low byte (30_encoding.md R79). -/
def Acc.size (a : Acc) : U16 := u16Of a.sizeHigh a.sizeLow

/-- `ACC` written. -/
def State.setAcc (s : State) (a : Acc) : State := { s with acc := a }

/-- `Create()` (41_accumulator.md R131): a fresh accumulator keeps nothing of a previous frame. -/
def State.createAcc (s : State) : State :=
  { s with
    acc := { unspecifiedAcc s.draws with csum := 0, sizePhase := false, alloc := false }
    draws := s.draws + 1 }

/-- Allocation of `ACC.PAY`, every byte of it unspecified (41_accumulator.md R133, 10_state.md R28). -/
def State.allocate (s : State) : State :=
  { s with
    acc := { s.acc with alloc := true, pay := { cells := [], draw := s.draws } }
    draws := s.draws + 1 }

/-- `discard()` (00_scope.md R9, 60_exceptions.md R204), the one recovery action: back to IDLE, with every `ACC` element and
`P.deadline` unspecified, `LAT` and `CFG` unchanged. -/
def State.discard (s : State) : State :=
  { s with
    p := { counter := 0, deadline := Config.freeU33 s.draws }
    acc := unspecifiedAcc s.draws
    draws := s.draws + 1 }

/-- What promotion copies from `ACC` into `LAT` (42_parser.md R168, 20_memory.md R53). -/
def latestOf (a : Acc) : Latest where
  valid := true
  apiId := a.apiId
  csum := a.csum
  size := a.size
  pay := a.pay.firstBytes a.size.toNat

/-- Promotion (42_parser.md R168): the accumulator becomes the latest frame, and `ACC` is no longer live. -/
def State.promote (s : State) : State := { s.discard with lat := latestOf s.acc }

/-- `LAT.valid <- 0` at the start of an attached POLL (42_parser.md R177); the slot's other elements are then unspecified
(R29). -/
def State.clearLatest (s : State) : State :=
  { s with lat := emptyLatest s.draws, draws := s.draws + 1 }

/-! ## Streams and the command port (00_scope.md R9, 20_memory.md R57) -/

/-- The bytes that the stream holds after `StreamRead` calls. -/
def State.setInbound (s : State) (bs : List Byte) : State := { s with env := { s.env with inbound := bs } }

/-- `StreamWrite` (R9): the bytes are appended to the outbound side. -/
def State.streamWrite (s : State) (bs : List Byte) : State :=
  { s with env := { s.env with outbound := s.env.outbound ++ bs } }

/-- The command bytes still on the port. -/
def State.setPort (s : State) (bs : List Byte) : State := { s with env := { s.env with port := bs } }

/-- The host moves still pending. -/
def State.setAgenda (s : State) (ms : List HostMove) : State := { s with env := { s.env with agenda := ms } }

end Sys2Proof.Machine
end

