-- ==== Sys2Proof/Machine/Configuration.lean ====
section
/-! DEFINITION. The configuration commands SETTMO, ATTACH and DETACH (42_parser.md R184 to R186). -/

namespace Sys2Proof.Machine

/-- SETTMO (R184). -/
def execSettmo (w : U32) (s : State) : Host.Outcome State Fault Refusal :=
  .next ((s.setTimeout w).respond .ok [])

/-- ATTACH (R185). -/
def execAttach (s : State) : Host.Outcome State Fault Refusal :=
  .next ((s.setAttached true).respond .ok [])

/-- DETACH (R186). -/
def execDetach (s : State) : Host.Outcome State Fault Refusal :=
  .next ((s.setAttached false).respond .ok [])

end Sys2Proof.Machine
end

