-- ==== Sys2Proof/Machine/Encoder.lean ====
section
/-! DEFINITION. The pure encode function and the commands ENCODE and SEND (40_encoder.md R106 to R111). -/

namespace Sys2Proof.Machine

/-- The content bytes of an outbound frame, offsets 3 to N−2 (R106, 30_encoding.md R72). -/
def frameBody (hi lo : U32) (p : List Byte) : List Byte :=
  [Config.txType, Config.txFrameId] ++ be32 hi ++ be32 lo ++ be16 Config.res16 ++
    [Config.txRadius, Config.txOptions] ++ p

/-- `Encode(hi, lo, p)` (R106), defined when `14 + len(p) ≤ 65535`. -/
def encodeFrame (hi lo : U32) (p : List Byte) : List Byte :=
  [Config.start] ++ be16 (BitVec.ofNat 16 (Config.txOverhead + p.length)) ++ frameBody hi lo p ++
    [checksumByte (sum8 (frameBody hi lo p))]

/-- The checks ENCODE and SEND share, in their order, and the frame handed on (R109, R110, R108). -/
def withFrame (s : State) (k : List Byte → Host.Outcome State Fault Refusal) : Host.Outcome State Fault Refusal :=
  if s.req.opened = false ∨ s.req.isSet = false then .next (s.raise .errNoPayload)
  else if Config.txOverhead + s.req.len.toNat > Config.lenMax then .next (s.raise .errLenOverflow)
  else
    andThen (s.req.pay.readRange s.req.len.toNat 0 s.req.len.toNat) fun p =>
      k (encodeFrame s.req.addrHi s.req.addrLo p)

/-- ENCODE (R109). -/
def execEncode (s : State) : Host.Outcome State Fault Refusal :=
  withFrame s fun f => .next (s.respond .ok (be32 (BitVec.ofNat 32 f.length) ++ f))

/-- SEND (R110). -/
def execSend (s : State) : Host.Outcome State Fault Refusal :=
  if s.cfg.attached = false then .next (s.raise .errNoStream)
  else withFrame s fun f => .next ((s.streamWrite f).respond .ok [])

end Sys2Proof.Machine
end

