-- ==== Sys2Proof/Machine/Accumulator.lean ====
section
/-! DEFINITION. The accumulator's micro-operations (41_accumulator.md R132 to R137). Issued by the byte step they have their
effect; on the host port they answer ERR_INTERNAL and change nothing (30_encoding.md R87, 60_exceptions.md R207). -/

namespace Sys2Proof.Machine

/-- A micro-operation by who issues it. -/
def microOp {α : Type} (op : MicroIssue α) (s : State) (effect : α → Host.Outcome State Fault Refusal) :
    Host.Outcome State Fault Refusal :=
  match op with
  | .port => .next (s.raise .errInternal)
  | .parser x => effect x

/-- `begin_size(byte)` on the accumulator (R132): the high byte in phase 0, the low byte in phase 1. -/
def Acc.beginSize (a : Acc) (b : Byte) : Acc :=
  if a.sizePhase = false then { a with sizeHigh := b, sizePhase := true }
  else { a with sizeLow := b, sizePhase := false }

/-- BEGIN_SIZE (R132). -/
def execBeginSize (op : MicroIssue Byte) (s : State) : Host.Outcome State Fault Refusal :=
  microOp op s fun b => .next (s.setAcc (s.acc.beginSize b))

/-- SET_API_ID (R134). -/
def execSetApiId (op : MicroIssue Byte) (s : State) : Host.Outcome State Fault Refusal :=
  microOp op s fun b => .next (s.setAcc { s.acc with apiId := b })

/-- WRITE_AT (R135), with its precondition's fault. -/
def execWriteAt (op : MicroIssue (U16 × Byte)) (s : State) : Host.Outcome State Fault Refusal :=
  microOp op s fun kb =>
    if s.acc.alloc = false then .fault .payloadUnallocated
    else
      andThen (s.acc.pay.writeChecked s.acc.size.toNat kb.1.toNat kb.2) fun pay =>
        .next (s.setAcc { s.acc with pay := pay })

/-- ACC_CSUM (R136). -/
def execAccCsum (op : MicroIssue Byte) (s : State) : Host.Outcome State Fault Refusal :=
  microOp op s fun b => .next (s.setAcc { s.acc with csum := s.acc.csum + b })

/-- IS_COMPLETE (R137): it writes no state; what it returns to the byte step is `isCompleteChecksum s.acc.csum`. -/
def execIsComplete (op : MicroIssue Unit) (s : State) : Host.Outcome State Fault Refusal :=
  microOp op s fun _ => .next s

end Sys2Proof.Machine
end

