-- ==== Sys2Proof/Machine/FrameParser.lean ====
section
/-! DEFINITION. The frame parser (42_parser.md): the byte step, one definition per state (R162 to R169), and POLL (R175 to
R190). The byte step issues the micro-operations of 41_accumulator.md to itself. -/

namespace Sys2Proof.Machine

/-- The event a byte step returns (R160). -/
inductive StepEvent where
  | none
  | valid
  | tooLarge
  | dropped
  deriving DecidableEq, Repr

/-- IDLE (R162): a start delimiter creates an accumulator and records the deadline, exact in 33 bits (R187). -/
def stepIdle (b : Byte) (now : U32) (s : State) : Host.Outcome (State × StepEvent) Fault Refusal :=
  if b = Config.start then
    .next (((s.createAcc).setDeadline (zext33 now + zext33 s.cfg.timeout)).setCounter 1, .none)
  else .next (s, .none)

/-- LEN_HI (R163). -/
def stepLenHi (b : Byte) (s : State) : Host.Outcome (State × StepEvent) Fault Refusal :=
  andThen (execBeginSize (.parser b) s) fun t => .next (t.setCounter 2, .none)

/-- LEN_LO (R164): the size test, then allocation. -/
def stepLenLo (b : Byte) (s : State) : Host.Outcome (State × StepEvent) Fault Refusal :=
  andThen (execBeginSize (.parser b) s) fun t =>
    if t.acc.size.toNat > Config.maxPayload then .next (t.discard, .tooLarge)
    else if t.acc.size = 0 then .next (t.discard, .dropped)
    else .next (t.allocate.setCounter 3, .none)

/-- API (R165). -/
def stepApi (b : Byte) (s : State) : Host.Outcome (State × StepEvent) Fault Refusal :=
  andThen (execSetApiId (.parser b) s) fun t =>
    andThen (execAccCsum (.parser b) t) fun u => .next (u.setCounter 4, .none)

/-- `ACC_CSUM(b)` and `WRITE_AT(c − 4, b)`, the first two lines of both BODY rules (R166, R167). -/
def storeBody (b : Byte) (s : State) : Host.Outcome State Fault Refusal :=
  andThen (execAccCsum (.parser b) s) fun t => execWriteAt (.parser (t.p.counter - 4, b)) t

/-- BODY before the last byte (R166). -/
def stepBody (b : Byte) (s : State) : Host.Outcome (State × StepEvent) Fault Refusal :=
  andThen (storeBody b s) fun t => .next (t.setCounter (t.p.counter + 1), .none)

/-- BODY completing (R167 to R169). -/
def stepComplete (b : Byte) (s : State) : Host.Outcome (State × StepEvent) Fault Refusal :=
  andThen (storeBody b s) fun t =>
    andThen (execIsComplete (.parser ()) t) fun u =>
      if isCompleteChecksum u.acc.csum then .next (u.promote, .valid) else .next (u.discard, .dropped)

/-- `Step(b, now)` (R160): the rule is selected by `P.counter`. Where no rule applies, a state that R171 excludes, it
faults (log entry 9). -/
def byteStep (b : Byte) (now : U32) (s : State) : Host.Outcome (State × StepEvent) Fault Refusal :=
  if s.p.counter = 0 then stepIdle b now s
  else if s.p.counter = 1 then stepLenHi b s
  else if s.p.counter = 2 then stepLenLo b s
  else if s.p.counter = 3 then stepApi b s
  else if s.p.counter.toNat < s.acc.size.toNat + 3 then stepBody b s
  else if s.p.counter.toNat = s.acc.size.toNat + 3 then stepComplete b s
  else .fault .counterPastEnd

/-- POLL's OK response (R85, R86, R188). -/
def State.respondPoll (s : State) (st : PollStatus) (consumed : U32) : State :=
  s.respond .ok (pollData st consumed)

/-- The end of a POLL whose drain met no `valid` and no `toolarge` event (R179 to R181, R187). -/
def finishPoll (now : U32) (consumed : U32) (s : State) : State :=
  if s.p.counter = 0 then s.respondPoll .none consumed
  else if zext33 now > s.p.deadline then s.discard.respondPoll .timeout consumed
  else s.respondPoll .inProgress consumed

/-- The drain loop (R178, R182): `StreamRead` of the oldest byte, then the byte step on it. `valid` and `toolarge` end the
POLL, the rest of the bytes staying in the stream. `consumed` is a `u32` (R188, log entry 8). -/
def drain (now : U32) : (bytes : List Byte) → (consumed : U32) → State → Host.Outcome State Fault Refusal
  | [], consumed, s => .next (finishPoll now consumed s)
  | b :: rest, consumed, s =>
    andThen (byteStep b now (s.setInbound rest)) fun r =>
      match r.2 with
      | .valid => .next (r.1.respondPoll .valid (consumed + 1))
      | .tooLarge => .next (r.1.respondPoll .tooLarge (consumed + 1))
      | .none => drain now rest (consumed + 1) r.1
      | .dropped => drain now rest (consumed + 1) r.1

/-- POLL (R175 to R177). -/
def execPoll (now : U32) (s : State) : Host.Outcome State Fault Refusal :=
  if s.cfg.attached = false then .next (s.respondPoll .invalid 0)
  else drain now s.env.inbound 0 s.clearLatest

end Sys2Proof.Machine
end

