-- ==== Sys2Proof/Machine/LatestSlot.lean ====
section
/-! DEFINITION. The latest slot's accessors (41_accumulator.md R139 to R149). They read only `LAT` and change no state. -/

namespace Sys2Proof.Machine

/-- LVALID (R140): it works on an empty slot. -/
def execLvalid (s : State) : Host.Outcome State Fault Refusal :=
  .next (s.respond .ok [bitByte s.lat.valid])

/-- An accessor on an empty slot raises ERR_EMPTY (R149). -/
def onFullSlot (s : State) (k : Host.Outcome State Fault Refusal) : Host.Outcome State Fault Refusal :=
  if s.lat.valid = false then .next (s.raise .errEmpty) else k

/-- `MemRead(LAT.PAY, start + i)` for `count` bytes, handed on (R50, R51). -/
def withLatestBytes (s : State) (start count : Nat) (k : List Byte → State) : Host.Outcome State Fault Refusal :=
  andThen (s.lat.pay.readRange s.lat.size.toNat start count) fun bs => .next (k bs)

/-- LAPI (R141). -/
def execLapi (s : State) : Host.Outcome State Fault Refusal :=
  onFullSlot s (.next (s.respond .ok [s.lat.apiId]))

/-- LSIZE (R142). -/
def execLsize (s : State) : Host.Outcome State Fault Refusal :=
  onFullSlot s (.next (s.respond .ok (be16 s.lat.size)))

/-- LPAYLD (R143). -/
def execLpayld (s : State) : Host.Outcome State Fault Refusal :=
  onFullSlot s (withLatestBytes s 0 s.lat.size.toNat fun bs => s.respond .ok (be16 s.lat.size ++ bs))

/-- LCSUM (R144). -/
def execLcsum (s : State) : Host.Outcome State Fault Refusal :=
  onFullSlot s (.next (s.respond .ok [s.lat.csum]))

/-- LCOMPL (R145). -/
def execLcompl (s : State) : Host.Outcome State Fault Refusal :=
  onFullSlot s (.next (s.respond .ok [bitByte (isCompleteChecksum s.lat.csum)]))

/-- `{hi, lo}` of the first eight payload bytes, big-endian halves (R146, 20_memory.md R54), as `be32(hi) ++ be32(lo)`. -/
def senderAddress : List Byte → List Byte
  | a :: b :: c :: d :: e :: f :: g :: h :: _ => be32 (u32Of a b c d) ++ be32 (u32Of e f g h)
  | _ => []

/-- LSADDR (R146): ERR_SHORT when the body holds fewer than 8 bytes. -/
def execLsaddr (s : State) : Host.Outcome State Fault Refusal :=
  onFullSlot s
    (if s.lat.size.toNat < Config.rxAddrBytes + 1 then .next (s.raise .errShort)
     else withLatestBytes s 0 Config.rxAddrBytes fun bs => s.respond .ok (senderAddress bs))

/-- LAPPDAT (R147): the 11-byte prefix and the trailing checksum byte stripped; empty when nothing is left. -/
def execLappdat (s : State) : Host.Outcome State Fault Refusal :=
  onFullSlot s
    (if s.lat.size.toNat ≤ Config.rxPrefix + 1 then .next (s.respond .ok (be16 0))
     else
       withLatestBytes s Config.rxPrefix (s.lat.size.toNat - (Config.rxPrefix + 1)) fun bs =>
         s.respond .ok (be16 (BitVec.ofNat 16 (s.lat.size.toNat - (Config.rxPrefix + 1))) ++ bs))

end Sys2Proof.Machine
end

