-- ==== Sys2Proof/Machine/Request.lean ====
section
/-! DEFINITION. The request commands REQNEW, REQCPY and REQTAKE (40_encoder.md R103 to R105). -/

namespace Sys2Proof.Machine

/-- REQNEW (R103). -/
def execReqnew (hi lo : U32) (s : State) : Host.Outcome State Fault Refusal :=
  .next ((s.openRequest hi lo).respond .ok [])

/-- The pseudocode REQCPY and REQTAKE share (R104, R105). The capacity fault is out of the port's reach, whose `n` has 16 bits
(log entry 15). -/
def attachPayload (data : List Byte) (s : State) : Host.Outcome State Fault Refusal :=
  if s.req.opened = false then .next (s.raise .errNoRequest)
  else if s.req.isSet = true then .next (s.raise .errImmutable)
  else
    andThen (s.req.pay.fillChecked Config.reqCap data) fun pay =>
      .next ((s.setPayload pay (BitVec.ofNat 16 data.length)).respond .ok [])

/-- REQCPY (R104). -/
def execReqcpy (data : List Byte) (s : State) : Host.Outcome State Fault Refusal :=
  attachPayload data s

/-- REQTAKE (R105): FE has no buffer handles, so the effect is REQCPY's. -/
def execReqtake (data : List Byte) (s : State) : Host.Outcome State Fault Refusal :=
  attachPayload data s

end Sys2Proof.Machine
end

