-- ==== Sys2Proof/Machine/Dispatch.lean ====
section
/-! DEFINITION. exec: each instruction to its meaning, one arm per constructor. -/

namespace Sys2Proof.Machine

def exec (i : Instr) (s : State) : Host.Outcome State Fault Refusal :=
  match i with
  | .settmo w => Sys2Proof.Machine.execSettmo w s
  | .attach => Sys2Proof.Machine.execAttach s
  | .detach => Sys2Proof.Machine.execDetach s
  | .reqnew hi lo => Sys2Proof.Machine.execReqnew hi lo s
  | .reqcpy data => Sys2Proof.Machine.execReqcpy data s
  | .reqtake data => Sys2Proof.Machine.execReqtake data s
  | .encode => Sys2Proof.Machine.execEncode s
  | .send => Sys2Proof.Machine.execSend s
  | .poll now => Sys2Proof.Machine.execPoll now s
  | .lvalid => Sys2Proof.Machine.execLvalid s
  | .lapi => Sys2Proof.Machine.execLapi s
  | .lsize => Sys2Proof.Machine.execLsize s
  | .lpayld => Sys2Proof.Machine.execLpayld s
  | .lcsum => Sys2Proof.Machine.execLcsum s
  | .lcompl => Sys2Proof.Machine.execLcompl s
  | .lsaddr => Sys2Proof.Machine.execLsaddr s
  | .lappdat => Sys2Proof.Machine.execLappdat s
  | .beginSize op => Sys2Proof.Machine.execBeginSize op s
  | .setApiId op => Sys2Proof.Machine.execSetApiId op s
  | .writeAt op => Sys2Proof.Machine.execWriteAt op s
  | .accCsum op => Sys2Proof.Machine.execAccCsum op s
  | .isComplete op => Sys2Proof.Machine.execIsComplete op s

end Sys2Proof.Machine
end

