-- ==== Sys2Proof/Machine/Environment.lean ====
section
/-! DEFINITION. The moves of the host and its collaborators between commands (60_exceptions.md R209 to R211, 20_memory.md
R60, R62). Log entries 5, 10 and 11. -/

namespace Sys2Proof.Machine

/-- The environment after the clock's reading has advanced to `t`. -/
def State.setClock (s : State) (t : U32) : State := { s with env := { s.env with clock := t } }

/-- The responses that the host has not taken yet. -/
def State.setResponses (s : State) (rs : List Response) : State := { s with env := { s.env with responses := rs } }

/-- The outbound bytes that have not left yet. -/
def State.setOutbound (s : State) (bs : List Byte) : State := { s with env := { s.env with outbound := bs } }

/-- The moves still pending once an issue has put one command on the port: the bytes after it first. -/
def withheld (bytes : List Byte) (ms : List HostMove) : List HostMove :=
  match bytes with
  | [] => ms
  | b :: bs => .issue (b :: bs) :: ms

/-- Command issue (R211): the port takes bytes up to the last byte of one command. The host keeps the bytes after it, and with a
whole command on the port it makes no move, so no second command is there before the first one's response. -/
def State.issueBytes (s : State) (bytes : List Byte) : State :=
  (s.setPort (firstCommand (s.env.port ++ bytes))).setAgenda (withheld (afterCommand (s.env.port ++ bytes)) s.env.agenda)

/-- The clock collaborator advances (R209); a reading past 2^32 − 1 is outside the spec. -/
def tickClock (ticks : U32) (s : State) : Host.Outcome State Fault Refusal :=
  if s.env.clock.toNat + ticks.toNat < 2 ^ 32 then .next (s.setClock (s.env.clock + ticks))
  else .fault .clockWrapped

/-- One move (R211). -/
def hostMove (m : HostMove) (s : State) : Host.Outcome State Fault Refusal :=
  match m with
  | .issue bytes => .next (s.issueBytes bytes)
  | .arrive bytes => .next (s.setInbound (s.env.inbound ++ bytes))
  | .deliver n => .next (s.setOutbound (s.env.outbound.drop n))
  | .loopback n =>
    .next ((s.setInbound (s.env.inbound ++ s.env.outbound.take n)).setOutbound (s.env.outbound.drop n))
  | .tick ticks => tickClock ticks s
  | .collect n => .next (s.setResponses (s.env.responses.drop n))

end Sys2Proof.Machine
end

