-- ==== Sys2Proof/Machine/Port.lean ====
section
/-! DEFINITION. The command port (30_encoding.md R87, R88) and the turn of the host (60_exceptions.md R211): what one step
does. -/

namespace Sys2Proof.Machine

/-- A reserved opcode answers ERR_UNDEFINED (R87). -/
def portUndefined (s : State) : Host.Outcome State Fault Refusal :=
  .next (s.raise .errUndefined)

/-- With no whole command on the port FE holds (R88), and the host or a collaborator may make its next move (R211); with no
move pending nothing changes. -/
def hostTurn (s : State) : Host.Outcome State Fault Refusal :=
  match s.env.agenda with
  | [] => .next s
  | m :: ms => hostMove m (s.setAgenda ms)

/-- A whole command on the port runs, its bytes taken off the port first; the host's next move waits until then (R60, R211). A
byte after it would start the next command (R88), but the host has no step that puts one there (R212, `State.issueBytes`). -/
def portStep (s : State) : Host.Outcome State Fault Refusal :=
  match decode s.env.port with
  | .instr i rest => exec i (s.setPort rest)
  | .reserved _ rest => portUndefined (s.setPort rest)
  | .incomplete => hostTurn s

/-- The command of a table word placed on the port, so that the very next step runs it (log entry 4). -/
def placeCommand (nbits w : Nat) (s : State) : State :=
  s.setPort (tableWordBytes nbits w)

end Sys2Proof.Machine
end

