-- ==== Sys2Proof/Machine/Step.lean ====
section
/-! DEFINITION. One step of the machine (00_scope.md R7, 20_memory.md R56, R60). -/

namespace Sys2Proof.Machine

/-- One step: the command at the head of the port, or else the host's next move. -/
def step (s : State) : Host.Outcome State Fault Refusal :=
  portStep s

/-- The state whose next step fetches and runs the command of a table word. -/
def State.withFetchWord (s : State) (nbits w : Nat) : State := placeCommand nbits w s

end Sys2Proof.Machine
end

