-- ==== Sys2Proof/Machine/Assembly.lean ====
section
/-! DEFINITION. The assembly syntax (30_encoding.md R89) and the pseudo-instruction TXFRAME (R90). A program's lines become
the host moves that play it. Log entry 17. -/

namespace Sys2Proof.Machine

/-! ## TXFRAME (R90) -/

/-- The three commands TXFRAME expands to. -/
def txframe (hi lo : U32) (data : List Byte) : List Instr :=
  [.reqnew hi lo, .reqcpy data, .send]

/-- The last response was not an error. -/
def lastOk (s : State) : Bool := (s.env.responses.getLast?).map (·.code) == some .ok

/-- Commands one after another; the first error response ends them. -/
def runUntilError : List Instr → State → Host.Outcome State Fault Refusal
  | [], s => .next s
  | i :: is, s => andThen (exec i s) fun t => if lastOk t then runUntilError is t else .next t

/-! ## Lines (R89) -/

/-- The tokens of a line. -/
inductive Token where
  | word (cs : List Char)
  | comma
  | openBracket
  | closeBracket
  | colon
  deriving DecidableEq, Repr

/-- The word read so far, put before the tokens after it. -/
def flushWord (word : List Char) (ts : List Token) : List Token :=
  if word = [] then ts else .word word.reverse :: ts

/-- The tokens of a line, up to its comment; `word` holds the word being read, last character first. -/
def tokens : (word : List Char) → List Char → List Token
  | word, [] => flushWord word []
  | word, c :: cs =>
    if c = ';' then flushWord word []
    else if c = ',' then flushWord word (.comma :: tokens [] cs)
    else if c = '[' then flushWord word (.openBracket :: tokens [] cs)
    else if c = ']' then flushWord word (.closeBracket :: tokens [] cs)
    else if c = ':' then flushWord word (.colon :: tokens [] cs)
    else if c = ' ' ∨ c = '\t' then flushWord word (tokens [] cs)
    else tokens (c :: word) cs

/-- The value of a digit. -/
def digitValue (c : Char) : Option Nat :=
  if 48 ≤ c.toNat ∧ c.toNat ≤ 57 then some (c.toNat - 48)
  else if 65 ≤ c.toNat ∧ c.toNat ≤ 70 then some (c.toNat - 55)
  else if 97 ≤ c.toNat ∧ c.toNat ≤ 102 then some (c.toNat - 87)
  else none

/-- A row of digits in a base, on from the value of the digits before it. -/
def digits (base : Nat) : (value : Nat) → List Char → Option Nat
  | value, [] => some value
  | value, c :: cs =>
    match digitValue c with
    | some d => if d < base then digits base (value * base + d) cs else none
    | none => none

/-- A number: decimal, or hexadecimal with a `0x` prefix. -/
def number : List Char → Option Nat
  | [] => none
  | '0' :: 'x' :: c :: cs => digits 16 0 (c :: cs)
  | cs => digits 10 0 cs

/-- A number below a bound. -/
def numberBelow (bound : Nat) (cs : List Char) : Option Nat :=
  match number cs with
  | some n => if n < bound then some n else none
  | none => none

/-- A 32-bit operand. -/
def operand32 (cs : List Char) : Option U32 := (numberBelow (2 ^ 32) cs).map (BitVec.ofNat 32)

/-- A bracketed byte list, after its opening bracket: bytes between commas, then the closing bracket and nothing more. -/
def byteList : List Token → Option (List Byte)
  | [.closeBracket] => some []
  | [.word w, .closeBracket] => (numberBelow 256 w).map fun n => [BitVec.ofNat 8 n]
  | .word w :: .comma :: .word v :: ts =>
    match numberBelow 256 w, byteList (.word v :: ts) with
    | some n, some bs => some (BitVec.ofNat 8 n :: bs)
    | _, _ => none
  | _ => none

/-- A command or pseudo-instruction, if its payload length fits the operand `n`. -/
def checkedCommands (is : List Instr) : Option (List Instr) :=
  if is.all Instr.wellFormed then some is else none

/-- A command without operands, by its mnemonic (formats F0 and internal). -/
def plainCommand (m : String) : Option Instr :=
  if m = "ATTACH" then some .attach
  else if m = "DETACH" then some .detach
  else if m = "ENCODE" then some .encode
  else if m = "SEND" then some .send
  else if m = "LVALID" then some .lvalid
  else if m = "LAPI" then some .lapi
  else if m = "LSIZE" then some .lsize
  else if m = "LPAYLD" then some .lpayld
  else if m = "LCSUM" then some .lcsum
  else if m = "LCOMPL" then some .lcompl
  else if m = "LSADDR" then some .lsaddr
  else if m = "LAPPDAT" then some .lappdat
  else if m = "BEGIN_SIZE" then some (.beginSize .port)
  else if m = "SET_API_ID" then some (.setApiId .port)
  else if m = "WRITE_AT" then some (.writeAt .port)
  else if m = "ACC_CSUM" then some (.accCsum .port)
  else if m = "IS_COMPLETE" then some (.isComplete .port)
  else none

/-- The commands of one line; a line of no token has none. -/
def lineCommands : List Token → Option (List Instr)
  | [] => some []
  | [.word m] => (plainCommand (String.ofList m)).map fun i => [i]
  | [.word m, .word w] =>
    if String.ofList m = "SETTMO" then (operand32 w).map fun v => [.settmo v]
    else if String.ofList m = "POLL" then (operand32 w).map fun v => [.poll v]
    else none
  | [.word m, .word a, .comma, .word b] =>
    match operand32 a, operand32 b with
    | some hi, some lo => if String.ofList m = "REQNEW" then some [.reqnew hi lo] else none
    | _, _ => none
  | .word m :: .openBracket :: ts =>
    match byteList ts with
    | some bs =>
      if String.ofList m = "REQCPY" then checkedCommands [.reqcpy bs]
      else if String.ofList m = "REQTAKE" then checkedCommands [.reqtake bs]
      else none
    | none => none
  | .word m :: .word a :: .comma :: .word b :: .comma :: .openBracket :: ts =>
    match operand32 a, operand32 b, byteList ts with
    | some hi, some lo, some bs =>
      if String.ofList m = "TXFRAME" then checkedCommands (txframe hi lo bs) else none
    | _, _, _ => none
  | _ => none

/-- The bytes a `stream:` line lists, two hexadecimal digits each. -/
def streamBytes : List Token → Option (List Byte)
  | [] => some []
  | .word [a, b] :: ts =>
    match digits 16 0 [a, b], streamBytes ts with
    | some n, some bs => some (BitVec.ofNat 8 n :: bs)
    | _, _ => none
  | _ => none

/-- The host moves that play one line: its bytes arrive, or its commands are issued one by one. -/
def lineMoves (line : List Char) : Option (List HostMove) :=
  match tokens [] line with
  | .word w :: .colon :: ts =>
    if String.ofList w = "stream" then (streamBytes ts).map fun bs => [.arrive bs] else none
  | ts => (lineCommands ts).map fun is => is.map fun i => .issue (encode i)

/-- The host moves that play a program, line after line. -/
def programMoves : List (List Char) → Option (List HostMove)
  | [] => some []
  | l :: ls =>
    match lineMoves l, programMoves ls with
    | some ms, some rest => some (ms ++ rest)
    | _, _ => none

end Sys2Proof.Machine
end

