-- ==== Sys2Proof/Safety.lean ====
section
/-! DEFINITION. What counts as a safe run: the invariant of the machine (10_state.md R21 to R32, 41_accumulator.md R130,
42_parser.md R171), the premises on the host (93_implementation_defined.md H1 to H5), and which states agree on everything the
spec specifies. -/

namespace Sys2Proof.Safety

open Sys2Proof.Machine

/-- The offsets a memory lists. -/
def offsets (m : Memory) : List Nat := m.cells.map Prod.fst

/-- The bytes a memory lists, by rising offset. -/
def stored (m : Memory) : List Byte := m.cells.map Prod.snd

/-- Every memory is in canonical form and within its capacity (20_memory.md R50). -/
structure MemoriesInv (s : State) : Prop where
  accWf : s.acc.pay.wf = true
  latWf : s.lat.pay.wf = true
  reqWf : s.req.pay.wf = true
  accCap : ∀ i ∈ offsets s.acc.pay, i < Config.maxPayload
  latCap : ∀ i ∈ offsets s.lat.pay, i < Config.maxPayload
  reqCap : ∀ i ∈ offsets s.req.pay, i < Config.reqCap

/-- The parser by its state (R21, R23 to R28, R130, R171). -/
structure ParserInv (s : State) : Prop where
  /-- Before the high length byte: a fresh accumulator (R131). -/
  lenHi : s.p.counter = 1 → s.acc.sizePhase = false ∧ s.acc.alloc = false ∧ s.acc.csum = 0
  /-- Before the low length byte. -/
  lenLo : s.p.counter = 2 → s.acc.sizePhase = true ∧ s.acc.alloc = false ∧ s.acc.csum = 0
  /-- Once both length bytes have been consumed: allocated, `1 ≤ ACC.size ≤ MAX_PAYLOAD`, `P.counter ≤ ACC.size + 3`. -/
  sized : 3 ≤ s.p.counter.toNat →
    s.acc.sizePhase = false ∧ s.acc.alloc = true ∧ 1 ≤ s.acc.size.toNat ∧ s.acc.size.toNat ≤ Config.maxPayload ∧
      s.p.counter.toNat ≤ s.acc.size.toNat + 3
  /-- Before the API-id byte nothing is summed and nothing is stored. -/
  api : s.p.counter = 3 → s.acc.csum = 0 ∧ offsets s.acc.pay = []
  /-- After it: offsets 0 to `P.counter − 5` are written, and the running checksum is the sum of the API-id byte and of every
  byte stored (R130). -/
  body : 4 ≤ s.p.counter.toNat →
    offsets s.acc.pay = List.range (s.p.counter.toNat - 4) ∧ s.acc.csum = s.acc.apiId + sum8 (stored s.acc.pay)

/-- The latest slot (R29): a frame in it has its whole payload written and checksum 0xFF. -/
def LatestInv (s : State) : Prop :=
  s.lat.valid = true →
    s.lat.csum = 0xFF ∧ 1 ≤ s.lat.size.toNat ∧ s.lat.size.toNat ≤ Config.maxPayload ∧
      offsets s.lat.pay = List.range s.lat.size.toNat ∧ s.lat.csum = s.lat.apiId + sum8 (stored s.lat.pay)

/-- The request (R32): a payload is set only on an open request, and every byte of its valid length is written. -/
structure RequestInv (s : State) : Prop where
  opened : s.req.isSet = true → s.req.opened = true
  unset : s.req.isSet = false → s.req.len = 0
  written : ∀ i, i < s.req.len.toNat → i ∈ offsets s.req.pay

/-- The invariant of the machine. -/
structure Inv (s : State) : Prop where
  memories : MemoriesInv s
  parser : ParserInv s
  latest : LatestInv s
  request : RequestInv s

/-! ## The command port -/

/-- No byte is on the port after a whole command: commands do not overlap (60_exceptions.md R212, H1). -/
def OneCommand (s : State) : Prop :=
  match decode s.env.port with
  | .instr _ rest => rest = []
  | .reserved _ rest => rest = []
  | .incomplete => True

/-! ## Premises on the host -/

/-- The clock ticks that are still pending. -/
def pendingTicks : List HostMove → Nat
  | [] => 0
  | .tick t :: ms => t.toNat + pendingTicks ms
  | .issue _ :: ms => pendingTicks ms
  | .arrive _ :: ms => pendingTicks ms
  | .deliver _ :: ms => pendingTicks ms
  | .loopback _ :: ms => pendingTicks ms
  | .collect _ :: ms => pendingTicks ms

/-- The clock does not wrap during the run (60_exceptions.md R209, H2). -/
def ClockHasRoom (s : State) : Prop := s.env.clock.toNat + pendingTicks s.env.agenda < 2 ^ 32

/-- The host's duty on POLL (R209): the `now` of a POLL on the port is the clock collaborator's reading. -/
def PollsWithReading (s : State) : Prop :=
  ∀ now rest, decode s.env.port = .instr (.poll now) rest → now = s.env.clock

/-- A deadline on record is at most the longest timeout ahead of the clock. -/
def DeadlineWithinReach (s : State) : Prop :=
  s.p.counter ≠ 0 → s.p.deadline.toNat ≤ s.env.clock.toNat + (2 ^ 32 - 1)

/-! ## Specified elements -/

/-- The two states agree on every element that the spec specifies (93_implementation_defined.md section 2): they may differ
in `P.deadline` and `ACC` while the parser is idle, in the parts of a live `ACC` that no byte has written yet, in `LAT` while
`LAT.valid = 0`, in the address before REQNEW, outside the valid length of `REQ.PAY`, and in the draws. -/
structure SameSpecified (s t : State) : Prop where
  counter : s.p.counter = t.p.counter
  deadline : s.p.counter ≠ 0 → s.p.deadline = t.p.deadline
  csum : s.p.counter ≠ 0 → s.acc.csum = t.acc.csum
  sizePhase : s.p.counter ≠ 0 → s.acc.sizePhase = t.acc.sizePhase
  alloc : s.p.counter ≠ 0 → s.acc.alloc = t.acc.alloc
  accBytes : s.p.counter ≠ 0 → s.acc.pay.cells = t.acc.pay.cells
  sizeHigh : s.p.counter = 2 → s.acc.sizeHigh = t.acc.sizeHigh
  size : 3 ≤ s.p.counter.toNat → s.acc.size = t.acc.size
  apiId : 4 ≤ s.p.counter.toNat → s.acc.apiId = t.acc.apiId
  latValid : s.lat.valid = t.lat.valid
  latApiId : s.lat.valid = true → s.lat.apiId = t.lat.apiId
  latCsum : s.lat.valid = true → s.lat.csum = t.lat.csum
  latSize : s.lat.valid = true → s.lat.size = t.lat.size
  latBytes : s.lat.valid = true → s.lat.pay.cells = t.lat.pay.cells
  cfg : s.cfg = t.cfg
  opened : s.req.opened = t.req.opened
  isSet : s.req.isSet = t.req.isSet
  len : s.req.len = t.req.len
  addrHi : s.req.opened = true → s.req.addrHi = t.req.addrHi
  addrLo : s.req.opened = true → s.req.addrLo = t.req.addrLo
  reqBytes : ∀ i, i < s.req.len.toNat → lookupCell i s.req.pay.cells = lookupCell i t.req.pay.cells
  env : s.env = t.env

/-! ## What a step adds to the environment -/

/-- The state with one more response and nothing else changed. -/
def answered (s : State) (r : Response) : State :=
  { s with env := { s.env with responses := s.env.responses ++ [r] } }

/-- A run of `k` steps goes on to its end: no fault and no refusal. -/
def Runs (k : Nat) (s : State) : Prop := ∃ t : State, Sys2Proof.core.run k s = .next t

end Sys2Proof.Safety
end

