-- ==== Sys2Proof/Certificates/Slice0/Obligations.lean ====
section
/-! DEFINITION. The statements about this model, each a formalisation of rules of spec/ (OBLIGATIONS.json names them). Numbers
are written out from the spec, not taken from the model's parameters. -/

open Sys2Proof Sys2Proof.Machine Sys2Proof.Safety

namespace Sys2Proof.Statements

/-- The bytes of a memory at offsets `start` to `start + count − 1`. -/
def slice (m : Memory) (start count : Nat) : List Byte :=
  (List.range count).map fun i => m.byteAt (start + i)

/-- The declared size that two length bytes encode (30_encoding.md R79). -/
def declared (hi lo : Byte) : Nat := hi.toNat * 256 + lo.toNat

/-- The bytes of an inbound frame (30_encoding.md R70): delimiter, length, API id, then body and checksum. -/
def frame (hi lo api : Byte) (tail : List Byte) : List Byte := [0x7E, hi, lo, api] ++ tail

/-- A frame of a length the parser accepts, `N = L + 4` (30_encoding.md R70, R71). -/
def Sized (hi lo : Byte) (tail : List Byte) : Prop :=
  1 ≤ declared hi lo ∧ declared hi lo ≤ 65520 ∧ tail.length = declared hi lo

/-- A well-formed frame that the parser accepts (30_encoding.md R71). -/
def Good (hi lo api : Byte) (tail : List Byte) : Prop := Sized hi lo tail ∧ api + sum8 tail = 0xFF

/-- A frame whose checksum fails. -/
def Bad (hi lo api : Byte) (tail : List Byte) : Prop := Sized hi lo tail ∧ api + sum8 tail ≠ 0xFF

/-- The latest slot holds this frame (42_parser.md R168). -/
def Holds (t : State) (hi lo api : Byte) (tail : List Byte) : Prop :=
  t.lat.valid = true ∧ t.lat.apiId = api ∧ t.lat.csum = 0xFF ∧ t.lat.size.toNat = declared hi lo ∧
    slice t.lat.pay 0 (declared hi lo) = tail

/-- A POLL's response: OK, the status byte and the number of bytes read (30_encoding.md R85, R86). -/
def pollResponse (status : Byte) (consumed : Nat) : Response :=
  { code := .ok, data := status :: be32 (BitVec.ofNat 32 consumed) }

/-- What a POLL never touches: `CFG`, `REQ`, the outbound side, the port, the clock and the pending moves. -/
def PollFrame (s t : State) : Prop :=
  t.cfg = s.cfg ∧ t.req = s.req ∧ t.env.outbound = s.env.outbound ∧ t.env.port = s.env.port ∧
    t.env.clock = s.env.clock ∧ t.env.agenda = s.env.agenda

/-- What a byte step never touches: `CFG`, `REQ` and the environment. -/
def ByteFrame (s t : State) : Prop := t.cfg = s.cfg ∧ t.req = s.req ∧ t.env = s.env

/-- `eaten` is fed to the byte step byte by byte, in order, each event being `none` or `dropped`, from `s` to `t`
(42_parser.md R178). -/
def Fed (now : U32) : (eaten : List Byte) → (s t : State) → Prop
  | [], s, t => t = s
  | b :: rest, s, t =>
    ∃ u e, byteStep b now s = .next (u, e) ∧ (e = .none ∨ e = .dropped) ∧ Fed now rest u t

/-- The state at the start of an attached POLL's drain: the latest slot is empty and nothing else has changed
(42_parser.md R177). -/
def Cleared (s c : State) : Prop :=
  c.lat.valid = false ∧ c.p = s.p ∧ c.acc = s.acc ∧ c.cfg = s.cfg ∧ c.req = s.req ∧ c.env = s.env

/-- POLL's answer put into the environment: one response more, and `left` still in the stream. -/
def PollAnswered (s t : State) (status : Byte) (consumed : Nat) (left : List Byte) : Prop :=
  t.cfg = s.cfg ∧ t.req = s.req ∧
    t.env = { s.env with inbound := left, responses := s.env.responses ++ [pollResponse status consumed] }

/-- An opcode of 30_encoding.md R83's reserved ranges. -/
def Reserved (op : Byte) : Prop :=
  op = 0x00 ∨ (0x04 ≤ op ∧ op ≤ 0x0F) ∨ (0x15 ≤ op ∧ op ≤ 0x1F) ∨ (0x21 ≤ op ∧ op ≤ 0x2F) ∨
    (0x38 ≤ op ∧ op ≤ 0x7F) ∨ 0x85 ≤ op

/-- A micro-operation issued on the host port. -/
def HostMicroOp (i : Instr) : Prop :=
  i = .beginSize .port ∨ i = .setApiId .port ∨ i = .writeAt .port ∨ i = .accCsum .port ∨ i = .isComplete .port

/-- An accessor of the latest slot that an empty slot refuses (41_accumulator.md R149). -/
def FullSlotAccessor (i : Instr) : Prop :=
  i = .lapi ∨ i = .lsize ∨ i = .lpayld ∨ i = .lcsum ∨ i = .lcompl ∨ i = .lsaddr ∨ i = .lappdat

end Sys2Proof.Statements

open Sys2Proof.Statements

/-! ## Reset -/

/-- R231, the three properties that hold from reset: before ATTACH every POLL returns Invalid; after ATTACH a POLL with no
bytes returns None; the latest slot is empty. That the stream holds no byte at reset is the model's choice (log entry 4). -/
def Obligations.ResetGivesIdleDetachedEmpty : Prop :=
  (∀ now, exec (.poll now) State.reset = .next (answered State.reset (pollResponse 0x05 0))) ∧
  (∃ t, exec .attach State.reset = .next t ∧
    ∀ now, ∃ u, exec (.poll now) t = .next u ∧
      u.env.responses = t.env.responses ++ [pollResponse 0x00 0] ∧ u.p.counter = 0) ∧
  exec .lvalid State.reset = .next (answered State.reset ⟨.ok, [0x00]⟩)

/-- R230, the elements to which the spec gives a reset value. -/
def Obligations.ResetValuesOfTheSpec : Prop :=
  State.reset.p.counter = 0 ∧ State.reset.lat.valid = false ∧ State.reset.cfg.timeout = 1000 ∧
  State.reset.cfg.attached = false ∧ State.reset.req.opened = false ∧ State.reset.req.isSet = false ∧
  State.reset.req.len = 0

/-- The invariant holds at reset, and so does that of the command port (60_exceptions.md R211, R212). The canonical form of a
memory is the model's choice (log entry 3), and so is that the port holds no byte at reset (log entry 4). -/
def Obligations.ResetMeetsInvariant : Prop := Inv State.reset ∧ OneCommand State.reset

/-! ## Configuration commands -/

/-- R184: SETTMO writes `CFG.timeout` and nothing else; a deadline already recorded keeps its value. -/
def Obligations.SettmoSetsTimeout : Prop :=
  ∀ (w : U32) (s : State),
    exec (.settmo w) s = .next { answered s ⟨.ok, []⟩ with cfg := { s.cfg with timeout := w } } ∧
    encode (.settmo w) = 0x01 :: be32 w

/-- R185 and R186: ATTACH sets and DETACH clears `CFG.attached`; both keep the parser, its partial frame and its deadline, and
the latest slot. After DETACH a POLL returns Invalid and touches nothing. -/
def Obligations.AttachAndDetachSetAttached : Prop :=
  ∀ s : State,
    exec .attach s = .next { answered s ⟨.ok, []⟩ with cfg := { s.cfg with attached := true } } ∧
    (∃ t, exec .detach s = .next t ∧ t = { answered s ⟨.ok, []⟩ with cfg := { s.cfg with attached := false } } ∧
      ∀ now, exec (.poll now) t = .next (answered t (pollResponse 0x05 0))) ∧
    encode .attach = [0x02] ∧ encode .detach = [0x03]

/-! ## Request and encoder -/

/-- R103: REQNEW opens a request with the address, not set, of length 0, whatever was there before. -/
def Obligations.ReqnewOpensRequest : Prop :=
  ∀ (hi lo : U32) (s : State),
    exec (.reqnew hi lo) s =
      .next { answered s ⟨.ok, []⟩ with
        req := { s.req with opened := true, addrHi := hi, addrLo := lo, isSet := false, len := 0 } } ∧
    encode (.reqnew hi lo) = 0x10 :: (be32 hi ++ be32 lo)

/-- R104 and R105: REQCPY and REQTAKE on an open request without a payload store the `n` bytes, set `REQ.len` and
`REQ.set`, and change nothing else; without a request they raise ERR_NO_REQUEST, and on a set payload ERR_IMMUTABLE, in that
order. Their encodings are 0x11 and 0x12 in format FB (R82): the opcode, the big-endian count, the data bytes. -/
def Obligations.PayloadIsAttachedOnce : Prop :=
  ∀ (data : List Byte) (s : State) (i : Instr), i = .reqcpy data ∨ i = .reqtake data → i.wellFormed = true →
    (s.req.opened = false → exec i s = .next (answered s ⟨.errNoRequest, []⟩)) ∧
    (s.req.opened = true → s.req.isSet = true → exec i s = .next (answered s ⟨.errImmutable, []⟩)) ∧
    (s.req.opened = true → s.req.isSet = false →
      ∃ t, exec i s = .next t ∧
        t = { answered s ⟨.ok, []⟩ with
          req := { s.req with isSet := true, len := t.req.len, pay := t.req.pay } } ∧
        t.req.len.toNat = data.length ∧
        slice t.req.pay 0 data.length = data ∧
        ∀ k, data.length ≤ k → t.req.pay.byteAt k = s.req.pay.byteAt k) ∧
    encode (.reqcpy data) = 0x11 :: (be16 (BitVec.ofNat 16 data.length) ++ data) ∧
    encode (.reqtake data) = 0x12 :: (be16 (BitVec.ofNat 16 data.length) ++ data)

/-- R105: REQTAKE's effect is REQCPY's with the same operands. -/
def Obligations.ReqtakeEqualsReqcpy : Prop :=
  ∀ (data : List Byte) (s : State), exec (.reqtake data) s = exec (.reqcpy data) s

/-- R106: the exact bytes of an encoded frame. -/
def Obligations.EncodedFrameBytes : Prop :=
  ∀ (hi lo : U32) (p : List Byte), 14 + p.length ≤ 65535 →
    encodeFrame hi lo p =
      [0x7E] ++ be16 (BitVec.ofNat 16 (14 + p.length)) ++
      ([0x10, 0x00] ++ be32 hi ++ be32 lo ++ [0xFF, 0xFE, 0x00, 0x00] ++ p) ++
      [0xFF - sum8 ([0x10, 0x00] ++ be32 hi ++ be32 lo ++ [0xFF, 0xFE, 0x00, 0x00] ++ p)]

/-- R112, R71, R75: the laws of an encoded frame. -/
def Obligations.EncodedFrameLaws : Prop :=
  ∀ (hi lo : U32) (p : List Byte), p.length ≤ 65521 →
    (encodeFrame hi lo p).length = 18 + p.length ∧
    (encodeFrame hi lo p)[0]? = some 0x7E ∧
    (∃ a b, (encodeFrame hi lo p)[1]? = some a ∧ (encodeFrame hi lo p)[2]? = some b ∧
      declared a b = (encodeFrame hi lo p).length - 4) ∧
    sum8 ((encodeFrame hi lo p).drop 3) = 0xFF ∧
    (encodeFrame hi lo p)[3]? = some 0x10 ∧ (encodeFrame hi lo p)[4]? = some 0x00 ∧
    ((encodeFrame hi lo p).drop 5).take 8 = be32 hi ++ be32 lo ∧
    ((encodeFrame hi lo p).drop 13).take 4 = [0xFF, 0xFE, 0x00, 0x00] ∧
    ((encodeFrame hi lo p).drop 17).take p.length = p

/-- R109: ENCODE's checks in order, and its answer: the frame's length and the frame of the current request; nothing changes. -/
def Obligations.EncodeReturnsFrame : Prop :=
  ∀ s : State,
    (s.req.opened = false ∨ s.req.isSet = false → exec .encode s = .next (answered s ⟨.errNoPayload, []⟩)) ∧
    (s.req.opened = true → s.req.isSet = true → 14 + s.req.len.toNat > 65535 →
      exec .encode s = .next (answered s ⟨.errLenOverflow, []⟩)) ∧
    (s.req.opened = true → s.req.isSet = true → 14 + s.req.len.toNat ≤ 65535 →
      exec .encode s = .next (answered s ⟨.ok, be32 (BitVec.ofNat 32 (18 + s.req.len.toNat)) ++
        encodeFrame s.req.addrHi s.req.addrLo (slice s.req.pay 0 s.req.len.toNat)⟩)) ∧
    encode .encode = [0x13]

/-- R110: SEND's checks in order, and its effect: the whole frame appended to the outbound side, nothing else. -/
def Obligations.SendAppendsFrame : Prop :=
  ∀ s : State,
    (s.cfg.attached = false → exec .send s = .next (answered s ⟨.errNoStream, []⟩)) ∧
    (s.cfg.attached = true → s.req.opened = false ∨ s.req.isSet = false →
      exec .send s = .next (answered s ⟨.errNoPayload, []⟩)) ∧
    (s.cfg.attached = true → s.req.opened = true → s.req.isSet = true → 14 + s.req.len.toNat > 65535 →
      exec .send s = .next (answered s ⟨.errLenOverflow, []⟩)) ∧
    (s.cfg.attached = true → s.req.opened = true → s.req.isSet = true → 14 + s.req.len.toNat ≤ 65535 →
      exec .send s = .next { s with env := { s.env with
        outbound := s.env.outbound ++
          encodeFrame s.req.addrHi s.req.addrLo (slice s.req.pay 0 s.req.len.toNat)
        responses := s.env.responses ++ [⟨.ok, []⟩] } }) ∧
    encode .send = [0x14]

/-- R111: ENCODE and SEND answer in every state and write neither `REQ` nor any parser or latest-slot element; and they read
none of those: from any other state with the same request and the same configuration the response and the bytes sent are the
same, also when the command is repeated. -/
def Obligations.EncodingIsPure : Prop :=
  ∀ (s : State) (i : Instr), i = .encode ∨ i = .send →
    ∃ (t : State) (r : Response) (sent : List Byte), exec i s = .next t ∧
      t.env.responses = s.env.responses ++ [r] ∧ t.env.outbound = s.env.outbound ++ sent ∧
      t.req = s.req ∧ t.p = s.p ∧ t.acc = s.acc ∧ t.lat = s.lat ∧ t.cfg = s.cfg ∧
      ∀ s' : State, s'.req = s.req → s'.cfg = s.cfg →
        ∃ t', exec i s' = .next t' ∧ t'.env.responses = s'.env.responses ++ [r] ∧
          t'.env.outbound = s'.env.outbound ++ sent

/-- R90: TXFRAME on an attached stream appends the frame of its operands; it stops at SEND with ERR_LEN_OVERFLOW on a payload
too long to encode, and with ERR_NO_STREAM without a stream. -/
def Obligations.TxframeSendsFrame : Prop :=
  ∀ (hi lo : U32) (data : List Byte) (s : State), data.length ≤ 65535 →
    (s.cfg.attached = true → data.length ≤ 65521 →
      ∃ t, runUntilError (txframe hi lo data) s = .next t ∧
        t.env.outbound = s.env.outbound ++ encodeFrame hi lo data ∧
        t.env.responses = s.env.responses ++ [⟨.ok, []⟩, ⟨.ok, []⟩, ⟨.ok, []⟩] ∧
        t.p = s.p ∧ t.acc = s.acc ∧ t.lat = s.lat ∧ t.cfg = s.cfg) ∧
    (s.cfg.attached = true → 65521 < data.length →
      ∃ t, runUntilError (txframe hi lo data) s = .next t ∧
        t.env.outbound = s.env.outbound ∧
        t.env.responses = s.env.responses ++ [⟨.ok, []⟩, ⟨.ok, []⟩, ⟨.errLenOverflow, []⟩]) ∧
    (s.cfg.attached = false →
      ∃ t, runUntilError (txframe hi lo data) s = .next t ∧
        t.env.outbound = s.env.outbound ∧
        t.env.responses = s.env.responses ++ [⟨.ok, []⟩, ⟨.ok, []⟩, ⟨.errNoStream, []⟩])

/-! ## Latest-slot accessors -/

/-- R140, R141, R142, R144 and R145: LVALID on any slot; LAPI, LSIZE, LCSUM and LCOMPL on a full slot return its field, on an
empty one ERR_EMPTY. A frame in the slot of a state that meets the invariant has checksum 0xFF and a size of 1 to 65520. Their
encodings are the opcodes 0x30, 0x31, 0x32, 0x34 and 0x35 alone. -/
def Obligations.ScalarAccessorsReadTheSlot : Prop :=
  ∀ s : State,
    exec .lvalid s = .next (answered s ⟨.ok, [if s.lat.valid = true then 0x01 else 0x00]⟩) ∧
    (s.lat.valid = true →
      exec .lapi s = .next (answered s ⟨.ok, [s.lat.apiId]⟩) ∧
      exec .lsize s = .next (answered s ⟨.ok, be16 s.lat.size⟩) ∧
      exec .lcsum s = .next (answered s ⟨.ok, [s.lat.csum]⟩) ∧
      exec .lcompl s = .next (answered s ⟨.ok, [if s.lat.csum = 0xFF then 0x01 else 0x00]⟩) ∧
      (Inv s → s.lat.csum = 0xFF ∧ 1 ≤ s.lat.size.toNat ∧ s.lat.size.toNat ≤ 65520)) ∧
    (s.lat.valid = false → ∀ i, i = .lapi ∨ i = .lsize ∨ i = .lcsum ∨ i = .lcompl →
      exec i s = .next (answered s ⟨.errEmpty, []⟩)) ∧
    encode .lvalid = [0x30] ∧ encode .lapi = [0x31] ∧ encode .lsize = [0x32] ∧ encode .lcsum = [0x34] ∧
    encode .lcompl = [0x35]

/-- R143: LPAYLD returns the size and then every payload byte, the body and the checksum byte; ERR_EMPTY on an empty slot.
Its encoding is 0x33. -/
def Obligations.LpayldReturnsPayload : Prop :=
  ∀ s : State,
    (s.lat.valid = false → exec .lpayld s = .next (answered s ⟨.errEmpty, []⟩)) ∧
    (s.lat.valid = true →
      exec .lpayld s = .next (answered s ⟨.ok, be16 s.lat.size ++ slice s.lat.pay 0 s.lat.size.toNat⟩)) ∧
    encode .lpayld = [0x33]

/-- R146: LSADDR returns the first eight payload bytes, most significant first; ERR_EMPTY on an empty slot, then ERR_SHORT below
a size of 9. Its encoding is 0x36. -/
def Obligations.LsaddrReturnsFirstEightBytes : Prop :=
  ∀ s : State,
    (s.lat.valid = false → exec .lsaddr s = .next (answered s ⟨.errEmpty, []⟩)) ∧
    (s.lat.valid = true → s.lat.size.toNat < 9 → exec .lsaddr s = .next (answered s ⟨.errShort, []⟩)) ∧
    (s.lat.valid = true → 9 ≤ s.lat.size.toNat → exec .lsaddr s = .next (answered s ⟨.ok, slice s.lat.pay 0 8⟩)) ∧
    encode .lsaddr = [0x36]

/-- R147: LAPPDAT strips the 11-byte prefix and the trailing checksum byte, is empty up to a size of 12, and raises ERR_EMPTY on
an empty slot. Its encoding is 0x37. -/
def Obligations.LappdatStripsPrefixAndChecksum : Prop :=
  ∀ s : State,
    (s.lat.valid = false → exec .lappdat s = .next (answered s ⟨.errEmpty, []⟩)) ∧
    (s.lat.valid = true → s.lat.size.toNat ≤ 12 → exec .lappdat s = .next (answered s ⟨.ok, [0x00, 0x00]⟩)) ∧
    (s.lat.valid = true → 12 < s.lat.size.toNat →
      exec .lappdat s = .next (answered s ⟨.ok,
        be16 (BitVec.ofNat 16 (s.lat.size.toNat - 12)) ++ slice s.lat.pay 11 (s.lat.size.toNat - 12)⟩)) ∧
    encode .lappdat = [0x37]

/-- R149: every accessor except LVALID raises ERR_EMPTY on an empty slot and changes nothing. -/
def Obligations.EmptySlotIsRefused : Prop :=
  ∀ (s : State) (i : Instr), FullSlotAccessor i → s.lat.valid = false →
    exec i s = .next (answered s ⟨.errEmpty, []⟩)

/-- R139: the accessors answer in every state and change no state. -/
def Obligations.AccessorsChangeNothing : Prop :=
  ∀ (s : State) (i : Instr), i = .lvalid ∨ FullSlotAccessor i → ∃ r, exec i s = .next (answered s r)

/-! ## Accumulator micro-operations -/

/-- R132: BEGIN_SIZE writes the high byte in phase 0 and the low byte in phase 1, keeps the other byte, and two calls from
phase 0 assemble the size; nothing else changes. Its opcode is 0x80. -/
def Obligations.BeginSizeAssemblesSize : Prop :=
  ∀ (b c : Byte) (s : State),
    (s.acc.sizePhase = false →
      ∃ t, exec (.beginSize (.parser b)) s = .next t ∧
        t = { s with acc := { s.acc with sizeHigh := b, sizePhase := true } } ∧
        t.acc.size.toNat = b.toNat * 256 + s.acc.size.toNat % 256 ∧
        ∃ u, exec (.beginSize (.parser c)) t = .next u ∧
          u = { s with acc := { s.acc with sizeHigh := b, sizeLow := c, sizePhase := false } } ∧
          u.acc.size.toNat = declared b c) ∧
    (s.acc.sizePhase = true →
      ∃ t, exec (.beginSize (.parser b)) s = .next t ∧
        t = { s with acc := { s.acc with sizeLow := b, sizePhase := false } } ∧
        t.acc.size.toNat = s.acc.size.toNat / 256 * 256 + b.toNat) ∧
    encode (.beginSize .port) = [0x80]

/-- R134, R136 and R137: SET_API_ID, ACC_CSUM and IS_COMPLETE, each with its effect and no other. Their opcodes are
0x81, 0x83 and 0x84. -/
def Obligations.ApiIdAndChecksumMicroOps : Prop :=
  ∀ (b : Byte) (s : State),
    exec (.setApiId (.parser b)) s = .next { s with acc := { s.acc with apiId := b } } ∧
    (∃ t, exec (.accCsum (.parser b)) s = .next t ∧
      t = { s with acc := { s.acc with csum := t.acc.csum } } ∧
      t.acc.csum.toNat = (s.acc.csum.toNat + b.toNat) % 256) ∧
    exec (.isComplete (.parser ())) s = .next s ∧
    (isCompleteChecksum s.acc.csum = true ↔ s.acc.csum.toNat = 255) ∧
    encode (.setApiId .port) = [0x81] ∧ encode (.accCsum .port) = [0x83] ∧ encode (.isComplete .port) = [0x84]

/-- R135: WRITE_AT stores the byte at the offset and changes no other byte and nothing else; outside its precondition it faults
(20_memory.md R51). Its opcode is 0x82. -/
def Obligations.WriteAtStoresOneByte : Prop :=
  ∀ (k : U16) (b : Byte) (s : State),
    (s.acc.alloc = true → k.toNat < s.acc.size.toNat →
      ∃ t, exec (.writeAt (.parser (k, b))) s = .next t ∧
        t = { s with acc := { s.acc with pay := t.acc.pay } } ∧
        t.acc.pay.byteAt k.toNat = b ∧
        ∀ i, i ≠ k.toNat → t.acc.pay.byteAt i = s.acc.pay.byteAt i) ∧
    (s.acc.alloc = false → exec (.writeAt (.parser (k, b))) s = .fault .payloadUnallocated) ∧
    (s.acc.alloc = true → s.acc.size.toNat ≤ k.toNat →
      exec (.writeAt (.parser (k, b))) s = .fault .payloadOutOfRange) ∧
    encode (.writeAt .port) = [0x82]

/-- R207: on the host port every micro-operation answers ERR_INTERNAL and changes nothing. -/
def Obligations.HostMicroOpsAreRefused : Prop :=
  ∀ (s : State) (i : Instr), HostMicroOp i → exec i s = .next (answered s ⟨.errInternal, []⟩)

/-! ## The byte step -/

/-- R162: IDLE takes a start delimiter only, creates the accumulator and records the exact deadline; any other byte is ignored. -/
def Obligations.IdleStepWaitsForDelimiter : Prop :=
  ∀ (b : Byte) (now : U32) (s : State), s.p.counter = 0 →
    (b = 0x7E →
      ∃ t, byteStep b now s = .next (t, .none) ∧ t.p.counter = 1 ∧
        t.p.deadline.toNat = now.toNat + s.cfg.timeout.toNat ∧
        t.acc.csum = 0 ∧ t.acc.sizePhase = false ∧ t.acc.alloc = false ∧ offsets t.acc.pay = [] ∧
        t.lat = s.lat ∧ ByteFrame s t) ∧
    (b ≠ 0x7E → byteStep b now s = .next (s, .none))

/-- R163: LEN_HI takes the high length byte, whatever it is. -/
def Obligations.LenHiStepTakesHighByte : Prop :=
  ∀ (b : Byte) (now : U32) (s : State), s.p.counter = 1 → s.acc.sizePhase = false →
    ∃ t, byteStep b now s = .next (t, .none) ∧ t.p = { s.p with counter := 2 } ∧
      t.acc = { s.acc with sizeHigh := b, sizePhase := true } ∧ t.acc.size.toNat / 256 = b.toNat ∧
      t.lat = s.lat ∧ ByteFrame s t

/-- R164: LEN_LO tests the declared size: above 65520 TooLarge, 0 dropped, else allocated with every byte unwritten. -/
def Obligations.LenLoStepTestsSize : Prop :=
  ∀ (b : Byte) (now : U32) (s : State), s.p.counter = 2 → s.acc.sizePhase = true →
    (s.acc.size.toNat / 256 * 256 + b.toNat > 65520 →
      ∃ t, byteStep b now s = .next (t, .tooLarge) ∧ t.p.counter = 0 ∧ t.lat = s.lat ∧ ByteFrame s t) ∧
    (s.acc.size.toNat / 256 * 256 + b.toNat = 0 →
      ∃ t, byteStep b now s = .next (t, .dropped) ∧ t.p.counter = 0 ∧ t.lat = s.lat ∧ ByteFrame s t) ∧
    (1 ≤ s.acc.size.toNat / 256 * 256 + b.toNat → s.acc.size.toNat / 256 * 256 + b.toNat ≤ 65520 →
      ∃ t, byteStep b now s = .next (t, .none) ∧ t.p = { s.p with counter := 3 } ∧
        t.acc.size.toNat = s.acc.size.toNat / 256 * 256 + b.toNat ∧ t.acc.sizePhase = false ∧
        t.acc.alloc = true ∧ t.acc.csum = s.acc.csum ∧ t.acc.apiId = s.acc.apiId ∧ offsets t.acc.pay = [] ∧
        t.lat = s.lat ∧ ByteFrame s t)

/-- R165: the API step records the byte, adds it to the checksum and stores it nowhere else. -/
def Obligations.ApiStepRecordsApiId : Prop :=
  ∀ (b : Byte) (now : U32) (s : State), s.p.counter = 3 →
    ∃ t, byteStep b now s = .next (t, .none) ∧ t.p = { s.p with counter := 4 } ∧
      t.acc = { s.acc with apiId := b, csum := s.acc.csum + b } ∧ t.lat = s.lat ∧ ByteFrame s t

/-- R166: a BODY byte before the last is summed and stored at `P.counter − 4`, whatever its value. -/
def Obligations.BodyStepStoresByte : Prop :=
  ∀ (b : Byte) (now : U32) (s : State),
    4 ≤ s.p.counter.toNat → s.p.counter.toNat < s.acc.size.toNat + 3 → s.acc.alloc = true →
    s.acc.size.toNat ≤ 65520 →
    ∃ t, byteStep b now s = .next (t, .none) ∧ t.p.counter.toNat = s.p.counter.toNat + 1 ∧
      t.p.deadline = s.p.deadline ∧
      t.acc = { s.acc with csum := s.acc.csum + b, pay := t.acc.pay } ∧
      t.acc.pay.byteAt (s.p.counter.toNat - 4) = b ∧
      (∀ i, i ≠ s.p.counter.toNat - 4 → t.acc.pay.byteAt i = s.acc.pay.byteAt i) ∧
      t.lat = s.lat ∧ ByteFrame s t

/-- R167, R168 and R169: the completing byte is summed and stored at `ACC.size − 1`; with checksum 0xFF the accumulator is
promoted, otherwise it is discarded and the latest slot stays. -/
def Obligations.CompletingStepPromotesOrDrops : Prop :=
  ∀ (b : Byte) (now : U32) (s : State),
    4 ≤ s.p.counter.toNat → s.p.counter.toNat = s.acc.size.toNat + 3 → s.acc.alloc = true →
    (s.acc.csum + b = 0xFF →
      ∃ t, byteStep b now s = .next (t, .valid) ∧ t.p.counter = 0 ∧ t.lat.valid = true ∧
        t.lat.apiId = s.acc.apiId ∧ t.lat.csum = 0xFF ∧ t.lat.size = s.acc.size ∧
        t.lat.pay.byteAt (s.acc.size.toNat - 1) = b ∧
        (∀ i, i < s.acc.size.toNat - 1 → t.lat.pay.byteAt i = s.acc.pay.byteAt i) ∧ ByteFrame s t) ∧
    (s.acc.csum + b ≠ 0xFF →
      ∃ t, byteStep b now s = .next (t, .dropped) ∧ t.p.counter = 0 ∧ t.lat = s.lat ∧ ByteFrame s t)

/-- R37: how `P.counter` advances in a byte step. -/
def Obligations.CounterAdvances : Prop :=
  ∀ (b : Byte) (now : U32) (s t : State) (e : StepEvent), Inv s → byteStep b now s = .next (t, e) →
    (s.p.counter = 0 → t.p.counter = if b = 0x7E then 1 else 0) ∧
    (s.p.counter = 1 → t.p.counter = 2) ∧
    (s.p.counter = 2 → t.p.counter =
      if declared s.acc.sizeHigh b = 0 ∨ 65520 < declared s.acc.sizeHigh b then 0 else 3) ∧
    (s.p.counter = 3 → t.p.counter = 4) ∧
    (4 ≤ s.p.counter.toNat → s.p.counter.toNat < s.acc.size.toNat + 3 →
      t.p.counter.toNat = s.p.counter.toNat + 1) ∧
    (4 ≤ s.p.counter.toNat → s.p.counter.toNat = s.acc.size.toNat + 3 → t.p.counter = 0)

/-- R161: the byte step is total on every state that meets the invariant, and keeps it. -/
def Obligations.ByteStepIsTotal : Prop :=
  ∀ (b : Byte) (now : U32) (s : State), Inv s → ∃ t e, byteStep b now s = .next (t, e) ∧ Inv t

/-! ## POLL -/

/-- R176: without a stream POLL returns Invalid, reads no byte and changes no state. -/
def Obligations.DetachedPollIsInvalid : Prop :=
  ∀ (now : U32) (s : State), s.cfg.attached = false →
    exec (.poll now) s = .next (answered s (pollResponse 0x05 0)) ∧ encode (.poll now) = 0x20 :: be32 now

/-- POLL always answers, in every state that meets the invariant (R175), and keeps the invariant. -/
def Obligations.PollAlwaysAnswers : Prop :=
  ∀ (now : U32) (s : State), Inv s → ∃ t, exec (.poll now) s = .next t ∧ Inv t

/-- R179, R180, R181 and R187 for a POLL that finds no byte: None when idle; Timeout exactly when `now` is past the deadline, with
the frame discarded; else InProgress, with the partial frame and its deadline kept. The latest slot is cleared (R177). -/
def Obligations.EmptyPollChecksDeadline : Prop :=
  ∀ (now : U32) (s : State), s.cfg.attached = true → s.env.inbound = [] →
    ∃ t, exec (.poll now) s = .next t ∧ t.lat.valid = false ∧ t.env.inbound = [] ∧ PollFrame s t ∧
      (s.p.counter = 0 → t.p = s.p ∧ t.acc = s.acc ∧
        t.env.responses = s.env.responses ++ [pollResponse 0x00 0]) ∧
      (s.p.counter ≠ 0 → now.toNat > s.p.deadline.toNat → t.p.counter = 0 ∧
        t.env.responses = s.env.responses ++ [pollResponse 0x04 0]) ∧
      (s.p.counter ≠ 0 → now.toNat ≤ s.p.deadline.toNat → t.p = s.p ∧ t.acc = s.acc ∧
        t.env.responses = s.env.responses ++ [pollResponse 0x01 0])

/-- R183 with R177, R182 and R188: an attached POLL reports exactly one status, the number of bytes it read, and leaves the
machine as that status says; it reads the bytes in order and, except after Valid and TooLarge, all of them. The count is
taken modulo 2^32 (log entry 8). -/
def Obligations.PollReportsOneOutcome : Prop :=
  ∀ (now : U32) (s t : State), s.cfg.attached = true → exec (.poll now) s = .next t →
    ∃ (st : PollStatus) (eaten : List Byte),
      s.env.inbound = eaten ++ t.env.inbound ∧
      t.env.responses = s.env.responses ++ [pollResponse (pollStatusByte st) eaten.length] ∧
      PollFrame s t ∧
      match st with
      | .invalid => False
      | .valid => t.lat.valid = true ∧ t.p.counter = 0
      | .tooLarge => t.lat.valid = false ∧ t.p.counter = 0
      | .timeout => t.lat.valid = false ∧ t.p.counter = 0 ∧ t.env.inbound = []
      | .inProgress =>
        t.lat.valid = false ∧ t.p.counter ≠ 0 ∧ t.env.inbound = [] ∧ now.toNat ≤ t.p.deadline.toNat
      | .none => t.lat.valid = false ∧ t.p.counter = 0 ∧ t.env.inbound = []

/-- R190: from an idle parser no drain, over any bytes, answers Timeout, so a frame whose start delimiter arrives in a POLL cannot
time out in that same POLL. And a POLL answers Timeout only if a frame was in progress before it, whose recorded deadline its
clock value has passed. -/
def Obligations.NoTimeoutInTheStartingPoll : Prop :=
  (∀ (now consumed : U32) (bytes : List Byte) (s t : State) (n : Nat), s.p.counter = 0 →
    drain now bytes consumed s = .next t → t.env.responses ≠ s.env.responses ++ [pollResponse 0x04 n]) ∧
  (∀ (now : U32) (s t : State) (n : Nat), exec (.poll now) s = .next t →
    t.env.responses = s.env.responses ++ [pollResponse 0x04 n] →
    s.p.counter ≠ 0 ∧ s.p.deadline.toNat < now.toNat)

/-- The parser accepts a well-formed frame (R71, R168): after any bytes that are no start delimiter, a POLL answers
Valid at the frame's last byte, the slot holds the frame, and the bytes after it stay in the stream (R182). -/
def Obligations.WellFormedFrameIsAccepted : Prop :=
  ∀ (now : U32) (s : State) (junk : List Byte) (hi lo api : Byte) (tail rest : List Byte),
    s.cfg.attached = true → s.p.counter = 0 → (∀ b ∈ junk, b ≠ 0x7E) → Good hi lo api tail →
    s.env.inbound = junk ++ frame hi lo api tail ++ rest →
    ∃ t, exec (.poll now) s = .next t ∧
      t.env.responses = s.env.responses ++ [pollResponse 0x02 (junk ++ frame hi lo api tail).length] ∧
      t.env.inbound = rest ∧ t.p.counter = 0 ∧ Holds t hi lo api tail ∧ PollFrame s t

/-- Loopback (R112, the source's decode acceptance): the frame that Encode gives for a payload of up to 65506 bytes is
accepted, its checksum reads 0xFF and its payload is the frame from offset 4 on. -/
def Obligations.EncodedFrameIsAccepted : Prop :=
  ∀ (now : U32) (s : State) (hi lo : U32) (p rest : List Byte),
    s.cfg.attached = true → s.p.counter = 0 → p.length ≤ 65506 →
    s.env.inbound = encodeFrame hi lo p ++ rest →
    ∃ t, exec (.poll now) s = .next t ∧
      t.env.responses = s.env.responses ++ [pollResponse 0x02 (18 + p.length)] ∧
      t.env.inbound = rest ∧ t.lat.valid = true ∧ t.lat.apiId = 0x10 ∧ t.lat.csum = 0xFF ∧
      t.lat.size.toNat = 14 + p.length ∧
      slice t.lat.pay 0 (14 + p.length) = (encodeFrame hi lo p).drop 4

/-- R169 and R201: a frame whose checksum fails is dropped silently, and a good frame after it is accepted in the same
POLL. -/
def Obligations.BadChecksumIsDroppedSilently : Prop :=
  ∀ (now : U32) (s : State) (h l a hi lo api : Byte) (bad tail rest : List Byte),
    s.cfg.attached = true → s.p.counter = 0 → Bad h l a bad →
    (s.env.inbound = frame h l a bad →
      ∃ t, exec (.poll now) s = .next t ∧ t.p.counter = 0 ∧ t.lat.valid = false ∧
        t.env.responses = s.env.responses ++ [pollResponse 0x00 (frame h l a bad).length]) ∧
    (Good hi lo api tail → s.env.inbound = frame h l a bad ++ frame hi lo api tail ++ rest →
      ∃ t, exec (.poll now) s = .next t ∧
        t.env.responses = s.env.responses ++ [pollResponse 0x02 (frame h l a bad ++ frame hi lo api tail).length] ∧
        t.env.inbound = rest ∧ Holds t hi lo api tail)

/-- A zero declared size is dropped silently at the second length byte, and a good frame after it is accepted in the same POLL
(R164, R201, R204). -/
def Obligations.ZeroLengthIsDroppedSilently : Prop :=
  ∀ (now : U32) (s : State) (hi lo api : Byte) (tail rest : List Byte),
    s.cfg.attached = true → s.p.counter = 0 → Good hi lo api tail →
    s.env.inbound = [0x7E, 0x00, 0x00] ++ frame hi lo api tail ++ rest →
    ∃ t, exec (.poll now) s = .next t ∧
      t.env.responses = s.env.responses ++ [pollResponse 0x02 (7 + tail.length)] ∧
      t.env.inbound = rest ∧ Holds t hi lo api tail

/-- Oversize rejection (R164, R182, R204): TooLarge at the second length byte, the rest left in the stream, the parser
idle; a good frame there is accepted by the next POLL. -/
def Obligations.OversizeIsRejected : Prop :=
  ∀ (now : U32) (s : State) (h l : Byte) (rest : List Byte),
    s.cfg.attached = true → s.p.counter = 0 → declared h l > 65520 → s.env.inbound = [0x7E, h, l] ++ rest →
    ∃ t, exec (.poll now) s = .next t ∧ t.env.responses = s.env.responses ++ [pollResponse 0x03 3] ∧
      t.env.inbound = rest ∧ t.p.counter = 0 ∧ t.lat.valid = false ∧ PollFrame s t ∧
      ∀ (later : U32) (hi lo api : Byte) (tail after : List Byte), Good hi lo api tail →
        rest = frame hi lo api tail ++ after →
        ∃ u, exec (.poll later) t = .next u ∧
          u.env.responses = t.env.responses ++ [pollResponse 0x02 (frame hi lo api tail).length] ∧
          Holds u hi lo api tail

/-- R180 and R189: a frame split over two POLLs is InProgress after the first and Valid after the second, whatever the second's
clock value, even past the deadline. -/
def Obligations.SplitFrameCompletesInLaterPoll : Prop :=
  ∀ (now later : U32) (s : State) (hi lo api : Byte) (tail first second rest : List Byte),
    s.cfg.attached = true → s.p.counter = 0 → Good hi lo api tail → first ≠ [] → second ≠ [] →
    frame hi lo api tail = first ++ second → s.env.inbound = first →
    ∃ t, exec (.poll now) s = .next t ∧
      t.env.responses = s.env.responses ++ [pollResponse 0x01 first.length] ∧
      t.p.counter.toNat = first.length ∧ t.p.deadline.toNat = now.toNat + s.cfg.timeout.toNat ∧
      ∃ u, exec (.poll later) { t with env := { t.env with inbound := second ++ rest } } = .next u ∧
        u.env.responses = t.env.responses ++ [pollResponse 0x02 second.length] ∧
        u.env.inbound = rest ∧ Holds u hi lo api tail

/-! ## Responses, writers and the port -/

/-- R84 and R86: the numbering of the response codes and of the poll statuses, and a response as bytes: the code byte first, the
data after it. -/
def Obligations.ResponseAndStatusNumbers : Prop :=
  [RespCode.ok, .errUndefined, .errInternal, .errNoRequest, .errImmutable, .errNoPayload, .errLenOverflow,
    .errNoStream, .errEmpty, .errShort].map respCodeByte = [0, 1, 2, 3, 4, 5, 6, 7, 8, 9] ∧
  [PollStatus.none, .inProgress, .valid, .tooLarge, .timeout, .invalid].map pollStatusByte = [0, 1, 2, 3, 4, 5] ∧
  (∀ r : Response, responseBytes r = respCodeByte r.code :: r.data) ∧
  (∀ c : RespCode, (respCodeByte c).toNat ≤ 9) ∧ (∀ st : PollStatus, (pollStatusByte st).toNat ≤ 5)

/-- R202 with R84: every command of the port that completes returns one response; an error response carries no data,
changes no state, and is raised only by the commands and for the cause that the table lists. -/
def Obligations.ErrorResponsesHaveTheirCause : Prop :=
  ∀ (i : Instr) (s t : State), i.wellFormed = true → exec i s = .next t →
    ∃ r, t.env.responses = s.env.responses ++ [r] ∧
      (r.code ≠ .ok → r.data = [] ∧ t = answered s r) ∧
      match r.code with
      | .ok => True
      | .errUndefined => False
      | .errInternal => HostMicroOp i
      | .errNoRequest => (∃ d, i = .reqcpy d ∨ i = .reqtake d) ∧ s.req.opened = false
      | .errImmutable => (∃ d, i = .reqcpy d ∨ i = .reqtake d) ∧ s.req.isSet = true
      | .errNoPayload => (i = .encode ∨ i = .send) ∧ (s.req.opened = false ∨ s.req.isSet = false)
      | .errLenOverflow => (i = .encode ∨ i = .send) ∧ 14 + s.req.len.toNat > 65535
      | .errNoStream => i = .send ∧ s.cfg.attached = false
      | .errEmpty => FullSlotAccessor i ∧ s.lat.valid = false
      | .errShort => i = .lsaddr ∧ s.lat.size.toNat < 9

/-- R36's writers: each element changes only by the commands that the table names, and no command touches the port, the clock
or the pending moves. -/
def Obligations.ElementsHaveTheirWriters : Prop :=
  ∀ (i : Instr) (s t : State), i.wellFormed = true → exec i s = .next t →
    ((∀ w, i ≠ .settmo w) → t.cfg.timeout = s.cfg.timeout) ∧
    (i ≠ .attach → i ≠ .detach → t.cfg.attached = s.cfg.attached) ∧
    ((∀ hi lo, i ≠ .reqnew hi lo) → (∀ d, i ≠ .reqcpy d) → (∀ d, i ≠ .reqtake d) → t.req = s.req) ∧
    ((∀ now, i ≠ .poll now) → t.p = s.p ∧ t.acc = s.acc ∧ t.lat = s.lat ∧ t.env.inbound = s.env.inbound) ∧
    (i ≠ .send → t.env.outbound = s.env.outbound) ∧
    t.env.port = s.env.port ∧ t.env.clock = s.env.clock ∧ t.env.agenda = s.env.agenda

/-- R87: an opcode 0x80 to 0x84 answers ERR_INTERNAL and a reserved opcode ERR_UNDEFINED; the command is one byte long and
changes no state. -/
def Obligations.RefusedOpcodesAreOneByte : Prop :=
  ∀ (op : Byte) (rest : List Byte) (s : State), s.env.port = op :: rest →
    (0x80 ≤ op → op ≤ 0x84 → step s = .next (answered (s.setPort rest) ⟨.errInternal, []⟩)) ∧
    (Reserved op → step s = .next (answered (s.setPort rest) ⟨.errUndefined, []⟩))

/-- A step runs the command at the head of the port, its bytes taken off the port first. -/
def Obligations.StepRunsDecodedCommand : Prop :=
  ∀ (i : Instr) (rest : List Byte) (s : State), decode s.env.port = .instr i rest →
    step s = exec i { s with env := { s.env with port := rest } }

/-- R88: a command runs only once all its bytes have arrived, and the next one starts at the byte after its last; until then
the port holds, and with no move of the host pending nothing changes. That a pending host move is made while the port holds
is the model's choice (log entry 5). -/
def Obligations.PortHoldsUntilComplete : Prop :=
  ∀ (i : Instr) (s : State), i.wellFormed = true →
    (∀ rest, s.env.port = encode i ++ rest → step s = exec i { s with env := { s.env with port := rest } }) ∧
    (∀ k, k < (encode i).length → s.env.port = (encode i).take k → s.env.agenda = [] → step s = .next s)

/-- While the port holds, a step is the host's next move, and it touches no element of FE (10_state.md R34). An issue appends its
bytes to the port up to the last byte of one command, so that no second command is there before the first one's response
(60_exceptions.md R211, R212). The moves as data in the state, and that an issue's bytes after the command stay pending, are
the model's choice (log entry 5). -/
def Obligations.HostMovesTouchOnlyTheEnvironment : Prop :=
  ∀ s t : State, decode s.env.port = .incomplete → step s = .next t →
    t.p = s.p ∧ t.acc = s.acc ∧ t.lat = s.lat ∧ t.cfg = s.cfg ∧ t.req = s.req ∧
    (s.env.inbound <+: t.env.inbound) ∧ (∃ n, t.env.responses = s.env.responses.drop n) ∧
    (∃ n, t.env.outbound = s.env.outbound.drop n) ∧
    (∀ bytes ms, s.env.agenda = .issue bytes :: ms →
      OneCommand t ∧ ∃ left, s.env.port ++ bytes = t.env.port ++ left ∧
        (decode t.env.port = .incomplete → left = []) ∧
        t.env.agenda = if left = [] then ms else .issue left :: ms)

/-- Arriving bytes are appended to the inbound side, and looped-back bytes move from the head of the outbound side to its
end, in order (20_memory.md R60, 60_exceptions.md R210). The moves as data in the state are the model's choice (log entry
5). -/
def Obligations.StreamIsFirstInFirstOut : Prop :=
  ∀ (bytes : List Byte) (n : Nat) (ms : List HostMove) (s : State), s.env.port = [] →
    (s.env.agenda = .arrive bytes :: ms →
      step s = .next { s with env := { s.env with inbound := s.env.inbound ++ bytes, agenda := ms } }) ∧
    (s.env.agenda = .loopback n :: ms →
      step s = .next { s with env := { s.env with
        inbound := s.env.inbound ++ s.env.outbound.take n
        outbound := s.env.outbound.drop n
        agenda := ms } })

/-- No step takes the clock back (60_exceptions.md R209). The reading as a field of the state is the model's choice (log
entry 10). -/
def Obligations.ClockNeverGoesBack : Prop :=
  ∀ s t : State, step s = .next t → s.env.clock.toNat ≤ t.env.clock.toNat

/-! ## Encodings -/

/-- Decode and encode agree: a well-formed command's bytes decode to it, with every operand, and what follows is left. -/
def Obligations.DecodeInvertsEncode : Prop :=
  ∀ (i : Instr) (rest : List Byte), i.wellFormed = true → decode (encode i ++ rest) = .instr i rest

/-- Decoding is unambiguous: bytes that decode to a command are that command's bytes and the rest, and the command is well
formed. -/
def Obligations.DecodedBytesAreTheEncoding : Prop :=
  ∀ (bs : List Byte) (i : Instr) (rest : List Byte), decode bs = .instr i rest →
    i.wellFormed = true ∧ bs = encode i ++ rest

/-- R83, row by row: a word of every opcode, written out from its format (R82) or the spec's examples
(95_test_vectors.md), decodes to the command it stands for, and a reserved opcode takes no operand. -/
def Obligations.ExampleWordsDecode : Prop :=
  decode [0x01, 0x00, 0x00, 0x01, 0xF4] = .instr (.settmo 500) [] ∧
  decode [0x02] = .instr .attach [] ∧
  decode [0x03] = .instr .detach [] ∧
  decode [0x10, 0x00, 0x13, 0xA2, 0x00, 0x41, 0xBD, 0xFA, 0xFB] = .instr (.reqnew 0x0013A200 0x41BDFAFB) [] ∧
  decode [0x11, 0x00, 0x01, 0x41] = .instr (.reqcpy [0x41]) [] ∧
  decode [0x12, 0x00, 0x02, 0x41, 0x7E, 0x13] = .instr (.reqtake [0x41, 0x7E]) [0x13] ∧
  decode [0x13] = .instr .encode [] ∧
  decode [0x14] = .instr .send [] ∧
  decode [0x20, 0x00, 0x00, 0x04, 0xB0] = .instr (.poll 1200) [] ∧
  decode [0x30] = .instr .lvalid [] ∧
  decode [0x31] = .instr .lapi [] ∧
  decode [0x32] = .instr .lsize [] ∧
  decode [0x33] = .instr .lpayld [] ∧
  decode [0x34] = .instr .lcsum [] ∧
  decode [0x35] = .instr .lcompl [] ∧
  decode [0x36] = .instr .lsaddr [] ∧
  decode [0x37] = .instr .lappdat [] ∧
  decode [0x80] = .instr (.beginSize .port) [] ∧
  decode [0x81] = .instr (.setApiId .port) [] ∧
  decode [0x82] = .instr (.writeAt .port) [] ∧
  decode [0x83] = .instr (.accCsum .port) [] ∧
  decode [0x84] = .instr (.isComplete .port) [] ∧
  decode [0xFF, 0x20, 0x00, 0x00, 0x00, 0x00] = .reserved 0xFF [0x20, 0x00, 0x00, 0x00, 0x00]

/-! ## The whole machine -/

/-- Every step keeps the invariant; the canonical form of a memory is the model's choice (log entry 3). And every step keeps the
invariant of the command port: the host has no step that puts a second command on it (20_memory.md R60, 60_exceptions.md R211,
R212). -/
def Obligations.StepKeepsInvariant : Prop :=
  ∀ s t : State, step s = .next t → (Inv s → Inv t) ∧ (OneCommand s → OneCommand t)

/-- No run stops: from every state that meets the invariant, with a clock that does not wrap, a run of any length goes on
(R51, R161, R205). The faults that the model has, and the clock as a field, are log entries 9 and 10. -/
def Obligations.NoRunEverStops : Prop :=
  ∀ (k : Nat) (s : State), Inv s → ClockHasRoom s → Runs k s

/-- No rule reads an unspecified element (R230, 93_implementation_defined.md section 2): two states that agree on every specified
element step to states that agree on every specified element, responses and streams included. -/
def Obligations.UnspecifiedElementsAreNeverRead : Prop :=
  ∀ s t s' : State, Inv s → Inv t → SameSpecified s t → step s = .next s' →
    ∃ t', step t = .next t' ∧ SameSpecified s' t'

/-- With the host's duty on POLL kept, a deadline on record stays within one longest timeout of the clock (R187, R209). The
reading as a field of the state is the model's choice (log entry 10). -/
def Obligations.DeadlineStaysWithinReach : Prop :=
  ∀ s t : State, PollsWithReading s → DeadlineWithinReach s → step s = .next t → DeadlineWithinReach t

/-- R177 to R182, R187 and R188 for every attached POLL, whatever it finds in progress and in the stream: it clears the slot, then
feeds the bytes to the byte step one at a time in order. A `valid` or `toolarge` event ends it at that byte with Valid or
TooLarge, the machine as that step left it and the rest in the stream. Otherwise the stream is read out, and it answers None when
idle; Timeout, with the frame discarded, exactly when `now` is past `P.deadline`; else InProgress, with the frame and its
deadline kept. The count is taken modulo 2^32 (log entry 8). -/
def Obligations.PollDrainsByteByByte : Prop :=
  ∀ (now : U32) (s : State), Inv s → s.cfg.attached = true →
    ∃ (c u t : State) (eaten left : List Byte), Cleared s c ∧ Fed now eaten c u ∧ s.env.inbound = eaten ++ left ∧
      exec (.poll now) s = .next t ∧
      match left with
      | [] =>
        if u.p.counter = 0 then
          t.p = u.p ∧ t.acc = u.acc ∧ t.lat = u.lat ∧ PollAnswered s t 0x00 eaten.length []
        else if now.toNat > u.p.deadline.toNat then
          t.p.counter = 0 ∧ t.lat = u.lat ∧ PollAnswered s t 0x04 eaten.length []
        else
          t.p = u.p ∧ t.acc = u.acc ∧ t.lat = u.lat ∧ PollAnswered s t 0x01 eaten.length []
      | b :: rest =>
        ∃ v e, byteStep b now u = .next (v, e) ∧ t.p = v.p ∧ t.acc = v.acc ∧ t.lat = v.lat ∧
          ((e = .valid ∧ PollAnswered s t 0x02 (eaten.length + 1) rest) ∨
           (e = .tooLarge ∧ PollAnswered s t 0x03 (eaten.length + 1) rest))
end

