-- ==== Sys2Proof/Laws/State.lean ====
section
/-! SUPPORT. What each named operation over State leaves in each field: one lemma per field per operation, so that no proof
unfolds a record update. -/

namespace Sys2Proof.Machine

variable (s : State)


/-! ### respond -/

@[simp] theorem State.respond_p (c : RespCode) (d : List Byte) : (s.respond c d).p = s.p := rfl
@[simp] theorem State.respond_acc (c : RespCode) (d : List Byte) : (s.respond c d).acc = s.acc := rfl
@[simp] theorem State.respond_lat (c : RespCode) (d : List Byte) : (s.respond c d).lat = s.lat := rfl
@[simp] theorem State.respond_cfg (c : RespCode) (d : List Byte) : (s.respond c d).cfg = s.cfg := rfl
@[simp] theorem State.respond_req (c : RespCode) (d : List Byte) : (s.respond c d).req = s.req := rfl
@[simp] theorem State.respond_env_port (c : RespCode) (d : List Byte) : (s.respond c d).env.port = s.env.port := rfl
@[simp] theorem State.respond_env_inbound (c : RespCode) (d : List Byte) :
    (s.respond c d).env.inbound = s.env.inbound := rfl
@[simp] theorem State.respond_env_outbound (c : RespCode) (d : List Byte) :
    (s.respond c d).env.outbound = s.env.outbound := rfl
@[simp] theorem State.respond_env_responses (c : RespCode) (d : List Byte) :
    (s.respond c d).env.responses = s.env.responses ++ [{ code := c, data := d }] := rfl
@[simp] theorem State.respond_env_clock (c : RespCode) (d : List Byte) : (s.respond c d).env.clock = s.env.clock := rfl
@[simp] theorem State.respond_env_agenda (c : RespCode) (d : List Byte) :
    (s.respond c d).env.agenda = s.env.agenda := rfl
@[simp] theorem State.respond_draws (c : RespCode) (d : List Byte) : (s.respond c d).draws = s.draws := rfl

/-! ### raise -/

@[simp] theorem State.raise_p (c : RespCode) : (s.raise c).p = s.p := rfl
@[simp] theorem State.raise_acc (c : RespCode) : (s.raise c).acc = s.acc := rfl
@[simp] theorem State.raise_lat (c : RespCode) : (s.raise c).lat = s.lat := rfl
@[simp] theorem State.raise_cfg (c : RespCode) : (s.raise c).cfg = s.cfg := rfl
@[simp] theorem State.raise_req (c : RespCode) : (s.raise c).req = s.req := rfl
@[simp] theorem State.raise_env_port (c : RespCode) : (s.raise c).env.port = s.env.port := rfl
@[simp] theorem State.raise_env_inbound (c : RespCode) : (s.raise c).env.inbound = s.env.inbound := rfl
@[simp] theorem State.raise_env_outbound (c : RespCode) : (s.raise c).env.outbound = s.env.outbound := rfl
@[simp] theorem State.raise_env_responses (c : RespCode) :
    (s.raise c).env.responses = s.env.responses ++ [{ code := c, data := [] }] := rfl
@[simp] theorem State.raise_env_clock (c : RespCode) : (s.raise c).env.clock = s.env.clock := rfl
@[simp] theorem State.raise_env_agenda (c : RespCode) : (s.raise c).env.agenda = s.env.agenda := rfl
@[simp] theorem State.raise_draws (c : RespCode) : (s.raise c).draws = s.draws := rfl

/-! ### setTimeout -/

@[simp] theorem State.setTimeout_p (w : U32) : (s.setTimeout w).p = s.p := rfl
@[simp] theorem State.setTimeout_acc (w : U32) : (s.setTimeout w).acc = s.acc := rfl
@[simp] theorem State.setTimeout_lat (w : U32) : (s.setTimeout w).lat = s.lat := rfl
@[simp] theorem State.setTimeout_cfg (w : U32) : (s.setTimeout w).cfg = { s.cfg with timeout := w } := rfl
@[simp] theorem State.setTimeout_req (w : U32) : (s.setTimeout w).req = s.req := rfl
@[simp] theorem State.setTimeout_env (w : U32) : (s.setTimeout w).env = s.env := rfl
@[simp] theorem State.setTimeout_draws (w : U32) : (s.setTimeout w).draws = s.draws := rfl

/-! ### setAttached -/

@[simp] theorem State.setAttached_p (b : Bool) : (s.setAttached b).p = s.p := rfl
@[simp] theorem State.setAttached_acc (b : Bool) : (s.setAttached b).acc = s.acc := rfl
@[simp] theorem State.setAttached_lat (b : Bool) : (s.setAttached b).lat = s.lat := rfl
@[simp] theorem State.setAttached_cfg (b : Bool) : (s.setAttached b).cfg = { s.cfg with attached := b } := rfl
@[simp] theorem State.setAttached_req (b : Bool) : (s.setAttached b).req = s.req := rfl
@[simp] theorem State.setAttached_env (b : Bool) : (s.setAttached b).env = s.env := rfl
@[simp] theorem State.setAttached_draws (b : Bool) : (s.setAttached b).draws = s.draws := rfl

/-! ### openRequest -/

@[simp] theorem State.openRequest_p (hi lo : U32) : (s.openRequest hi lo).p = s.p := rfl
@[simp] theorem State.openRequest_acc (hi lo : U32) : (s.openRequest hi lo).acc = s.acc := rfl
@[simp] theorem State.openRequest_lat (hi lo : U32) : (s.openRequest hi lo).lat = s.lat := rfl
@[simp] theorem State.openRequest_cfg (hi lo : U32) : (s.openRequest hi lo).cfg = s.cfg := rfl
@[simp] theorem State.openRequest_req (hi lo : U32) :
    (s.openRequest hi lo).req = { s.req with addrHi := hi, addrLo := lo, opened := true, isSet := false, len := 0 } := rfl
@[simp] theorem State.openRequest_env (hi lo : U32) : (s.openRequest hi lo).env = s.env := rfl
@[simp] theorem State.openRequest_draws (hi lo : U32) : (s.openRequest hi lo).draws = s.draws := rfl

/-! ### setPayload -/

@[simp] theorem State.setPayload_p (m : Memory) (n : U16) : (s.setPayload m n).p = s.p := rfl
@[simp] theorem State.setPayload_acc (m : Memory) (n : U16) : (s.setPayload m n).acc = s.acc := rfl
@[simp] theorem State.setPayload_lat (m : Memory) (n : U16) : (s.setPayload m n).lat = s.lat := rfl
@[simp] theorem State.setPayload_cfg (m : Memory) (n : U16) : (s.setPayload m n).cfg = s.cfg := rfl
@[simp] theorem State.setPayload_req (m : Memory) (n : U16) :
    (s.setPayload m n).req = { s.req with pay := m, len := n, isSet := true } := rfl
@[simp] theorem State.setPayload_env (m : Memory) (n : U16) : (s.setPayload m n).env = s.env := rfl
@[simp] theorem State.setPayload_draws (m : Memory) (n : U16) : (s.setPayload m n).draws = s.draws := rfl

/-! ### setCounter -/

@[simp] theorem State.setCounter_p (c : U16) : (s.setCounter c).p = { s.p with counter := c } := rfl
@[simp] theorem State.setCounter_acc (c : U16) : (s.setCounter c).acc = s.acc := rfl
@[simp] theorem State.setCounter_lat (c : U16) : (s.setCounter c).lat = s.lat := rfl
@[simp] theorem State.setCounter_cfg (c : U16) : (s.setCounter c).cfg = s.cfg := rfl
@[simp] theorem State.setCounter_req (c : U16) : (s.setCounter c).req = s.req := rfl
@[simp] theorem State.setCounter_env (c : U16) : (s.setCounter c).env = s.env := rfl
@[simp] theorem State.setCounter_draws (c : U16) : (s.setCounter c).draws = s.draws := rfl

/-! ### setDeadline -/

@[simp] theorem State.setDeadline_p (d : U33) : (s.setDeadline d).p = { s.p with deadline := d } := rfl
@[simp] theorem State.setDeadline_acc (d : U33) : (s.setDeadline d).acc = s.acc := rfl
@[simp] theorem State.setDeadline_lat (d : U33) : (s.setDeadline d).lat = s.lat := rfl
@[simp] theorem State.setDeadline_cfg (d : U33) : (s.setDeadline d).cfg = s.cfg := rfl
@[simp] theorem State.setDeadline_req (d : U33) : (s.setDeadline d).req = s.req := rfl
@[simp] theorem State.setDeadline_env (d : U33) : (s.setDeadline d).env = s.env := rfl
@[simp] theorem State.setDeadline_draws (d : U33) : (s.setDeadline d).draws = s.draws := rfl

/-! ### setAcc -/

@[simp] theorem State.setAcc_p (a : Acc) : (s.setAcc a).p = s.p := rfl
@[simp] theorem State.setAcc_acc (a : Acc) : (s.setAcc a).acc = a := rfl
@[simp] theorem State.setAcc_lat (a : Acc) : (s.setAcc a).lat = s.lat := rfl
@[simp] theorem State.setAcc_cfg (a : Acc) : (s.setAcc a).cfg = s.cfg := rfl
@[simp] theorem State.setAcc_req (a : Acc) : (s.setAcc a).req = s.req := rfl
@[simp] theorem State.setAcc_env (a : Acc) : (s.setAcc a).env = s.env := rfl
@[simp] theorem State.setAcc_draws (a : Acc) : (s.setAcc a).draws = s.draws := rfl

/-! ### createAcc -/

@[simp] theorem State.createAcc_p : s.createAcc.p = s.p := rfl
@[simp] theorem State.createAcc_acc :
    s.createAcc.acc = { unspecifiedAcc s.draws with csum := 0, sizePhase := false, alloc := false } := rfl
@[simp] theorem State.createAcc_lat : s.createAcc.lat = s.lat := rfl
@[simp] theorem State.createAcc_cfg : s.createAcc.cfg = s.cfg := rfl
@[simp] theorem State.createAcc_req : s.createAcc.req = s.req := rfl
@[simp] theorem State.createAcc_env : s.createAcc.env = s.env := rfl
@[simp] theorem State.createAcc_draws : s.createAcc.draws = s.draws + 1 := rfl

/-! ### allocate -/

@[simp] theorem State.allocate_p : s.allocate.p = s.p := rfl
@[simp] theorem State.allocate_acc :
    s.allocate.acc = { s.acc with alloc := true, pay := { cells := [], draw := s.draws } } := rfl
@[simp] theorem State.allocate_lat : s.allocate.lat = s.lat := rfl
@[simp] theorem State.allocate_cfg : s.allocate.cfg = s.cfg := rfl
@[simp] theorem State.allocate_req : s.allocate.req = s.req := rfl
@[simp] theorem State.allocate_env : s.allocate.env = s.env := rfl
@[simp] theorem State.allocate_draws : s.allocate.draws = s.draws + 1 := rfl

/-! ### discard -/

@[simp] theorem State.discard_p : s.discard.p = { counter := 0, deadline := Config.freeU33 s.draws } := rfl
@[simp] theorem State.discard_acc : s.discard.acc = unspecifiedAcc s.draws := rfl
@[simp] theorem State.discard_lat : s.discard.lat = s.lat := rfl
@[simp] theorem State.discard_cfg : s.discard.cfg = s.cfg := rfl
@[simp] theorem State.discard_req : s.discard.req = s.req := rfl
@[simp] theorem State.discard_env : s.discard.env = s.env := rfl
@[simp] theorem State.discard_draws : s.discard.draws = s.draws + 1 := rfl

/-! ### promote -/

@[simp] theorem State.promote_p : s.promote.p = { counter := 0, deadline := Config.freeU33 s.draws } := rfl
@[simp] theorem State.promote_acc : s.promote.acc = unspecifiedAcc s.draws := rfl
@[simp] theorem State.promote_lat : s.promote.lat = latestOf s.acc := rfl
@[simp] theorem State.promote_cfg : s.promote.cfg = s.cfg := rfl
@[simp] theorem State.promote_req : s.promote.req = s.req := rfl
@[simp] theorem State.promote_env : s.promote.env = s.env := rfl
@[simp] theorem State.promote_draws : s.promote.draws = s.draws + 1 := rfl

/-! ### clearLatest -/

@[simp] theorem State.clearLatest_p : s.clearLatest.p = s.p := rfl
@[simp] theorem State.clearLatest_acc : s.clearLatest.acc = s.acc := rfl
@[simp] theorem State.clearLatest_lat : s.clearLatest.lat = emptyLatest s.draws := rfl
@[simp] theorem State.clearLatest_cfg : s.clearLatest.cfg = s.cfg := rfl
@[simp] theorem State.clearLatest_req : s.clearLatest.req = s.req := rfl
@[simp] theorem State.clearLatest_env : s.clearLatest.env = s.env := rfl
@[simp] theorem State.clearLatest_draws : s.clearLatest.draws = s.draws + 1 := rfl

/-! ### setInbound -/

@[simp] theorem State.setInbound_p (bs : List Byte) : (s.setInbound bs).p = s.p := rfl
@[simp] theorem State.setInbound_acc (bs : List Byte) : (s.setInbound bs).acc = s.acc := rfl
@[simp] theorem State.setInbound_lat (bs : List Byte) : (s.setInbound bs).lat = s.lat := rfl
@[simp] theorem State.setInbound_cfg (bs : List Byte) : (s.setInbound bs).cfg = s.cfg := rfl
@[simp] theorem State.setInbound_req (bs : List Byte) : (s.setInbound bs).req = s.req := rfl
@[simp] theorem State.setInbound_env_port (bs : List Byte) : (s.setInbound bs).env.port = s.env.port := rfl
@[simp] theorem State.setInbound_env_inbound (bs : List Byte) : (s.setInbound bs).env.inbound = bs := rfl
@[simp] theorem State.setInbound_env_outbound (bs : List Byte) : (s.setInbound bs).env.outbound = s.env.outbound := rfl
@[simp] theorem State.setInbound_env_responses (bs : List Byte) :
    (s.setInbound bs).env.responses = s.env.responses := rfl
@[simp] theorem State.setInbound_env_clock (bs : List Byte) : (s.setInbound bs).env.clock = s.env.clock := rfl
@[simp] theorem State.setInbound_env_agenda (bs : List Byte) : (s.setInbound bs).env.agenda = s.env.agenda := rfl
@[simp] theorem State.setInbound_draws (bs : List Byte) : (s.setInbound bs).draws = s.draws := rfl

/-! ### streamWrite -/

@[simp] theorem State.streamWrite_p (bs : List Byte) : (s.streamWrite bs).p = s.p := rfl
@[simp] theorem State.streamWrite_acc (bs : List Byte) : (s.streamWrite bs).acc = s.acc := rfl
@[simp] theorem State.streamWrite_lat (bs : List Byte) : (s.streamWrite bs).lat = s.lat := rfl
@[simp] theorem State.streamWrite_cfg (bs : List Byte) : (s.streamWrite bs).cfg = s.cfg := rfl
@[simp] theorem State.streamWrite_req (bs : List Byte) : (s.streamWrite bs).req = s.req := rfl
@[simp] theorem State.streamWrite_env_port (bs : List Byte) : (s.streamWrite bs).env.port = s.env.port := rfl
@[simp] theorem State.streamWrite_env_inbound (bs : List Byte) : (s.streamWrite bs).env.inbound = s.env.inbound := rfl
@[simp] theorem State.streamWrite_env_outbound (bs : List Byte) :
    (s.streamWrite bs).env.outbound = s.env.outbound ++ bs := rfl
@[simp] theorem State.streamWrite_env_responses (bs : List Byte) :
    (s.streamWrite bs).env.responses = s.env.responses := rfl
@[simp] theorem State.streamWrite_env_clock (bs : List Byte) : (s.streamWrite bs).env.clock = s.env.clock := rfl
@[simp] theorem State.streamWrite_env_agenda (bs : List Byte) : (s.streamWrite bs).env.agenda = s.env.agenda := rfl
@[simp] theorem State.streamWrite_draws (bs : List Byte) : (s.streamWrite bs).draws = s.draws := rfl

/-! ### setPort -/

@[simp] theorem State.setPort_p (bs : List Byte) : (s.setPort bs).p = s.p := rfl
@[simp] theorem State.setPort_acc (bs : List Byte) : (s.setPort bs).acc = s.acc := rfl
@[simp] theorem State.setPort_lat (bs : List Byte) : (s.setPort bs).lat = s.lat := rfl
@[simp] theorem State.setPort_cfg (bs : List Byte) : (s.setPort bs).cfg = s.cfg := rfl
@[simp] theorem State.setPort_req (bs : List Byte) : (s.setPort bs).req = s.req := rfl
@[simp] theorem State.setPort_env_port (bs : List Byte) : (s.setPort bs).env.port = bs := rfl
@[simp] theorem State.setPort_env_inbound (bs : List Byte) : (s.setPort bs).env.inbound = s.env.inbound := rfl
@[simp] theorem State.setPort_env_outbound (bs : List Byte) : (s.setPort bs).env.outbound = s.env.outbound := rfl
@[simp] theorem State.setPort_env_responses (bs : List Byte) : (s.setPort bs).env.responses = s.env.responses := rfl
@[simp] theorem State.setPort_env_clock (bs : List Byte) : (s.setPort bs).env.clock = s.env.clock := rfl
@[simp] theorem State.setPort_env_agenda (bs : List Byte) : (s.setPort bs).env.agenda = s.env.agenda := rfl
@[simp] theorem State.setPort_draws (bs : List Byte) : (s.setPort bs).draws = s.draws := rfl

/-! ### setAgenda -/

@[simp] theorem State.setAgenda_p (ms : List HostMove) : (s.setAgenda ms).p = s.p := rfl
@[simp] theorem State.setAgenda_acc (ms : List HostMove) : (s.setAgenda ms).acc = s.acc := rfl
@[simp] theorem State.setAgenda_lat (ms : List HostMove) : (s.setAgenda ms).lat = s.lat := rfl
@[simp] theorem State.setAgenda_cfg (ms : List HostMove) : (s.setAgenda ms).cfg = s.cfg := rfl
@[simp] theorem State.setAgenda_req (ms : List HostMove) : (s.setAgenda ms).req = s.req := rfl
@[simp] theorem State.setAgenda_env_port (ms : List HostMove) : (s.setAgenda ms).env.port = s.env.port := rfl
@[simp] theorem State.setAgenda_env_inbound (ms : List HostMove) : (s.setAgenda ms).env.inbound = s.env.inbound := rfl
@[simp] theorem State.setAgenda_env_outbound (ms : List HostMove) :
    (s.setAgenda ms).env.outbound = s.env.outbound := rfl
@[simp] theorem State.setAgenda_env_responses (ms : List HostMove) :
    (s.setAgenda ms).env.responses = s.env.responses := rfl
@[simp] theorem State.setAgenda_env_clock (ms : List HostMove) : (s.setAgenda ms).env.clock = s.env.clock := rfl
@[simp] theorem State.setAgenda_env_agenda (ms : List HostMove) : (s.setAgenda ms).env.agenda = ms := rfl
@[simp] theorem State.setAgenda_draws (ms : List HostMove) : (s.setAgenda ms).draws = s.draws := rfl

/-! ### issueBytes -/

@[simp] theorem State.issueBytes_p (bs : List Byte) : (s.issueBytes bs).p = s.p := rfl
@[simp] theorem State.issueBytes_acc (bs : List Byte) : (s.issueBytes bs).acc = s.acc := rfl
@[simp] theorem State.issueBytes_lat (bs : List Byte) : (s.issueBytes bs).lat = s.lat := rfl
@[simp] theorem State.issueBytes_cfg (bs : List Byte) : (s.issueBytes bs).cfg = s.cfg := rfl
@[simp] theorem State.issueBytes_req (bs : List Byte) : (s.issueBytes bs).req = s.req := rfl
@[simp] theorem State.issueBytes_env_port (bs : List Byte) :
    (s.issueBytes bs).env.port = firstCommand (s.env.port ++ bs) := rfl
@[simp] theorem State.issueBytes_env_inbound (bs : List Byte) : (s.issueBytes bs).env.inbound = s.env.inbound := rfl
@[simp] theorem State.issueBytes_env_outbound (bs : List Byte) : (s.issueBytes bs).env.outbound = s.env.outbound := rfl
@[simp] theorem State.issueBytes_env_responses (bs : List Byte) : (s.issueBytes bs).env.responses = s.env.responses := rfl
@[simp] theorem State.issueBytes_env_clock (bs : List Byte) : (s.issueBytes bs).env.clock = s.env.clock := rfl
@[simp] theorem State.issueBytes_env_agenda (bs : List Byte) :
    (s.issueBytes bs).env.agenda = withheld (afterCommand (s.env.port ++ bs)) s.env.agenda := rfl
@[simp] theorem State.issueBytes_draws (bs : List Byte) : (s.issueBytes bs).draws = s.draws := rfl

/-! ### setClock -/

@[simp] theorem State.setClock_p (t : U32) : (s.setClock t).p = s.p := rfl
@[simp] theorem State.setClock_acc (t : U32) : (s.setClock t).acc = s.acc := rfl
@[simp] theorem State.setClock_lat (t : U32) : (s.setClock t).lat = s.lat := rfl
@[simp] theorem State.setClock_cfg (t : U32) : (s.setClock t).cfg = s.cfg := rfl
@[simp] theorem State.setClock_req (t : U32) : (s.setClock t).req = s.req := rfl
@[simp] theorem State.setClock_env_port (t : U32) : (s.setClock t).env.port = s.env.port := rfl
@[simp] theorem State.setClock_env_inbound (t : U32) : (s.setClock t).env.inbound = s.env.inbound := rfl
@[simp] theorem State.setClock_env_outbound (t : U32) : (s.setClock t).env.outbound = s.env.outbound := rfl
@[simp] theorem State.setClock_env_responses (t : U32) : (s.setClock t).env.responses = s.env.responses := rfl
@[simp] theorem State.setClock_env_clock (t : U32) : (s.setClock t).env.clock = t := rfl
@[simp] theorem State.setClock_env_agenda (t : U32) : (s.setClock t).env.agenda = s.env.agenda := rfl
@[simp] theorem State.setClock_draws (t : U32) : (s.setClock t).draws = s.draws := rfl

/-! ### setResponses -/

@[simp] theorem State.setResponses_p (rs : List Response) : (s.setResponses rs).p = s.p := rfl
@[simp] theorem State.setResponses_acc (rs : List Response) : (s.setResponses rs).acc = s.acc := rfl
@[simp] theorem State.setResponses_lat (rs : List Response) : (s.setResponses rs).lat = s.lat := rfl
@[simp] theorem State.setResponses_cfg (rs : List Response) : (s.setResponses rs).cfg = s.cfg := rfl
@[simp] theorem State.setResponses_req (rs : List Response) : (s.setResponses rs).req = s.req := rfl
@[simp] theorem State.setResponses_env_port (rs : List Response) : (s.setResponses rs).env.port = s.env.port := rfl
@[simp] theorem State.setResponses_env_inbound (rs : List Response) :
    (s.setResponses rs).env.inbound = s.env.inbound := rfl
@[simp] theorem State.setResponses_env_outbound (rs : List Response) :
    (s.setResponses rs).env.outbound = s.env.outbound := rfl
@[simp] theorem State.setResponses_env_responses (rs : List Response) : (s.setResponses rs).env.responses = rs := rfl
@[simp] theorem State.setResponses_env_clock (rs : List Response) : (s.setResponses rs).env.clock = s.env.clock := rfl
@[simp] theorem State.setResponses_env_agenda (rs : List Response) :
    (s.setResponses rs).env.agenda = s.env.agenda := rfl
@[simp] theorem State.setResponses_draws (rs : List Response) : (s.setResponses rs).draws = s.draws := rfl

/-! ### setOutbound -/

@[simp] theorem State.setOutbound_p (bs : List Byte) : (s.setOutbound bs).p = s.p := rfl
@[simp] theorem State.setOutbound_acc (bs : List Byte) : (s.setOutbound bs).acc = s.acc := rfl
@[simp] theorem State.setOutbound_lat (bs : List Byte) : (s.setOutbound bs).lat = s.lat := rfl
@[simp] theorem State.setOutbound_cfg (bs : List Byte) : (s.setOutbound bs).cfg = s.cfg := rfl
@[simp] theorem State.setOutbound_req (bs : List Byte) : (s.setOutbound bs).req = s.req := rfl
@[simp] theorem State.setOutbound_env_port (bs : List Byte) : (s.setOutbound bs).env.port = s.env.port := rfl
@[simp] theorem State.setOutbound_env_inbound (bs : List Byte) : (s.setOutbound bs).env.inbound = s.env.inbound := rfl
@[simp] theorem State.setOutbound_env_outbound (bs : List Byte) : (s.setOutbound bs).env.outbound = bs := rfl
@[simp] theorem State.setOutbound_env_responses (bs : List Byte) :
    (s.setOutbound bs).env.responses = s.env.responses := rfl
@[simp] theorem State.setOutbound_env_clock (bs : List Byte) : (s.setOutbound bs).env.clock = s.env.clock := rfl
@[simp] theorem State.setOutbound_env_agenda (bs : List Byte) : (s.setOutbound bs).env.agenda = s.env.agenda := rfl
@[simp] theorem State.setOutbound_draws (bs : List Byte) : (s.setOutbound bs).draws = s.draws := rfl

end Sys2Proof.Machine
end

