-- ==== Sys2Proof/Laws/Memory.lean ====
section
/-! SUPPORT. The laws of the byte memories: a read after a write, every operation keeps the canonical form, and what the
checked operations answer. -/

namespace Sys2Proof.Machine

open Sys2Proof.Safety

/-! ## Cells -/

@[simp] theorem lookupCell_insertCell_self (i : Nat) (b : Byte) (cs : List Host.Cell) :
    lookupCell i (insertCell i b cs) = some b := by
  induction cs with
  | nil => simp [insertCell, lookupCell]
  | cons c rest ih =>
    simp only [insertCell]
    split
    · simp [lookupCell]
    · split
      · simp [lookupCell]
      · rename_i h1 h2
        simp only [lookupCell]
        rw [if_neg (fun h => h2 h.symm), ih]

theorem lookupCell_insertCell_ne {i j : Nat} (h : j ≠ i) (b : Byte) (cs : List Host.Cell) :
    lookupCell j (insertCell i b cs) = lookupCell j cs := by
  induction cs with
  | nil => simp [insertCell, lookupCell, Ne.symm h]
  | cons c rest ih =>
    simp only [insertCell]
    split
    · simp [lookupCell, Ne.symm h]
    · split
      · rename_i h2
        have : c.1 ≠ j := by omega
        simp [lookupCell, Ne.symm h, this]
      · simp only [lookupCell, ih]

theorem mem_offsets_insertCell (i j : Nat) (b : Byte) (cs : List Host.Cell) :
    j ∈ (insertCell i b cs).map Prod.fst ↔ j = i ∨ j ∈ cs.map Prod.fst := by
  induction cs with
  | nil => simp [insertCell]
  | cons c rest ih =>
    simp only [insertCell]
    split
    · simp
    · split
      · rename_i h; simp [h]
      · simp only [List.map_cons, List.mem_cons, ih]; tauto

/-- Rising offsets, as a pairwise property of the offsets. -/
theorem risingCells_iff (cs : List Host.Cell) :
    risingCells cs = true ↔ (cs.map Prod.fst).Pairwise (· < ·) := by
  induction cs with
  | nil => simp [risingCells]
  | cons c rest ih =>
    simp only [risingCells, Bool.and_eq_true, List.all_eq_true, decide_eq_true_eq, List.map_cons,
      List.pairwise_cons, ih]
    constructor
    · rintro ⟨h1, h2⟩
      refine ⟨fun a ha => ?_, h2⟩
      obtain ⟨d, hd, rfl⟩ := List.mem_map.1 ha
      exact h1 d hd
    · rintro ⟨h1, h2⟩
      exact ⟨fun d hd => h1 _ (List.mem_map_of_mem hd), h2⟩

theorem rising_insertCell {cs : List Host.Cell} (h : risingCells cs = true) (i : Nat) (b : Byte) :
    risingCells (insertCell i b cs) = true := by
  induction cs with
  | nil => simp [insertCell, risingCells]
  | cons c rest ih =>
    rw [risingCells_iff] at h ih ⊢
    simp only [List.map_cons, List.pairwise_cons] at h
    simp only [insertCell]
    split
    · rename_i h1
      simp only [List.map_cons, List.pairwise_cons, List.mem_cons]
      refine ⟨?_, h.1, h.2⟩
      rintro a (rfl | ha)
      · exact h1
      · have := h.1 a ha; omega
    · split
      · rename_i h2
        simp only [List.map_cons, List.pairwise_cons, h2]
        exact h
      · simp only [List.map_cons, List.pairwise_cons]
        refine ⟨fun a ha => ?_, (risingCells_iff _).1 (ih h.2)⟩
        rcases (mem_offsets_insertCell i a b rest).1 ha with rfl | ha
        · omega
        · exact h.1 a ha

/-- A store above every listed offset goes to the end. -/
theorem insertCell_above {i : Nat} {cs : List Host.Cell} (h : ∀ j ∈ cs.map Prod.fst, j < i) (b : Byte) :
    insertCell i b cs = cs ++ [(i, b)] := by
  induction cs with
  | nil => rfl
  | cons c rest ih =>
    have h1 : c.1 < i := h c.1 (by simp)
    have h2 : ∀ j ∈ rest.map Prod.fst, j < i := fun j hj => h j (by simp [hj])
    simp [insertCell, ih h2, Nat.not_lt.2 h1.le, (Nat.ne_of_lt h1).symm]

theorem lookupCell_isSome {i : Nat} {cs : List Host.Cell} (h : i ∈ cs.map Prod.fst) :
    ∃ b, lookupCell i cs = some b := by
  induction cs with
  | nil => simp at h
  | cons c rest ih =>
    simp only [lookupCell]
    split
    · exact ⟨_, rfl⟩
    · rename_i hne
      simp only [List.map_cons, List.mem_cons] at h
      exact ih (h.resolve_left (fun h => hne h.symm))

theorem lookupCell_filter {i len : Nat} (h : i < len) (cs : List Host.Cell) :
    lookupCell i (cs.filter fun c => decide (c.1 < len)) = lookupCell i cs := by
  induction cs with
  | nil => rfl
  | cons c rest ih =>
    by_cases hc : c.1 < len
    · simp [hc, lookupCell, ih]
    · have : c.1 ≠ i := by omega
      simp [hc, lookupCell, ih, this]

/-! ## Reads and writes -/

@[simp] theorem Memory.byteAt_write_self (m : Memory) (i : Nat) (b : Byte) : (m.write i b).byteAt i = b := by
  simp [Memory.byteAt, Memory.write]

theorem Memory.byteAt_write_ne (m : Memory) {i j : Nat} (h : j ≠ i) (b : Byte) :
    (m.write i b).byteAt j = m.byteAt j := by
  simp [Memory.byteAt, Memory.write, lookupCell_insertCell_ne h, Memory.unwritten]

@[simp] theorem Memory.write_draw (m : Memory) (i : Nat) (b : Byte) : (m.write i b).draw = m.draw := rfl

@[simp] theorem Memory.writeBytes_draw (m : Memory) (bs : List Byte) (i : Nat) : (m.writeBytes i bs).draw = m.draw := by
  induction bs generalizing i with
  | nil => rfl
  | cons b bs ih => simp [Memory.writeBytes, ih]

theorem Memory.lookup_writeBytes_mem (m : Memory) (bs : List Byte) (start k : Nat) (b : Byte) (h : bs[k]? = some b) :
    lookupCell (start + k) (m.writeBytes start bs).cells = some b := by
  induction bs generalizing start k with
  | nil => simp at h
  | cons c bs ih =>
    cases k with
    | zero =>
      simp only [List.getElem?_cons_zero, Option.some.injEq] at h
      simp [Memory.writeBytes, Memory.write, h]
    | succ k =>
      simp only [List.getElem?_cons_succ] at h
      have := ih (start + 1) k h
      simp only [Memory.writeBytes, Memory.write]
      rw [lookupCell_insertCell_ne (by omega), ← this]
      congr 1; omega

theorem Memory.lookup_writeBytes_out (m : Memory) (bs : List Byte) (start j : Nat)
    (h : j < start ∨ start + bs.length ≤ j) :
    lookupCell j (m.writeBytes start bs).cells = lookupCell j m.cells := by
  induction bs generalizing start with
  | nil => rfl
  | cons c bs ih =>
    simp only [List.length_cons] at h
    simp only [Memory.writeBytes, Memory.write]
    rw [lookupCell_insertCell_ne (by omega), ih (start + 1) (by omega)]

/-- The bytes written read back. -/
theorem Memory.byteAt_writeBytes (m : Memory) (bs : List Byte) (start k : Nat) (b : Byte) (h : bs[k]? = some b) :
    (m.writeBytes start bs).byteAt (start + k) = b := by
  simp [Memory.byteAt, Memory.lookup_writeBytes_mem m bs start k b h]

/-- A byte outside those written reads as before. -/
theorem Memory.byteAt_writeBytes_out (m : Memory) (bs : List Byte) (start j : Nat)
    (h : j < start ∨ start + bs.length ≤ j) : (m.writeBytes start bs).byteAt j = m.byteAt j := by
  simp [Memory.byteAt, Memory.lookup_writeBytes_out m bs start j h, Memory.unwritten]

@[simp] theorem Memory.length_bytes (m : Memory) (start count : Nat) : (m.bytes start count).length = count := by
  simp [Memory.bytes]

theorem Memory.getElem?_bytes (m : Memory) (start count i : Nat) (h : i < count) :
    (m.bytes start count)[i]? = some (m.byteAt (start + i)) := by
  simp [Memory.bytes, h]

/-- A written sequence reads back whole. -/
theorem Memory.bytes_writeBytes (m : Memory) (bs : List Byte) (start : Nat) :
    (m.writeBytes start bs).bytes start bs.length = bs := by
  apply List.ext_getElem?
  intro i
  by_cases h : i < bs.length
  · rw [Memory.getElem?_bytes _ _ _ _ h, List.getElem?_eq_getElem h,
      Memory.byteAt_writeBytes m bs start i bs[i] (List.getElem?_eq_getElem h)]
  · rw [List.getElem?_eq_none (by simpa using h), List.getElem?_eq_none (by simpa using h)]

theorem Memory.byteAt_firstBytes (m : Memory) {i len : Nat} (h : i < len) :
    (m.firstBytes len).byteAt i = m.byteAt i := by
  simp [Memory.byteAt, Memory.firstBytes, lookupCell_filter h, Memory.unwritten]

/-! ## The canonical form -/

theorem Memory.wf_empty (draw : Nat) : Memory.wf { cells := [], draw := draw } = true := rfl

theorem Memory.wf_write {m : Memory} (h : m.wf = true) (i : Nat) (b : Byte) : (m.write i b).wf = true :=
  rising_insertCell h i b

theorem Memory.wf_writeBytes {m : Memory} (h : m.wf = true) (bs : List Byte) (start : Nat) :
    (m.writeBytes start bs).wf = true := by
  induction bs generalizing start with
  | nil => exact h
  | cons b bs ih => exact Memory.wf_write (ih (start + 1)) start b

theorem Memory.wf_firstBytes {m : Memory} (h : m.wf = true) (len : Nat) : (m.firstBytes len).wf = true := by
  simp only [Memory.wf, Memory.firstBytes, risingCells_iff] at h ⊢
  exact h.sublist (List.Sublist.map _ List.filter_sublist)

theorem Memory.wf_writeChecked {m n : Memory} {len i : Nat} {b : Byte} (h : m.wf = true)
    (hn : m.writeChecked len i b = .next n) : n.wf = true := by
  unfold Memory.writeChecked at hn
  split at hn
  · cases hn; exact Memory.wf_write h i b
  · cases hn

theorem Memory.wf_fillChecked {m n : Memory} {cap : Nat} {bs : List Byte} (h : m.wf = true)
    (hn : m.fillChecked cap bs = .next n) : n.wf = true := by
  unfold Memory.fillChecked at hn
  split at hn
  · cases hn; exact Memory.wf_writeBytes h bs 0
  · cases hn

/-- The memories of the state after reset are in canonical form. -/
theorem State.reset_memories_wf :
    State.reset.acc.pay.wf = true ∧ State.reset.lat.pay.wf = true ∧ State.reset.req.pay.wf = true :=
  ⟨rfl, rfl, rfl⟩

/-! ## Checked operations -/

theorem Memory.readRange_ok (m : Memory) {len start count : Nat} (h : start + count ≤ len) :
    m.readRange len start count = .next (m.bytes start count) := by
  simp [Memory.readRange, h]

theorem Memory.writeChecked_ok (m : Memory) {len i : Nat} (b : Byte) (h : i < len) :
    m.writeChecked len i b = .next (m.write i b) := by
  simp [Memory.writeChecked, h]

theorem Memory.fillChecked_ok (m : Memory) {cap : Nat} {bs : List Byte} (h : bs.length ≤ cap) :
    m.fillChecked cap bs = .next (m.writeBytes 0 bs) := by
  simp [Memory.fillChecked, h]

/-! ## Offsets and stored bytes -/

theorem Memory.mem_offsets_writeBytes (m : Memory) (bs : List Byte) (start j : Nat) :
    j ∈ offsets (m.writeBytes start bs) ↔ (start ≤ j ∧ j < start + bs.length) ∨ j ∈ offsets m := by
  induction bs generalizing start with
  | nil => simp only [Memory.writeBytes, List.length_nil]; constructor <;> [exact .inr; (rintro (h | h); omega; exact h)]
  | cons b bs ih =>
    simp only [Memory.writeBytes, Memory.write, offsets, mem_offsets_insertCell, List.length_cons]
    rw [show (j ∈ List.map Prod.fst (m.writeBytes (start + 1) bs).cells) = (j ∈ offsets (m.writeBytes (start + 1) bs)) from rfl, ih]
    simp only [offsets]
    constructor
    · rintro (h | h | h)
      · left; omega
      · left; omega
      · exact .inr h
    · rintro (h | h)
      · by_cases hj : j = start
        · exact .inl hj
        · right; left; omega
      · exact .inr (.inr h)

theorem Memory.offsets_write_above {m : Memory} {n : Nat} (h : offsets m = List.range n) (b : Byte) :
    offsets (m.write n b) = List.range (n + 1) := by
  have hlt : ∀ j ∈ m.cells.map Prod.fst, j < n := by
    intro j hj
    have : j ∈ offsets m := hj
    rw [h] at this; exact List.mem_range.1 this
  simp only [offsets, Memory.write, insertCell_above hlt, List.map_append] at h ⊢
  rw [h, List.range_succ]; rfl

theorem Memory.stored_write_above {m : Memory} {n : Nat} (h : offsets m = List.range n) (b : Byte) :
    stored (m.write n b) = stored m ++ [b] := by
  have hlt : ∀ j ∈ m.cells.map Prod.fst, j < n := by
    intro j hj
    have : j ∈ offsets m := hj
    rw [h] at this; exact List.mem_range.1 this
  simp [stored, Memory.write, insertCell_above hlt]

theorem Memory.firstBytes_all {m : Memory} {n : Nat} (h : offsets m = List.range n) : m.firstBytes n = m := by
  have : m.cells.filter (fun c => decide (c.1 < n)) = m.cells := by
    rw [List.filter_eq_self]
    intro c hc
    have : c.1 ∈ offsets m := List.mem_map_of_mem hc
    rw [h] at this
    simpa using this
  simp [Memory.firstBytes, this]

theorem lookupCell_range' (f : Nat → Byte) (cs : List Host.Cell) (k n : Nat) (h : cs.map Prod.fst = List.range' k n) :
    (List.range' k n).map (fun i => (lookupCell i cs).getD (f i)) = cs.map Prod.snd := by
  induction cs generalizing k n with
  | nil => rw [← h]; rfl
  | cons c rest ih =>
    cases n with
    | zero => simp at h
    | succ n =>
      simp only [List.map_cons, List.range'_succ, List.cons.injEq] at h ⊢
      refine ⟨by simp [lookupCell, h.1], ?_⟩
      rw [← ih (k + 1) n h.2]
      apply List.map_congr_left
      intro i hi
      have : c.1 ≠ i := by
        have := List.left_le_of_mem_range' hi
        omega
      simp [lookupCell, this]

/-- A memory whose listed offsets are 0 to n − 1 reads as the bytes it lists. -/
theorem Memory.bytes_of_offsets {m : Memory} {n : Nat} (h : offsets m = List.range n) : m.bytes 0 n = stored m := by
  have := lookupCell_range' m.unwritten m.cells 0 n (by rw [← List.range_eq_range']; exact h)
  rw [← List.range_eq_range'] at this
  simpa [Memory.bytes, Memory.byteAt, stored] using this

end Sys2Proof.Machine
end

