-- ==== Sys2Proof/Laws/Operands.lean ====
section
/-! SUPPORT. Multi-byte values as numbers and as bytes: the laws of Machine/Operands.lean and of the byte sum. -/

namespace Sys2Proof

theorem toNat_append_eq {n m : Nat} (x : BitVec n) (y : BitVec m) :
    (x ++ y).toNat = x.toNat * 2 ^ m + y.toNat := by
  rw [BitVec.toNat_append, ← Nat.shiftLeft_add_eq_or_of_lt y.isLt, Nat.shiftLeft_eq]

theorem toNat_u16Of (a b : Byte) : (u16Of a b).toNat = a.toNat * 256 + b.toNat := by
  simp only [u16Of, toNat_append_eq]; norm_num

theorem toNat_u32Of (a b c d : Byte) :
    (u32Of a b c d).toNat = ((a.toNat * 256 + b.toNat) * 256 + c.toNat) * 256 + d.toNat := by
  simp only [u32Of, toNat_append_eq]; norm_num

theorem u32Of_be32 (w : U32) :
    u32Of (w.extractLsb' 24 8) (w.extractLsb' 16 8) (w.extractLsb' 8 8) (w.extractLsb' 0 8) = w := by
  apply BitVec.eq_of_toNat_eq
  rw [toNat_u32Of]
  simp only [BitVec.extractLsb'_toNat, Nat.shiftRight_eq_div_pow]
  have := w.isLt
  omega

theorem u16Of_be16 (w : U16) : u16Of (w.extractLsb' 8 8) (w.extractLsb' 0 8) = w := by
  apply BitVec.eq_of_toNat_eq
  rw [toNat_u16Of]
  simp only [BitVec.extractLsb'_toNat, Nat.shiftRight_eq_div_pow]
  have := w.isLt
  omega

theorem be32_u32Of (a b c d : Byte) : be32 (u32Of a b c d) = [a, b, c, d] := by
  have ha := a.isLt
  have hb := b.isLt
  have hc := c.isLt
  have hd := d.isLt
  simp only [be32, List.cons.injEq, and_true]
  refine ⟨?_, ?_, ?_, ?_⟩ <;> apply BitVec.eq_of_toNat_eq <;>
    simp only [BitVec.extractLsb'_toNat, Nat.shiftRight_eq_div_pow, toNat_u32Of] <;> omega

theorem be16_u16Of (a b : Byte) : be16 (u16Of a b) = [a, b] := by
  have ha := a.isLt
  have hb := b.isLt
  simp only [be16, List.cons.injEq, and_true]
  refine ⟨?_, ?_⟩ <;> apply BitVec.eq_of_toNat_eq <;>
    simp only [BitVec.extractLsb'_toNat, Nat.shiftRight_eq_div_pow, toNat_u16Of] <;> omega

theorem toNat_zext33 (v : U32) : (zext33 v).toNat = v.toNat := by
  have := v.isLt
  simp only [zext33, BitVec.toNat_setWidth]; omega

theorem toNat_deadline (now w : U32) : (zext33 now + zext33 w).toNat = now.toNat + w.toNat := by
  have := now.isLt
  have := w.isLt
  rw [BitVec.toNat_add, toNat_zext33, toNat_zext33]
  omega

theorem sum8_append (a b : List Byte) : sum8 (a ++ b) = sum8 a + sum8 b := by
  induction a with
  | nil => simp [sum8]
  | cons x a ih => simp [sum8, ih, BitVec.add_assoc]

end Sys2Proof
end

