-- ==== Sys2Proof/Laws/Ops.lean ====
section
/-! SUPPORT. What each shared operation of the commands answers, said once: the sequencing of outcomes, the request's payload,
the frame of the current request, the slot's accessors and the micro-operations. -/

namespace Sys2Proof.Machine

open Sys2Proof.Safety

/-! ## Sequencing -/

section
variable {σ τ : Type}

@[simp] theorem andThen_next (s : σ) (f : σ → Host.Outcome τ Fault Refusal) : andThen (.next s) f = f s := rfl

@[simp] theorem andThen_fault (r : Fault) (f : σ → Host.Outcome τ Fault Refusal) :
    andThen (.fault r) f = .fault r := rfl

@[simp] theorem andThen_refused (r : Refusal) (f : σ → Host.Outcome τ Fault Refusal) :
    andThen (.refused r) f = .refused r := rfl

/-- A sequence answers next exactly when its parts do. -/
theorem andThen_eq_next {o : Host.Outcome σ Fault Refusal} {f : σ → Host.Outcome τ Fault Refusal} {t : τ} :
    andThen o f = .next t ↔ ∃ s, o = .next s ∧ f s = .next t := by
  cases o <;> simp

end

/-! ## Responses -/

theorem respond_eq_answered (s : State) (c : RespCode) (d : List Byte) :
    s.respond c d = answered s { code := c, data := d } := rfl

theorem raise_eq_answered (s : State) (c : RespCode) : s.raise c = answered s { code := c, data := [] } := rfl

/-! ## Request -/

/-- REQCPY and REQTAKE answer one of three things: an error without a request, an error on a set payload, or the payload
stored. -/
theorem attachPayload_cases {data : List Byte} {s t : State} (h : attachPayload data s = .next t) :
    (s.req.opened = false ∧ t = s.raise .errNoRequest) ∨
    (s.req.opened = true ∧ s.req.isSet = true ∧ t = s.raise .errImmutable) ∨
    (s.req.opened = true ∧ s.req.isSet = false ∧ data.length ≤ Config.reqCap ∧
      t = (s.setPayload (s.req.pay.writeBytes 0 data) (BitVec.ofNat 16 data.length)).respond .ok []) := by
  unfold attachPayload at h
  split at h
  · cases h; exact .inl ⟨‹_›, rfl⟩
  · rename_i ho
    have ho' : s.req.opened = true := by simpa using ho
    split at h
    · cases h; exact .inr (.inl ⟨ho', ‹_›, rfl⟩)
    · rename_i hs
      obtain ⟨m, hm, ht⟩ := andThen_eq_next.1 h
      unfold Memory.fillChecked at hm
      split at hm
      · cases hm; cases ht
        exact .inr (.inr ⟨ho', by simpa using hs, ‹_›, rfl⟩)
      · cases hm

theorem attachPayload_ok {data : List Byte} {s : State} (ho : s.req.opened = true) (hs : s.req.isSet = false)
    (hl : data.length ≤ Config.reqCap) :
    attachPayload data s =
      .next ((s.setPayload (s.req.pay.writeBytes 0 data) (BitVec.ofNat 16 data.length)).respond .ok []) := by
  simp [attachPayload, ho, hs, Memory.fillChecked_ok _ hl]

/-! ## The frame of the current request -/

/-- ENCODE and SEND raise ERR_NO_PAYLOAD or ERR_LEN_OVERFLOW, in that order, or go on with the frame: they never fault
before that. -/
theorem withFrame_eq (s : State) (k : List Byte → Host.Outcome State Fault Refusal) :
    withFrame s k =
      if s.req.opened = false ∨ s.req.isSet = false then .next (s.raise .errNoPayload)
      else if Config.txOverhead + s.req.len.toNat > Config.lenMax then .next (s.raise .errLenOverflow)
      else k (encodeFrame s.req.addrHi s.req.addrLo (s.req.pay.bytes 0 s.req.len.toNat)) := by
  simp [withFrame, Memory.readRange_ok]

theorem length_frameBody (hi lo : U32) (p : List Byte) : (frameBody hi lo p).length = 14 + p.length := by
  simp [frameBody, be32, be16]; omega

theorem length_encodeFrame (hi lo : U32) (p : List Byte) : (encodeFrame hi lo p).length = 18 + p.length := by
  simp [encodeFrame, length_frameBody, be16]; omega

/-! ## Latest slot -/

@[simp] theorem onFullSlot_empty {s : State} (h : s.lat.valid = false) (k : Host.Outcome State Fault Refusal) :
    onFullSlot s k = .next (s.raise .errEmpty) := by
  simp [onFullSlot, h]

@[simp] theorem onFullSlot_full {s : State} (h : s.lat.valid = true) (k : Host.Outcome State Fault Refusal) :
    onFullSlot s k = k := by
  simp [onFullSlot, h]

theorem withLatestBytes_ok (s : State) {start count : Nat} (h : start + count ≤ s.lat.size.toNat)
    (k : List Byte → State) : withLatestBytes s start count k = .next (k (s.lat.pay.bytes start count)) := by
  simp [withLatestBytes, Memory.readRange_ok _ h]

/-- LSADDR on a full slot never faults. -/
theorem execLsaddr_full {s : State} (h : s.lat.valid = true) :
    execLsaddr s =
      if s.lat.size.toNat < Config.rxAddrBytes + 1 then .next (s.raise .errShort)
      else .next (s.respond .ok (senderAddress (s.lat.pay.bytes 0 Config.rxAddrBytes))) := by
  unfold execLsaddr
  rw [onFullSlot_full h]
  split
  · rfl
  · rw [withLatestBytes_ok]; simp [Config.rxAddrBytes] at *; omega

/-- LAPPDAT on a full slot never faults. -/
theorem execLappdat_full {s : State} (h : s.lat.valid = true) :
    execLappdat s =
      if s.lat.size.toNat ≤ Config.rxPrefix + 1 then .next (s.respond .ok (be16 0))
      else .next (s.respond .ok (be16 (BitVec.ofNat 16 (s.lat.size.toNat - (Config.rxPrefix + 1))) ++
        s.lat.pay.bytes Config.rxPrefix (s.lat.size.toNat - (Config.rxPrefix + 1)))) := by
  unfold execLappdat
  rw [onFullSlot_full h]
  split
  · rfl
  · rw [withLatestBytes_ok]; simp [Config.rxPrefix] at *; omega

/-- LPAYLD on a full slot never faults. -/
theorem execLpayld_full {s : State} (h : s.lat.valid = true) :
    execLpayld s = .next (s.respond .ok (be16 s.lat.size ++ s.lat.pay.bytes 0 s.lat.size.toNat)) := by
  unfold execLpayld
  rw [onFullSlot_full h, withLatestBytes_ok]; omega

/-! ## Micro-operations -/

@[simp] theorem microOp_port {α : Type} (s : State) (f : α → Host.Outcome State Fault Refusal) :
    microOp .port s f = .next (s.raise .errInternal) := rfl

@[simp] theorem microOp_parser {α : Type} (x : α) (s : State) (f : α → Host.Outcome State Fault Refusal) :
    microOp (.parser x) s f = f x := rfl

theorem execWriteAt_ok {s : State} {k : U16} (b : Byte) (ha : s.acc.alloc = true) (hk : k.toNat < s.acc.size.toNat) :
    execWriteAt (.parser (k, b)) s = .next (s.setAcc { s.acc with pay := s.acc.pay.write k.toNat b }) := by
  simp [execWriteAt, ha, Memory.writeChecked_ok _ _ hk]

theorem toNat_size (a : Acc) : a.size.toNat = a.sizeHigh.toNat * 256 + a.sizeLow.toNat := toNat_u16Of _ _

theorem beginSize_high {a : Acc} (h : a.sizePhase = false) (b : Byte) :
    a.beginSize b = { a with sizeHigh := b, sizePhase := true } := by
  simp [Acc.beginSize, h]

theorem beginSize_low {a : Acc} (h : a.sizePhase = true) (b : Byte) :
    a.beginSize b = { a with sizeLow := b, sizePhase := false } := by
  simp [Acc.beginSize, h]

theorem toNat_beginSize_high {a : Acc} (h : a.sizePhase = false) (b : Byte) :
    (a.beginSize b).size.toNat = b.toNat * 256 + a.size.toNat % 256 := by
  have := a.sizeLow.isLt
  rw [beginSize_high h, toNat_size, toNat_size]
  show b.toNat * 256 + a.sizeLow.toNat = _
  omega

theorem toNat_beginSize_low {a : Acc} (h : a.sizePhase = true) (b : Byte) :
    (a.beginSize b).size.toNat = a.size.toNat / 256 * 256 + b.toNat := by
  have := a.sizeLow.isLt
  rw [beginSize_low h, toNat_size, toNat_size]
  show a.sizeHigh.toNat * 256 + b.toNat = _
  omega

end Sys2Proof.Machine
end

