-- ==== Sys2Proof/Laws/FrameParser.lean ====
section
/-! SUPPORT. The byte step and the drain, said once: the byte step's equation in each state of the parser, what it never
touches, and the drain's inversion. -/

namespace Sys2Proof.Machine

open Sys2Proof.Safety

/-! ## The byte step, state by state -/

theorem byteStep_idle_start {s : State} (h : s.p.counter = 0) (now : U32) :
    byteStep Config.start now s =
      .next (((s.createAcc).setDeadline (zext33 now + zext33 s.cfg.timeout)).setCounter 1, .none) := by
  simp [byteStep, h, stepIdle]

theorem byteStep_idle_other {s : State} (h : s.p.counter = 0) {b : Byte} (hb : b ≠ Config.start) (now : U32) :
    byteStep b now s = .next (s, .none) := by
  simp [byteStep, h, stepIdle, hb]

theorem byteStep_lenHi {s : State} (h : s.p.counter = 1) (b : Byte) (now : U32) :
    byteStep b now s = .next ((s.setAcc (s.acc.beginSize b)).setCounter 2, .none) := by
  simp [byteStep, h, stepLenHi, execBeginSize]

theorem byteStep_lenLo {s : State} (h : s.p.counter = 2) (b : Byte) (now : U32) :
    byteStep b now s =
      if (s.acc.beginSize b).size.toNat > Config.maxPayload then
        .next ((s.setAcc (s.acc.beginSize b)).discard, .tooLarge)
      else if (s.acc.beginSize b).size = 0 then .next ((s.setAcc (s.acc.beginSize b)).discard, .dropped)
      else .next ((s.setAcc (s.acc.beginSize b)).allocate.setCounter 3, .none) := by
  simp [byteStep, h, stepLenLo, execBeginSize]
  rfl

theorem byteStep_api {s : State} (h : s.p.counter = 3) (b : Byte) (now : U32) :
    byteStep b now s =
      .next ((s.setAcc { s.acc with apiId := b, csum := s.acc.csum + b }).setCounter 4, .none) := by
  simp [byteStep, h, stepApi, execSetApiId, execAccCsum]
  rfl

/-- The accumulator after `ACC_CSUM(b)` and `WRITE_AT(c − 4, b)`. -/
def accAfterBody (s : State) (b : Byte) : Acc :=
  { s.acc with csum := s.acc.csum + b, pay := s.acc.pay.write (s.p.counter - 4).toNat b }

@[simp] theorem accAfterBody_size (s : State) (b : Byte) : (accAfterBody s b).size = s.acc.size := rfl

theorem storeBody_ok {s : State} (b : Byte) (ha : s.acc.alloc = true)
    (hk : (s.p.counter - 4).toNat < s.acc.size.toNat) :
    storeBody b s = .next (s.setAcc (accAfterBody s b)) := by
  simp only [storeBody, execAccCsum, microOp_parser, andThen_next]
  exact execWriteAt_ok (s := s.setAcc { s.acc with csum := s.acc.csum + b }) b ha hk

theorem counter_sub_four {c : U16} (h : 4 ≤ c.toNat) : (c - 4).toNat = c.toNat - 4 := by
  have := c.isLt
  rw [BitVec.toNat_sub_of_le (by simpa [BitVec.le_def] using h)]; rfl

theorem counter_ne_of_four_le {c : U16} (h : 4 ≤ c.toNat) : c ≠ 0 ∧ c ≠ 1 ∧ c ≠ 2 ∧ c ≠ 3 := by
  refine ⟨?_, ?_, ?_, ?_⟩ <;> rintro rfl <;> simp at h

theorem byteStep_body {s : State} (h4 : 4 ≤ s.p.counter.toNat) (hlt : s.p.counter.toNat < s.acc.size.toNat + 3)
    (ha : s.acc.alloc = true) (b : Byte) (now : U32) :
    byteStep b now s = .next ((s.setAcc (accAfterBody s b)).setCounter (s.p.counter + 1), .none) := by
  obtain ⟨h0, h1, h2, h3⟩ := counter_ne_of_four_le h4
  have hk : (s.p.counter - 4).toNat < s.acc.size.toNat := by rw [counter_sub_four h4]; omega
  simp only [byteStep, if_neg h0, if_neg h1, if_neg h2, if_neg h3, if_pos hlt, stepBody, storeBody_ok b ha hk, andThen_next]
  rfl

theorem byteStep_complete {s : State} (h4 : 4 ≤ s.p.counter.toNat) (heq : s.p.counter.toNat = s.acc.size.toNat + 3)
    (ha : s.acc.alloc = true) (b : Byte) (now : U32) :
    byteStep b now s =
      if isCompleteChecksum (s.acc.csum + b) then .next ((s.setAcc (accAfterBody s b)).promote, .valid)
      else .next ((s.setAcc (accAfterBody s b)).discard, .dropped) := by
  obtain ⟨h0, h1, h2, h3⟩ := counter_ne_of_four_le h4
  have hk : (s.p.counter - 4).toNat < s.acc.size.toNat := by rw [counter_sub_four h4]; omega
  have hn : ¬ s.p.counter.toNat < s.acc.size.toNat + 3 := by omega
  simp only [byteStep, if_neg h0, if_neg h1, if_neg h2, if_neg h3, if_neg hn, if_pos heq, stepComplete,
    storeBody_ok b ha hk, andThen_next, execIsComplete, microOp_parser, State.setAcc_acc]
  rfl

/-- Everything a byte step that answers next can have done (42_parser.md R160 to R169). -/
theorem byteStep_cases {b : Byte} {now : U32} {s t : State} {e : StepEvent} (h : byteStep b now s = .next (t, e)) :
    (s.p.counter = 0 ∧ b = Config.start ∧ e = .none ∧
      t = ((s.createAcc).setDeadline (zext33 now + zext33 s.cfg.timeout)).setCounter 1) ∨
    (s.p.counter = 0 ∧ b ≠ Config.start ∧ e = .none ∧ t = s) ∨
    (s.p.counter = 1 ∧ e = .none ∧ t = (s.setAcc (s.acc.beginSize b)).setCounter 2) ∨
    (s.p.counter = 2 ∧ (s.acc.beginSize b).size.toNat > Config.maxPayload ∧ e = .tooLarge ∧
      t = (s.setAcc (s.acc.beginSize b)).discard) ∨
    (s.p.counter = 2 ∧ (s.acc.beginSize b).size = 0 ∧ e = .dropped ∧ t = (s.setAcc (s.acc.beginSize b)).discard) ∨
    (s.p.counter = 2 ∧ (s.acc.beginSize b).size.toNat ≤ Config.maxPayload ∧ (s.acc.beginSize b).size ≠ 0 ∧ e = .none ∧
      t = (s.setAcc (s.acc.beginSize b)).allocate.setCounter 3) ∨
    (s.p.counter = 3 ∧ e = .none ∧
      t = (s.setAcc { s.acc with apiId := b, csum := s.acc.csum + b }).setCounter 4) ∨
    (4 ≤ s.p.counter.toNat ∧ s.p.counter.toNat < s.acc.size.toNat + 3 ∧ s.acc.alloc = true ∧ e = .none ∧
      t = (s.setAcc (accAfterBody s b)).setCounter (s.p.counter + 1)) ∨
    (4 ≤ s.p.counter.toNat ∧ s.p.counter.toNat = s.acc.size.toNat + 3 ∧ s.acc.alloc = true ∧
      s.acc.csum + b = 0xFF ∧ e = .valid ∧ t = (s.setAcc (accAfterBody s b)).promote) ∨
    (4 ≤ s.p.counter.toNat ∧ s.p.counter.toNat = s.acc.size.toNat + 3 ∧ s.acc.alloc = true ∧
      s.acc.csum + b ≠ 0xFF ∧ e = .dropped ∧ t = (s.setAcc (accAfterBody s b)).discard) := by
  by_cases h0 : s.p.counter = 0
  · by_cases hb : b = Config.start
    · subst hb
      rw [byteStep_idle_start h0] at h; cases h
      exact .inl ⟨h0, rfl, rfl, rfl⟩
    · rw [byteStep_idle_other h0 hb] at h; cases h
      exact .inr (.inl ⟨h0, hb, rfl, rfl⟩)
  by_cases h1 : s.p.counter = 1
  · rw [byteStep_lenHi h1] at h; cases h
    exact .inr (.inr (.inl ⟨h1, rfl, rfl⟩))
  by_cases h2 : s.p.counter = 2
  · rw [byteStep_lenLo h2] at h
    split at h
    · cases h; exact .inr (.inr (.inr (.inl ⟨h2, ‹_›, rfl, rfl⟩)))
    · split at h
      · cases h; exact .inr (.inr (.inr (.inr (.inl ⟨h2, ‹_›, rfl, rfl⟩))))
      · cases h
        exact .inr (.inr (.inr (.inr (.inr (.inl ⟨h2, Nat.not_lt.1 ‹_›, ‹_›, rfl, rfl⟩)))))
  by_cases h3 : s.p.counter = 3
  · rw [byteStep_api h3] at h; cases h
    exact .inr (.inr (.inr (.inr (.inr (.inr (.inl ⟨h3, rfl, rfl⟩))))))
  have h4 : 4 ≤ s.p.counter.toNat := by
    simp only [← BitVec.toNat_inj] at h0 h1 h2 h3
    simp at h0 h1 h2 h3; omega
  have ha : s.acc.alloc = true := by
    by_contra ha
    have ha' : s.acc.alloc = false := by simpa using ha
    have hs : storeBody b s = .fault .payloadUnallocated := by
      simp [storeBody, execAccCsum, execWriteAt, ha']
    simp only [byteStep, h0, h1, h2, h3, if_false, stepBody, stepComplete, hs, andThen_fault] at h
    split at h
    · cases h
    · split at h <;> cases h
  by_cases hlt : s.p.counter.toNat < s.acc.size.toNat + 3
  · rw [byteStep_body h4 hlt ha] at h; cases h
    exact .inr (.inr (.inr (.inr (.inr (.inr (.inr (.inl ⟨h4, hlt, ha, rfl, rfl⟩)))))))
  by_cases heq : s.p.counter.toNat = s.acc.size.toNat + 3
  · rw [byteStep_complete h4 heq ha] at h
    split at h
    · rename_i hc
      cases h
      exact .inr (.inr (.inr (.inr (.inr (.inr (.inr (.inr (.inl
        ⟨h4, heq, ha, by simpa [isCompleteChecksum] using hc, rfl, rfl⟩))))))))
    · rename_i hc
      cases h
      exact .inr (.inr (.inr (.inr (.inr (.inr (.inr (.inr (.inr
        ⟨h4, heq, ha, by simpa [isCompleteChecksum] using hc, rfl, rfl⟩))))))))
  · simp only [byteStep, if_neg h0, if_neg h1, if_neg h2, if_neg h3, if_neg hlt, if_neg heq] at h
    cases h

/-- A byte step never touches `CFG`, `REQ` or the environment, and only `valid` touches the latest slot. -/
theorem byteStep_frame {b : Byte} {now : U32} {s t : State} {e : StepEvent} (h : byteStep b now s = .next (t, e)) :
    t.cfg = s.cfg ∧ t.req = s.req ∧ t.env = s.env ∧ (e ≠ .valid → t.lat = s.lat) := by
  rcases byteStep_cases h with ⟨-, -, rfl, rfl⟩ | ⟨-, -, rfl, rfl⟩ | ⟨-, rfl, rfl⟩ | ⟨-, -, rfl, rfl⟩ | ⟨-, -, rfl, rfl⟩ |
    ⟨-, -, -, rfl, rfl⟩ | ⟨-, rfl, rfl⟩ | ⟨-, -, -, rfl, rfl⟩ | ⟨-, -, -, -, rfl, rfl⟩ | ⟨-, -, -, -, rfl, rfl⟩ <;>
    simp

/-- A byte step does not read the stream (42_parser.md R161): with other bytes there it does the same. -/
theorem byteStep_setInbound {b : Byte} {now : U32} {s t : State} {e : StepEvent} (h : byteStep b now s = .next (t, e))
    (bs : List Byte) : byteStep b now (s.setInbound bs) = .next (t.setInbound bs, e) := by
  rcases byteStep_cases h with ⟨h0, rfl, rfl, rfl⟩ | ⟨h0, hb, rfl, rfl⟩ | ⟨h1, rfl, rfl⟩ | ⟨h2, hx, rfl, rfl⟩ |
    ⟨h2, hx, rfl, rfl⟩ | ⟨h2, hx, hy, rfl, rfl⟩ | ⟨h3, rfl, rfl⟩ | ⟨h4, hlt, ha, rfl, rfl⟩ | ⟨h4, heq, ha, hc, rfl, rfl⟩ |
    ⟨h4, heq, ha, hc, rfl, rfl⟩
  · exact byteStep_idle_start (s := s.setInbound bs) h0 now
  · exact byteStep_idle_other (s := t.setInbound bs) h0 hb now
  · exact byteStep_lenHi (s := s.setInbound bs) h1 b now
  · exact (byteStep_lenLo (s := s.setInbound bs) h2 b now).trans (if_pos hx)
  · exact (byteStep_lenLo (s := s.setInbound bs) h2 b now).trans
      ((if_neg (by simp only [State.setInbound_acc, hx]; decide)).trans (if_pos hx))
  · exact (byteStep_lenLo (s := s.setInbound bs) h2 b now).trans ((if_neg (Nat.not_lt.2 hx)).trans (if_neg hy))
  · exact byteStep_api (s := s.setInbound bs) h3 b now
  · exact byteStep_body (s := s.setInbound bs) h4 hlt ha b now
  · exact (byteStep_complete (s := s.setInbound bs) h4 heq ha b now).trans (if_pos (by simp [isCompleteChecksum, hc]))
  · exact (byteStep_complete (s := s.setInbound bs) h4 heq ha b now).trans (if_neg (by simpa [isCompleteChecksum] using hc))

/-! ## The drain -/

/-- Everything a drain that answers next can have done: it read some bytes in order, each by a byte step, and ended either at
a `valid` or `toolarge` event or with no byte left. `P` is carried along by every byte step. -/
theorem drain_induction {now : U32} {P : State → Prop} {bytes : List Byte} {n : U32} {s t : State}
    (h : drain now bytes n s = .next t) (hP : P s) (hin : ∀ (u : State) (bs : List Byte), P u → P (u.setInbound bs))
    (hstep : ∀ (b : Byte) (u v : State) (e : StepEvent), P u → byteStep b now u = .next (v, e) → P v) :
    ∃ (eaten rest : List Byte) (u : State), bytes = eaten ++ rest ∧ P u ∧ (eaten = [] → u = s) ∧
      (eaten ≠ [] → u.env.inbound = rest) ∧
      ((rest = [] ∧ t = finishPoll now (n + BitVec.ofNat 32 eaten.length) u) ∨
       (∃ b v e, P v ∧ byteStep b now v = .next (u, e) ∧ e = .valid ∧
          t = u.respondPoll .valid (n + BitVec.ofNat 32 eaten.length) ∧ eaten ≠ []) ∨
       (∃ b v e, P v ∧ byteStep b now v = .next (u, e) ∧ e = .tooLarge ∧
          t = u.respondPoll .tooLarge (n + BitVec.ofNat 32 eaten.length) ∧ eaten ≠ [])) := by
  induction bytes generalizing n s with
  | nil =>
    simp only [drain, Host.Outcome.next.injEq] at h
    exact ⟨[], [], s, rfl, hP, fun _ => rfl, fun h => absurd rfl h, .inl ⟨rfl, by simp [h]⟩⟩
  | cons b rest ih =>
    simp only [drain] at h
    obtain ⟨⟨v, e⟩, hv, ht⟩ := andThen_eq_next.1 h
    have hPv := hstep b _ v e (hin s rest hP) hv
    have hinb : v.env.inbound = rest := by rw [(byteStep_frame hv).2.2.1]; simp
    have hlen : ∀ l : List Byte, n + 1 + BitVec.ofNat 32 l.length = n + BitVec.ofNat 32 (b :: l).length := by
      intro l
      rw [List.length_cons, Nat.add_comm l.length 1, BitVec.ofNat_add, BitVec.add_assoc]
      rfl
    have more : drain now rest (n + 1) v = .next t → _ := fun hd => ih hd hPv
    have next_case : drain now rest (n + 1) v = .next t →
        ∃ (eaten rest' : List Byte) (u : State), b :: rest = eaten ++ rest' ∧ P u ∧ (eaten = [] → u = s) ∧
          (eaten ≠ [] → u.env.inbound = rest') ∧
          ((rest' = [] ∧ t = finishPoll now (n + BitVec.ofNat 32 eaten.length) u) ∨
           (∃ b v e, P v ∧ byteStep b now v = .next (u, e) ∧ e = .valid ∧
              t = u.respondPoll .valid (n + BitVec.ofNat 32 eaten.length) ∧ eaten ≠ []) ∨
           (∃ b v e, P v ∧ byteStep b now v = .next (u, e) ∧ e = .tooLarge ∧
              t = u.respondPoll .tooLarge (n + BitVec.ofNat 32 eaten.length) ∧ eaten ≠ [])) := by
      intro hd
      obtain ⟨eaten, rest', u, hb, hPu, h0, h1, hcase⟩ := more hd
      refine ⟨b :: eaten, rest', u, by simp [hb], hPu, fun h => absurd h (by simp), fun _ => ?_, ?_⟩
      · by_cases he : eaten = []
        · rw [h0 he, hinb, hb, he]; rfl
        · exact h1 he
      · rcases hcase with ⟨h1, h2⟩ | ⟨b', v', e', h1, h2, h3, h4, -⟩ | ⟨b', v', e', h1, h2, h3, h4, -⟩
        · exact .inl ⟨h1, by rw [h2, hlen]⟩
        · exact .inr (.inl ⟨b', v', e', h1, h2, h3, by rw [h4, hlen], by simp⟩)
        · exact .inr (.inr ⟨b', v', e', h1, h2, h3, by rw [h4, hlen], by simp⟩)
    cases e with
    | none => exact next_case ht
    | dropped => exact next_case ht
    | valid =>
      cases ht
      exact ⟨[b], rest, v, rfl, hPv, fun h => absurd h (by simp), fun _ => hinb,
        .inr (.inl ⟨b, _, _, hin s rest hP, hv, rfl, by simp, by simp⟩)⟩
    | tooLarge =>
      cases ht
      exact ⟨[b], rest, v, rfl, hPv, fun h => absurd h (by simp), fun _ => hinb,
        .inr (.inr ⟨b, _, _, hin s rest hP, hv, rfl, by simp, by simp⟩)⟩

/-- A byte step that goes on makes the drain go on with the rest. -/
theorem drain_cons_next {b : Byte} {now : U32} {rest : List Byte} {n : U32} {s t : State} {e : StepEvent}
    (h : byteStep b now (s.setInbound rest) = .next (t, e)) (he : e = .none ∨ e = .dropped) :
    drain now (b :: rest) n s = drain now rest (n + 1) t := by
  rcases he with rfl | rfl <;> simp [drain, h]

theorem drain_cons_valid {b : Byte} {now : U32} {rest : List Byte} {n : U32} {s t : State}
    (h : byteStep b now (s.setInbound rest) = .next (t, .valid)) :
    drain now (b :: rest) n s = .next (t.respondPoll .valid (n + 1)) := by
  simp [drain, h]

theorem drain_cons_tooLarge {b : Byte} {now : U32} {rest : List Byte} {n : U32} {s t : State}
    (h : byteStep b now (s.setInbound rest) = .next (t, .tooLarge)) :
    drain now (b :: rest) n s = .next (t.respondPoll .tooLarge (n + 1)) := by
  simp [drain, h]

end Sys2Proof.Machine
end

