-- ==== Sys2Proof/Laws/Invariant.lean ====
section
/-! SUPPORT. What the invariant of the machine depends on, and that the shared ways of leaving a frame keep it. -/

namespace Sys2Proof.Safety

open Sys2Proof.Machine

/-- The invariant reads neither `CFG` nor the environment nor the draws. -/
theorem inv_congr {s t : State} (hi : Inv s) (hp : t.p = s.p) (ha : t.acc = s.acc) (hl : t.lat = s.lat)
    (hr : t.req = s.req) : Inv t := by
  obtain ⟨⟨_, _, _, _, _, _⟩, ⟨_, _, _, _, _⟩, _, ⟨_, _, _⟩⟩ := hi
  refine ⟨⟨?_, ?_, ?_, ?_, ?_, ?_⟩, ⟨?_, ?_, ?_, ?_, ?_⟩, ?_, ⟨?_, ?_, ?_⟩⟩ <;>
    (try simp only [LatestInv]) <;> (try rw [hp]) <;> (try rw [ha]) <;> (try rw [hl]) <;> (try rw [hr]) <;> assumption

/-- An idle parser owes nothing. -/
theorem parserInv_idle {s : State} (h : s.p.counter = 0) : ParserInv s := by
  refine ⟨?_, ?_, ?_, ?_, ?_⟩ <;> intro h' <;> rw [h] at h' <;> simp at h'

/-- `discard()` keeps the invariant, whatever the accumulator was. -/
theorem inv_discard {s t : State} (hi : Inv s) (hl : t.lat = s.lat) (hr : t.req = s.req) : Inv t.discard := by
  obtain ⟨⟨_, a2, a3, _, a5, a6⟩, -, c, d⟩ := hi
  refine ⟨⟨rfl, ?_, ?_, by simp [unspecifiedAcc, offsets], ?_, ?_⟩, parserInv_idle rfl, ?_, ⟨?_, ?_, ?_⟩⟩ <;>
    (try simp only [LatestInv, State.discard_lat, State.discard_req]) <;> (try rw [hl]) <;> (try rw [hr])
  exacts [a2, a3, a5, a6, c, d.1, d.2, d.3]

/-- Clearing the latest slot keeps the invariant. -/
theorem inv_clearLatest {s : State} (hi : Inv s) : Inv s.clearLatest := by
  obtain ⟨⟨a1, _, a3, a4, _, a6⟩, b, _, d⟩ := hi
  exact ⟨⟨a1, rfl, a3, a4, by simp [emptyLatest, offsets], a6⟩, ⟨b.1, b.2, b.3, b.4, b.5⟩,
    by simp [LatestInv, emptyLatest], ⟨d.1, d.2, d.3⟩⟩

/-- A write to `REQ` keeps the invariant if the request's own part holds. -/
theorem inv_setReq {s t : State} (hi : Inv s) (hp : t.p = s.p) (ha : t.acc = s.acc) (hl : t.lat = s.lat)
    (hw : t.req.pay.wf = true) (hc : ∀ i ∈ offsets t.req.pay, i < Config.reqCap) (hr : RequestInv t) : Inv t := by
  obtain ⟨⟨_, _, _, _, _, _⟩, ⟨_, _, _, _, _⟩, _, _⟩ := hi
  refine ⟨⟨?_, ?_, hw, ?_, ?_, hc⟩, ⟨?_, ?_, ?_, ?_, ?_⟩, ?_, hr⟩ <;>
    (try simp only [LatestInv]) <;> (try rw [hp]) <;> (try rw [ha]) <;> (try rw [hl]) <;> assumption

/-- One more BODY byte: the accumulator's payload is one byte longer, and the running checksum has the byte in it. -/
theorem accAfterBody_facts {s : State} (hi : Inv s) (h4 : 4 ≤ s.p.counter.toNat) (b : Byte) :
    (accAfterBody s b).pay.wf = true ∧ offsets (accAfterBody s b).pay = List.range (s.p.counter.toNat - 4 + 1) ∧
      (accAfterBody s b).csum = (accAfterBody s b).apiId + sum8 (stored (accAfterBody s b).pay) := by
  obtain ⟨ho, hc⟩ := hi.parser.body h4
  refine ⟨Memory.wf_write hi.memories.accWf _ _, ?_, ?_⟩
  · simp only [accAfterBody]
    rw [counter_sub_four h4]
    exact Memory.offsets_write_above ho b
  · simp only [accAfterBody]
    rw [counter_sub_four h4, Memory.stored_write_above ho, sum8_append, hc]
    simp only [sum8]
    rw [BitVec.add_assoc, show b + (0 : Byte) = b from BitVec.add_zero b]

end Sys2Proof.Safety
end

