-- ==== Sys2Proof/Laws/PerInstr.lean ====
section
/-! SUPPORT. Facts about every instruction as syntax, one lemma per constructor. `CommandLength`: the number of bytes the port
waits for is the number of bytes of the command's encoding (30_encoding.md R82, R88). -/

namespace Sys2Proof.Laws

/-- The length field of format FB counts the data bytes. -/
theorem commandLength_encodeB {op : Byte} (h : op = 0x11 ∨ op = 0x12) {data : List Byte} (hd : data.length < 65536)
    (rest : List Byte) : commandLength (op :: encodeB data ++ rest) = some (op :: encodeB data).length := by
  have hn : (u16Of ((BitVec.ofNat 16 data.length).extractLsb' 8 8) ((BitVec.ofNat 16 data.length).extractLsb' 0 8)).toNat =
      data.length := by
    rw [u16Of_be16]; simp; omega
  rcases h with rfl | rfl <;> simp [commandLength, encodeB, be16, hn] <;> omega

/-- The port waits for as many bytes as the command's encoding has. -/
def CommandLength.Statement (i : Instr) : Prop :=
  i.wellFormed = true → ∀ rest, commandLength (encode i ++ rest) = some (encode i).length

theorem CommandLength.settmo (w : U32) : CommandLength.Statement (.settmo w) := fun _ _ => rfl

theorem CommandLength.attach : CommandLength.Statement .attach := fun _ _ => rfl

theorem CommandLength.detach : CommandLength.Statement .detach := fun _ _ => rfl

theorem CommandLength.reqnew (hi lo : U32) : CommandLength.Statement (.reqnew hi lo) := fun _ _ => rfl

theorem CommandLength.reqcpy (data : List Byte) : CommandLength.Statement (.reqcpy data) := fun h rest =>
  commandLength_encodeB (.inl rfl) (by simpa [Instr.wellFormed] using h) rest

theorem CommandLength.reqtake (data : List Byte) : CommandLength.Statement (.reqtake data) := fun h rest =>
  commandLength_encodeB (.inr rfl) (by simpa [Instr.wellFormed] using h) rest

theorem CommandLength.encode : CommandLength.Statement .encode := fun _ _ => rfl

theorem CommandLength.send : CommandLength.Statement .send := fun _ _ => rfl

theorem CommandLength.poll (now : U32) : CommandLength.Statement (.poll now) := fun _ _ => rfl

theorem CommandLength.lvalid : CommandLength.Statement .lvalid := fun _ _ => rfl

theorem CommandLength.lapi : CommandLength.Statement .lapi := fun _ _ => rfl

theorem CommandLength.lsize : CommandLength.Statement .lsize := fun _ _ => rfl

theorem CommandLength.lpayld : CommandLength.Statement .lpayld := fun _ _ => rfl

theorem CommandLength.lcsum : CommandLength.Statement .lcsum := fun _ _ => rfl

theorem CommandLength.lcompl : CommandLength.Statement .lcompl := fun _ _ => rfl

theorem CommandLength.lsaddr : CommandLength.Statement .lsaddr := fun _ _ => rfl

theorem CommandLength.lappdat : CommandLength.Statement .lappdat := fun _ _ => rfl

theorem CommandLength.beginSize (op : MicroIssue Byte) : CommandLength.Statement (.beginSize op) := fun _ _ => rfl

theorem CommandLength.setApiId (op : MicroIssue Byte) : CommandLength.Statement (.setApiId op) := fun _ _ => rfl

theorem CommandLength.writeAt (op : MicroIssue (U16 × Byte)) : CommandLength.Statement (.writeAt op) := fun _ _ => rfl

theorem CommandLength.accCsum (op : MicroIssue Byte) : CommandLength.Statement (.accCsum op) := fun _ _ => rfl

theorem CommandLength.isComplete (op : MicroIssue Unit) : CommandLength.Statement (.isComplete op) := fun _ _ => rfl

end Sys2Proof.Laws
end

