-- ==== Sys2Proof/Laws/Port.lean ====
section
/-! SUPPORT. The operand formats of the command port read back, how an issue is cut at the end of one command, and everything
a step can do. -/

namespace Sys2Proof

/-! ## Operand formats (30_encoding.md R82) -/

theorem decodeW_be32 (mk : U32 → Instr) (w : U32) (rest : List Byte) :
    decodeW mk (be32 w ++ rest) = .instr (mk w) rest := by
  simp only [be32, List.cons_append, List.nil_append, decodeW, u32Of_be32]

theorem decodeA_be32 (mk : U32 → U32 → Instr) (hi lo : U32) (rest : List Byte) :
    decodeA mk (be32 hi ++ be32 lo ++ rest) = .instr (mk hi lo) rest := by
  simp only [be32, List.cons_append, List.nil_append, decodeA, u32Of_be32]

theorem toNat_lengthField {data : List Byte} (h : data.length < 65536) :
    (u16Of ((BitVec.ofNat 16 data.length).extractLsb' 8 8) ((BitVec.ofNat 16 data.length).extractLsb' 0 8)).toNat =
      data.length := by
  rw [u16Of_be16]; simp; omega

theorem decodeB_encodeB (mk : List Byte → Instr) {data : List Byte} (h : data.length < 65536) (rest : List Byte) :
    decodeB mk (encodeB data ++ rest) = .instr (mk data) rest := by
  simp only [encodeB, be16, List.cons_append, List.nil_append, decodeB, toNat_lengthField h]
  simp

theorem decodeW_eq_instr {mk : U32 → Instr} {bs rest : List Byte} {i : Instr} (h : decodeW mk bs = .instr i rest) :
    ∃ w, i = mk w ∧ bs = be32 w ++ rest := by
  unfold decodeW at h
  split at h
  · cases h; exact ⟨_, rfl, by rw [be32_u32Of]; rfl⟩
  · cases h

theorem decodeA_eq_instr {mk : U32 → U32 → Instr} {bs rest : List Byte} {i : Instr} (h : decodeA mk bs = .instr i rest) :
    ∃ hi lo, i = mk hi lo ∧ bs = be32 hi ++ be32 lo ++ rest := by
  unfold decodeA at h
  split at h
  · cases h; exact ⟨_, _, rfl, by rw [be32_u32Of, be32_u32Of]; rfl⟩
  · cases h

theorem decodeB_eq_instr {mk : List Byte → Instr} {bs rest : List Byte} {i : Instr} (h : decodeB mk bs = .instr i rest) :
    ∃ data, i = mk data ∧ data.length < 65536 ∧ bs = encodeB data ++ rest := by
  unfold decodeB at h
  split at h
  · rename_i a b r
    split at h
    · rename_i hle
      cases h
      have hl : (r.take (u16Of a b).toNat).length = (u16Of a b).toNat := by simp [hle]
      refine ⟨_, rfl, by rw [hl]; exact (u16Of a b).isLt, ?_⟩
      rw [encodeB, hl, BitVec.ofNat_toNat, BitVec.setWidth_eq, be16_u16Of]
      simp
    · cases h
  · cases h

/-- One test of the opcode map at a time. -/
theorem ite_eq_cases {c : Prop} [Decidable c] {x y v : Decoded} {P : Prop} (h : (if c then x else y) = v)
    (yes : c → x = v → P) (no : y = v → P) : P := by
  by_cases hc : c
  · rw [if_pos hc] at h; exact yes hc h
  · rw [if_neg hc] at h; exact no h

/-! ## One command of a sequence (30_encoding.md R88) -/

theorem firstCommand_append_afterCommand (bs : List Byte) : firstCommand bs ++ afterCommand bs = bs := by
  unfold firstCommand afterCommand
  cases commandLength bs <;> simp

/-- The port waits for the length of the command at its head. -/
theorem commandLength_encode {i : Instr} (h : i.wellFormed = true) (rest : List Byte) :
    commandLength (encode i ++ rest) = some (encode i).length := by
  cases i with
  | reqcpy data => exact Laws.CommandLength.reqcpy data h rest
  | reqtake data => exact Laws.CommandLength.reqtake data h rest
  | _ => rfl

/-- A sequence that starts with a command is cut after its last byte. -/
theorem firstCommand_encode {i : Instr} (h : i.wellFormed = true) (rest : List Byte) :
    firstCommand (encode i ++ rest) = encode i ∧ afterCommand (encode i ++ rest) = rest := by
  unfold firstCommand afterCommand
  rw [commandLength_encode h]
  simp

/-- An opcode with no operand leaves the bytes after it as they are. -/
theorem decodeOp_noOperand {op : Byte} (h : op ≠ 0x01 ∧ op ≠ 0x20 ∧ op ≠ 0x10 ∧ op ≠ 0x11 ∧ op ≠ 0x12) (rest : List Byte) :
    (∃ i, decodeOp op rest = .instr i rest) ∨ decodeOp op rest = .reserved op rest := by
  obtain ⟨h1, h2, h3, h4, h5⟩ := h
  unfold decodeOp
  rw [if_neg h1, if_neg h3, if_neg h4, if_neg h5, if_neg h2]
  have row {c : Prop} [Decidable c] {i : Instr} {x : Decoded} (h : (∃ j, x = .instr j rest) ∨ x = .reserved op rest) :
      (∃ j, (if c then .instr i rest else x) = .instr j rest) ∨ (if c then .instr i rest else x) = .reserved op rest := by
    by_cases hc : c
    · exact .inl ⟨i, if_pos hc⟩
    · rwa [if_neg hc]
  iterate 17 refine row ?_
  exact .inr rfl

/-- Nothing follows the command that `firstCommand` cuts off, and bytes are left over only after a whole command. -/
theorem decode_firstCommand (bs : List Byte) :
    (∃ i, decode (firstCommand bs) = .instr i []) ∨ (∃ op, decode (firstCommand bs) = .reserved op []) ∨
      (decode (firstCommand bs) = .incomplete ∧ afterCommand bs = []) := by
  have word (mk : U32 → Instr) (r : List Byte) :
      (∃ i, decodeW mk (r.take 4) = .instr i []) ∨ (decodeW mk (r.take 4) = .incomplete ∧ r.drop 4 = []) := by
    match r with
    | [] | [_] | [_, _] | [_, _, _] => exact .inr ⟨rfl, rfl⟩
    | _ :: _ :: _ :: _ :: _ => exact .inl ⟨_, rfl⟩
  have address (r : List Byte) :
      (∃ i, decodeA .reqnew (r.take 8) = .instr i []) ∨ (decodeA .reqnew (r.take 8) = .incomplete ∧ r.drop 8 = []) := by
    match r with
    | [] | [_] | [_, _] | [_, _, _] | [_, _, _, _] | [_, _, _, _, _] | [_, _, _, _, _, _] | [_, _, _, _, _, _, _] =>
      exact .inr ⟨rfl, rfl⟩
    | _ :: _ :: _ :: _ :: _ :: _ :: _ :: _ :: _ => exact .inl ⟨_, rfl⟩
  have block (mk : List Byte → Instr) (a b : Byte) (r : List Byte) :
      (∃ i, decodeB mk (a :: b :: r.take (u16Of a b).toNat) = .instr i []) ∨
        (decodeB mk (a :: b :: r.take (u16Of a b).toNat) = .incomplete ∧ r.drop (u16Of a b).toNat = []) := by
    rw [decodeB]
    split
    · exact .inl ⟨_, by rw [List.drop_take_self]⟩
    · rename_i h
      exact .inr ⟨rfl, List.drop_eq_nil_of_le (by rw [List.length_take] at h; omega)⟩
  cases bs with
  | nil => exact .inr (.inr ⟨rfl, rfl⟩)
  | cons op r =>
    by_cases h1 : op = 0x01
    · subst h1; exact (word .settmo r).imp_right .inr
    by_cases h2 : op = 0x20
    · subst h2; exact (word .poll r).imp_right .inr
    by_cases h3 : op = 0x10
    · subst h3; exact (address r).imp_right .inr
    by_cases h4 : op = 0x11 ∨ op = 0x12
    · match r with
      | [] | [_] => rcases h4 with rfl | rfl <;> exact .inr (.inr ⟨rfl, rfl⟩)
      | a :: b :: r' =>
        have hf : firstCommand (op :: a :: b :: r') = op :: a :: b :: r'.take (u16Of a b).toNat ∧
            afterCommand (op :: a :: b :: r') = r'.drop (u16Of a b).toNat := by
          rcases h4 with rfl | rfl <;> simp [firstCommand, afterCommand, commandLength, Nat.add_comm 3]
        rw [hf.1, hf.2]
        rcases h4 with rfl | rfl
        exacts [(block .reqcpy a b r').imp_right .inr, (block .reqtake a b r').imp_right .inr]
    · have hf : firstCommand (op :: r) = [op] := by
        have hl : commandLength (op :: r) = some 1 :=
          (if_neg (not_or.2 ⟨h1, h2⟩)).trans ((if_neg h3).trans (if_neg h4))
        rw [firstCommand, hl]
        rfl
      rw [hf]
      rcases decodeOp_noOperand ⟨h1, h2, h3, not_or.1 h4⟩ [] with ⟨i, h⟩ | h
      · exact .inl ⟨i, h⟩
      · exact .inr (.inl ⟨op, h⟩)

namespace Machine

/-! ## The step -/

theorem step_incomplete {s : State} (h : decode s.env.port = .incomplete) : step s = hostTurn s := by
  show portStep s = _
  rw [portStep, h]

theorem step_reserved {s : State} {op : Byte} {rest : List Byte} (h : decode s.env.port = .reserved op rest) :
    step s = .next ((s.setPort rest).raise .errUndefined) := by
  show portStep s = _
  rw [portStep, h]; rfl

theorem tickClock_cases {x : U32} {s t : State} (h : tickClock x s = .next t) :
    s.env.clock.toNat + x.toNat < 2 ^ 32 ∧ t = s.setClock (s.env.clock + x) := by
  unfold tickClock at h
  split at h
  · cases h; exact ⟨‹_›, rfl⟩
  · cases h

theorem withheld_eq (bs : List Byte) (ms : List HostMove) : withheld bs ms = if bs = [] then ms else .issue bs :: ms := by
  cases bs <;> rfl

@[simp] theorem pendingTicks_withheld (bs : List Byte) (ms : List HostMove) :
    Safety.pendingTicks (withheld bs ms) = Safety.pendingTicks ms := by
  cases bs <;> rfl

/-- No issue puts a byte on the port after a whole command. -/
theorem oneCommand_issueBytes (s : State) (bs : List Byte) : Safety.OneCommand (s.issueBytes bs) := by
  unfold Safety.OneCommand
  rw [State.issueBytes_env_port]
  rcases decode_firstCommand (s.env.port ++ bs) with ⟨i, h⟩ | ⟨op, h⟩ | ⟨h, -⟩ <;> rw [h]
  trivial

/-- Everything a step that answers next can have done. -/
theorem step_cases {s t : State} (h : step s = .next t) :
    (∃ i rest, decode s.env.port = .instr i rest ∧ exec i (s.setPort rest) = .next t) ∨
    (∃ op rest, decode s.env.port = .reserved op rest ∧ t = (s.setPort rest).raise .errUndefined) ∨
    (decode s.env.port = .incomplete ∧ s.env.agenda = [] ∧ t = s) ∨
    (∃ m ms, decode s.env.port = .incomplete ∧ s.env.agenda = m :: ms ∧ hostMove m (s.setAgenda ms) = .next t) := by
  have h' : portStep s = .next t := h
  rw [portStep] at h'
  split at h'
  · exact .inl ⟨_, _, ‹_›, h'⟩
  · cases h'; exact .inr (.inl ⟨_, _, ‹_›, rfl⟩)
  · rw [hostTurn] at h'
    split at h'
    · cases h'; exact .inr (.inr (.inl ⟨‹_›, ‹_›, rfl⟩))
    · exact .inr (.inr (.inr ⟨_, _, ‹_›, ‹_›, h'⟩))

end Machine

end Sys2Proof
end

