-- ==== Sys2Proof/Tests/Slice0.lean ====
section
/-! SUPPORT. The model's own tests: the well-formedness smoke test, a decoding per constructor, single steps with the results of
95_test_vectors.md, and for each statement with hypotheses a concrete state and operands that meet them. -/

open Sys2Proof Sys2Proof.Machine Sys2Proof.Safety Sys2Proof.Statements

namespace Sys2Proof.Tests

/-! ## Small states -/

/-- F-TX of 95_test_vectors.md. -/
def fTx : List Byte :=
  [0x7E, 0x00, 0x0F, 0x10, 0x00, 0x00, 0x13, 0xA2, 0x00, 0x41, 0xBD, 0xFA, 0xFB, 0xFF, 0xFE, 0x00, 0x00, 0x41, 0x09]

/-- F-RX of 95_test_vectors.md. -/
def fRx : List Byte :=
  [0x7E, 0x00, 0x0E, 0x90, 0x00, 0x13, 0xA2, 0x00, 0x40, 0xA1, 0xB2, 0xC3, 0xFF, 0xFE, 0x01, 0x48, 0x69, 0xB5]

/-- F-RXBAD of 95_test_vectors.md. -/
def fRxBad : List Byte :=
  [0x7E, 0x00, 0x0E, 0x90, 0x00, 0x13, 0xA2, 0x00, 0x40, 0xA1, 0xB2, 0xC3, 0xFF, 0xFE, 0x01, 0x48, 0x69, 0xB6]

/-- Reset, then ATTACH, with bytes in the stream. -/
def streaming (bs : List Byte) : State :=
  { State.reset with
    cfg := { State.reset.cfg with attached := true }
    env := { State.reset.env with inbound := bs } }

/-- Bytes on the port of a reset machine. -/
def porting (bs : List Byte) : State := State.reset.setPort bs

/-- A request with a payload, on an attached stream. -/
def requesting (hi lo : U32) (data : List Byte) : State :=
  { streaming [] with
    req := { opened := true, addrHi := hi, addrLo := lo, isSet := true, len := BitVec.ofNat 16 data.length
             pay := { cells := data.zipIdx.map fun c => (c.2, c.1), draw := 2 } } }

/-- An open request without a payload. -/
def opened : State := { State.reset with req := { State.reset.req with opened := true } }

/-- A request whose payload has `n` bytes, none of them listed: for the length checks only. -/
def longRequest (n : U16) : State :=
  { requesting 0 0 [] with req := { (requesting 0 0 []).req with len := n } }

/-- The latest slot holding the bytes after a frame's API byte. -/
def slotted (api : Byte) (tail : List Byte) : State :=
  { streaming [] with
    lat := { valid := true, apiId := api, csum := 0xFF, size := BitVec.ofNat 16 tail.length
             pay := { cells := tail.zipIdx.map fun c => (c.2, c.1), draw := 1 } } }

/-- A frame in progress: the counter, the declared size, the running checksum and the payload bytes stored so far. -/
def midFrame (counter : U16) (hi lo : Byte) (api csum : Byte) (pay : List Byte) : State :=
  { streaming [] with
    p := { counter := counter, deadline := 1100 }
    acc := { apiId := api, csum := csum, sizeHigh := hi, sizeLow := lo, sizePhase := counter == 2
             alloc := decide (3 ≤ counter.toNat), pay := { cells := pay.zipIdx.map fun c => (c.2, c.1), draw := 0 } } }

/-- The responses of an outcome, as bytes. -/
def answers : Host.Outcome State Fault Refusal → List (List Byte)
  | .next t => t.env.responses.map responseBytes
  | .fault _ => []
  | .refused _ => []

/-- One value of the next state. -/
def after {α : Type} (f : State → α) : Host.Outcome State Fault Refusal → Option α
  | .next t => some (f t)
  | .fault _ => none
  | .refused _ => none

/-! ## Well-formedness refuses (R82, R87) -/

theorem test_wellFormed_reqcpy_length : (Instr.reqcpy (List.replicate 65536 0)).wellFormed = false := by
  rw [Instr.wellFormed, List.length_replicate]; rfl

theorem test_wellFormed_reqtake_length : (Instr.reqtake (List.replicate 65536 0)).wellFormed = false := by
  rw [Instr.wellFormed, List.length_replicate]; rfl

theorem test_wellFormed_longest_payload : (Instr.reqcpy (List.replicate 65535 0)).wellFormed = true := by
  rw [Instr.wellFormed, List.length_replicate]; rfl

theorem test_wellFormed_parser_issues :
    (Instr.beginSize (.parser 0)).wellFormed = false ∧ (Instr.setApiId (.parser 0)).wellFormed = false ∧
    (Instr.writeAt (.parser (0, 0))).wellFormed = false ∧ (Instr.accCsum (.parser 0)).wellFormed = false ∧
    (Instr.isComplete (.parser ())).wellFormed = false := by decide

/-! ## Widths (00_scope.md R6, R8) -/

theorem test_widths :
    Byte = BitVec Config.csumW ∧ U16 = BitVec Config.sizeW ∧ U16 = BitVec Config.ctrW ∧ U32 = BitVec Config.timeW ∧
    U32 = BitVec Config.timeoutW ∧ U33 = BitVec Config.deadlineW ∧ Config.addrW = 32 + 32 ∧
    Config.maxPayload ≤ Config.lenMax ∧ Config.txOverhead + 3 = Config.txHdr := by
  refine ⟨rfl, rfl, rfl, rfl, rfl, rfl, ?_, ?_, ?_⟩ <;> decide

/-! ## Decoding: words written out from the spec's examples and formats (R82, R83, 95_test_vectors.md) -/

theorem test_decode_settmo : decode [0x01, 0x00, 0x00, 0x01, 0xF4] = .instr (.settmo 500) [] := by decide
theorem test_decode_attach : decode [0x02] = .instr .attach [] := by decide
theorem test_decode_detach : decode [0x03] = .instr .detach [] := by decide
theorem test_decode_reqnew :
    decode [0x10, 0x00, 0x13, 0xA2, 0x00, 0x41, 0xBD, 0xFA, 0xFB] = .instr (.reqnew 0x0013A200 0x41BDFAFB) [] := by
  decide
theorem test_decode_reqcpy : decode [0x11, 0x00, 0x02, 0x41, 0x7E, 0x13] = .instr (.reqcpy [0x41, 0x7E]) [0x13] := by
  decide
theorem test_decode_reqtake : decode [0x12, 0x00, 0x01, 0x42] = .instr (.reqtake [0x42]) [] := by decide
theorem test_decode_encode : decode [0x13] = .instr .encode [] := by decide
theorem test_decode_send : decode [0x14] = .instr .send [] := by decide
theorem test_decode_poll : decode [0x20, 0x00, 0x00, 0x04, 0xB0] = .instr (.poll 1200) [] := by decide
theorem test_decode_lvalid : decode [0x30] = .instr .lvalid [] := by decide
theorem test_decode_lapi : decode [0x31] = .instr .lapi [] := by decide
theorem test_decode_lsize : decode [0x32] = .instr .lsize [] := by decide
theorem test_decode_lpayld : decode [0x33] = .instr .lpayld [] := by decide
theorem test_decode_lcsum : decode [0x34] = .instr .lcsum [] := by decide
theorem test_decode_lcompl : decode [0x35] = .instr .lcompl [] := by decide
theorem test_decode_lsaddr : decode [0x36] = .instr .lsaddr [] := by decide
theorem test_decode_lappdat : decode [0x37] = .instr .lappdat [] := by decide
theorem test_decode_beginSize : decode [0x80] = .instr (.beginSize .port) [] := by decide
theorem test_decode_setApiId : decode [0x81] = .instr (.setApiId .port) [] := by decide
theorem test_decode_writeAt : decode [0x82] = .instr (.writeAt .port) [] := by decide
theorem test_decode_accCsum : decode [0x83] = .instr (.accCsum .port) [] := by decide
theorem test_decode_isComplete : decode [0x84] = .instr (.isComplete .port) [] := by decide

/-- V-X1 and V-X1b: the ends of the reserved ranges. -/
theorem test_decode_reserved :
    ∀ op ∈ ([0x00, 0x04, 0x0F, 0x15, 0x1F, 0x21, 0x2F, 0x38, 0x7F, 0x85, 0xFF] : List Byte),
      decode [op, 0x02] = .reserved op [0x02] := by decide

theorem test_decode_incomplete :
    decode [] = .incomplete ∧ decode [0x01, 0x00, 0x00, 0x01] = .incomplete ∧ decode [0x11, 0x00] = .incomplete ∧
    decode [0x11, 0x01, 0x00, 0x00] = .incomplete := by decide

theorem test_decodeTableWord :
    decodeTableWord 8 0x11 = some (.reqcpy []) ∧ decodeTableWord 40 0xF401000001 = some (.settmo 500) ∧
    decodeTableWord 8 0x84 = some (.isComplete .port) ∧ decodeTableWord 8 0xFF = none := by decide

theorem test_withFetchWord_runs :
    answers (step (State.reset.withFetchWord 8 0x30)) = [[0x00, 0x00]] ∧
    after (·.cfg.timeout) (step (State.reset.withFetchWord 40 0xF401000001)) = some 500 := by decide

/-! ## Commands: one step each (95_test_vectors.md sections 2.2, 2.4, 2.6, 2.7) -/

/-- V-C1. -/
theorem test_settmo : after (·.cfg.timeout) (step (porting [0x01, 0x00, 0x00, 0x01, 0xF4])) = some 500 := by decide

theorem test_attach : after (·.cfg.attached) (exec .attach State.reset) = some true := by decide

theorem test_detach : after (·.cfg.attached) (exec .detach (streaming [])) = some false := by decide

/-- V-R1 and V-R11. -/
theorem test_reqnew :
    after (fun t => (t.req.opened, t.req.addrHi, t.req.addrLo, t.req.isSet, t.req.len))
      (exec (.reqnew 1 2) (requesting 0x0013A200 0x41BDFAFB [0x41])) = some (true, 1, 2, false, 0) := by decide

/-- V-R2 and V-R3. -/
theorem test_reqcpy_errors :
    answers (exec (.reqcpy [0x01]) State.reset) = [[0x03]] ∧
    answers (exec (.reqcpy [0x42]) (requesting 1 2 [0x41])) = [[0x04]] := by decide

theorem test_reqcpy_stores :
    after (fun t => (t.req.isSet, t.req.len, t.req.pay.cells)) (exec (.reqcpy [0x41, 0x42]) opened) =
      some (true, 2, [(0, 0x41), (1, 0x42)]) := by decide

/-- V-R4. -/
theorem test_reqtake_stores :
    after (fun t => (t.req.isSet, t.req.len, t.req.pay.cells)) (exec (.reqtake [0x41]) opened) =
      some (true, 1, [(0, 0x41)]) := by decide

/-- V-E1, V-E4 and V-R7. -/
theorem test_encode_vectors :
    answers (exec .encode (requesting 0x0013A200 0x41BDFAFB [0x41])) = [[0x00, 0x00, 0x00, 0x00, 0x13] ++ fTx] ∧
    answers (exec .encode (requesting 0x01020304 0x05060708 [0x00, 0x7E, 0x7D])) =
      [[0x00, 0x00, 0x00, 0x00, 0x15, 0x7E, 0x00, 0x11, 0x10, 0x00, 0x01, 0x02, 0x03, 0x04, 0x05, 0x06, 0x07, 0x08, 0xFF,
        0xFE, 0x00, 0x00, 0x00, 0x7E, 0x7D, 0xD3]] ∧
    answers (exec .encode (requesting 0 0 [])) =
      [[0x00, 0x00, 0x00, 0x00, 0x12, 0x7E, 0x00, 0x0E, 0x10, 0x00, 0x00, 0x00, 0x00, 0x00, 0x00, 0x00, 0x00, 0x00, 0xFF,
        0xFE, 0x00, 0x00, 0xF2]] := by decide

/-- V-R5, V-R6 and V-E7. -/
theorem test_encode_errors :
    answers (exec .encode State.reset) = [[0x05]] ∧ answers (exec .encode opened) = [[0x05]] ∧
    answers (exec .encode (longRequest 65522)) = [[0x06]] := by decide

/-- V-R10. -/
theorem test_send_appends :
    after (fun t => (t.env.outbound, t.env.responses)) (exec .send
      ((requesting 0x0013A200 0x41BDFAFB [0x41]).setOutbound [0x55])) = some (0x55 :: fTx, [⟨.ok, []⟩]) := by decide

/-- V-R8, V-R9 and V-R12. -/
theorem test_send_errors :
    answers (exec .send State.reset) = [[0x07]] ∧ answers (exec .send (streaming [])) = [[0x05]] ∧
    answers (exec .send (longRequest 65522)) = [[0x06]] := by decide

/-- V-L1 to V-L8. -/
theorem test_accessors_of_fRx :
    [Instr.lvalid, .lapi, .lsize, .lpayld, .lcsum, .lcompl, .lsaddr, .lappdat].map
        (fun i => answers (exec i (slotted 0x90 (fRx.drop 4)))) =
      [[[0x00, 0x01]], [[0x00, 0x90]], [[0x00, 0x00, 0x0E]], [[0x00, 0x00, 0x0E] ++ fRx.drop 4], [[0x00, 0xFF]],
        [[0x00, 0x01]], [[0x00, 0x00, 0x13, 0xA2, 0x00, 0x40, 0xA1, 0xB2, 0xC3]], [[0x00, 0x00, 0x02, 0x48, 0x69]]] := by
  decide

/-- V-L9 and V-L10. -/
theorem test_accessors_of_empty_slot :
    [Instr.lvalid, .lapi, .lsize, .lpayld, .lcsum, .lcompl, .lsaddr, .lappdat].map (fun i => answers (exec i State.reset)) =
      [[[0x00, 0x00]], [[0x08]], [[0x08]], [[0x08]], [[0x08]], [[0x08]], [[0x08]], [[0x08]]] := by decide

/-- V-L12 and V-L13. -/
theorem test_lsaddr_corners :
    answers (exec .lsaddr (slotted 0x90 [1, 2, 3, 4, 5, 6, 7, 0x53])) = [[0x09]] ∧
    answers (exec .lsaddr (slotted 0x90 [1, 2, 3, 4, 5, 6, 7, 8, 0x4B])) = [[0x00, 1, 2, 3, 4, 5, 6, 7, 8]] := by decide

/-- V-L14 and V-L15. -/
theorem test_lappdat_corners :
    answers (exec .lappdat (slotted 0x90 [1, 2, 3, 4, 5, 6, 7, 8, 9, 0xA, 0xB, 0x2D])) = [[0x00, 0x00, 0x00]] ∧
    answers (exec .lappdat (slotted 0x90 [1, 2, 3, 4, 5, 6, 7, 8, 9, 0xA, 0xB, 0xC, 0x21])) =
      [[0x00, 0x00, 0x01, 0x0C]] := by decide

/-- V-X2: one byte each, the next byte stays. -/
theorem test_internal_opcodes :
    ∀ op ∈ ([0x80, 0x81, 0x82, 0x83, 0x84] : List Byte),
      answers (step (porting [op, 0x30])) = [[0x02]] ∧ after (·.env.port) (step (porting [op, 0x30])) = some [0x30] := by
  decide

/-- V-X3. -/
theorem test_reserved_opcode :
    answers (step (porting [0xFF, 0x20, 0, 0, 0, 0])) = [[0x01]] ∧
    after (·.env.port) (step (porting [0xFF, 0x20, 0, 0, 0, 0])) = some [0x20, 0, 0, 0, 0] := by decide

/-! ## Micro-operations (95_test_vectors.md section 2.3) -/

/-- V-A2. -/
theorem test_beginSize :
    after (fun t => (t.acc.sizeHigh, t.acc.sizePhase)) (exec (.beginSize (.parser 0x00)) (midFrame 1 0x12 0x34 0 0 [])) =
      some (0x00, true) ∧
    after (fun t => (t.acc.size, t.acc.sizePhase)) (exec (.beginSize (.parser 0x0E)) (midFrame 2 0x00 0x34 0 0 [])) =
      some (0x000E, false) := by decide

/-- V-A5. -/
theorem test_setApiId :
    after (fun t => (t.acc.apiId, t.acc.csum)) (exec (.setApiId (.parser 0x90)) (midFrame 3 0 14 0 0 [])) =
      some (0x90, 0x00) := by decide

/-- V-A6 and V-A7. -/
theorem test_accCsum :
    after (·.acc.csum) (exec (.accCsum (.parser 0x09)) (midFrame 5 0 14 0 0xF6 [])) = some 0xFF ∧
    after (·.acc.csum) (exec (.accCsum (.parser 0x02)) (midFrame 5 0 14 0 0xFF [])) = some 0x01 := by decide

/-- V-A8 and V-A6. -/
theorem test_isComplete :
    isCompleteChecksum 0xFE = false ∧ isCompleteChecksum 0xFF = true ∧
    answers (exec (.isComplete (.parser ())) (midFrame 5 0 14 0 0xFE [])) = [] := by decide

/-- V-A9's last store, and the two faults of the precondition. -/
theorem test_writeAt :
    after (·.acc.pay.cells) (exec (.writeAt (.parser (13, 0xB5))) (midFrame 17 0 14 0 0 [])) = some [(13, 0xB5)] ∧
    after (·.acc.size) (exec (.writeAt (.parser (14, 0xB5))) (midFrame 17 0 14 0 0 [])) = none ∧
    after (·.acc.size) (exec (.writeAt (.parser (0, 0xB5))) (midFrame 2 0 14 0 0 [])) = none := by decide

/-! ## POLL (95_test_vectors.md section 2.5) -/

/-- V-P1, V-P2, V-P3, V-P6 and V-P8b: frames accepted. -/
theorem test_poll_accepts :
    answers (exec (.poll 100) (streaming fRx)) = [[0x00, 0x02, 0x00, 0x00, 0x00, 0x12]] ∧
    after (fun t => (t.p.counter, t.lat.valid, t.lat.apiId, t.lat.csum)) (exec (.poll 100) (streaming fRx)) =
      some (0, true, 0x90, 0xFF) ∧
    after (fun t => (t.lat.size, stored t.lat.pay)) (exec (.poll 100) (streaming fRx)) = some (14, fRx.drop 4) ∧
    answers (exec (.poll 100) (streaming (fRxBad ++ fRx))) = [[0x00, 0x02, 0x00, 0x00, 0x00, 0x24]] ∧
    after (·.env.inbound) (exec (.poll 100) (streaming (fRx ++ fRx))) = some fRx ∧
    answers (exec (.poll 100) (streaming ([0x7E, 0, 0] ++ fRx))) = [[0x00, 0x02, 0x00, 0x00, 0x00, 0x15]] ∧
    answers (exec (.poll 5000) ((midFrame 5 0 14 0x90 0x90 [0x00]).setInbound (fRx.drop 5))) =
      [[0x00, 0x02, 0x00, 0x00, 0x00, 0x0D]] := by decide

/-- V-P4, V-P5, V-P6b, V-P7, V-P10, V-P11, V-P12 and V-P13: no frame accepted. -/
theorem test_poll_other_statuses :
    answers (exec (.poll 100) (streaming ([0x7E, 0xFF, 0xF1] ++ fRx))) = [[0x00, 0x03, 0x00, 0x00, 0x00, 0x03]] ∧
    answers (exec (.poll 100) (streaming [0x7E, 0xFF, 0xF0])) = [[0x00, 0x01, 0x00, 0x00, 0x00, 0x03]] ∧
    after (fun t => (t.p.counter, t.p.deadline)) (exec (.poll 100) (streaming [0x7E, 0xFF, 0xF0])) = some (3, 1100) ∧
    answers (exec (.poll 100) (streaming [0x7E, 0, 0])) = [[0x00, 0x00, 0x00, 0x00, 0x00, 0x03]] ∧
    answers (exec (.poll 1100) (midFrame 2 0 0 0 0 [])) = [[0x00, 0x01, 0x00, 0x00, 0x00, 0x00]] ∧
    answers (exec (.poll 1101) (midFrame 2 0 0 0 0 [])) = [[0x00, 0x04, 0x00, 0x00, 0x00, 0x00]] ∧
    answers (exec (.poll 10) (streaming ([0x7E, 0x00, 0x0E, 0x90, 0x00, 0x13] ++ fRx))) =
      [[0x00, 0x00, 0x00, 0x00, 0x00, 0x18]] ∧
    answers (exec (.poll 10) (streaming [0x00, 0x41, 0xFF])) = [[0x00, 0x00, 0x00, 0x00, 0x00, 0x03]] ∧
    answers (exec (.poll 10) (streaming [])) = [[0x00, 0x00, 0x00, 0x00, 0x00, 0x00]] ∧
    answers (exec (.poll 10) (State.reset.setInbound fRx)) = [[0x00, 0x05, 0x00, 0x00, 0x00, 0x00]] := by decide

/-! ## The host and the assembler (30_encoding.md R89, R90, 95_test_vectors.md section 3) -/

theorem test_host_moves :
    after (fun t => (t.env.inbound, t.env.outbound, t.env.agenda))
      (step ((State.reset.setOutbound [1, 2, 3]).setAgenda [.loopback 2, .deliver 1])) = some ([1, 2], [3], [.deliver 1]) ∧
    after (·.env.port) (step (State.reset.setAgenda [.issue [0x02]])) = some [0x02] ∧
    after (·.env.clock) (step (State.reset.setAgenda [.tick 5])) = some 5 := by decide

/-- V-X3's bytes in one issue: `FF` alone is put on the port, and the POLL waits with the host (R87, R211). -/
theorem test_issue_is_one_command :
    after (fun t => (t.env.port, t.env.agenda)) (step (State.reset.setAgenda [.issue [0xFF, 0x20, 0, 0, 0, 0], .tick 1])) =
      some ([0xFF], [.issue [0x20, 0, 0, 0, 0], .tick 1]) ∧
    after (fun t => (t.env.port, t.env.agenda)) (step ((porting [0x11, 0, 2]).setAgenda [.issue [0x41, 0x42, 0x30]])) =
      some ([0x11, 0, 2, 0x41, 0x42], [.issue [0x30]]) := by decide

/-- Lines of PR1 and PR2. -/
theorem test_assembler :
    programMoves ["ATTACH ; attach".toList, "TXFRAME 0x0013A200, 0x41BDFAFB, [0x41]".toList,
        "stream: 7E 00 0E".toList, "POLL 1000".toList] =
      some [.issue [0x02], .issue [0x10, 0x00, 0x13, 0xA2, 0x00, 0x41, 0xBD, 0xFA, 0xFB], .issue [0x11, 0x00, 0x01, 0x41],
        .issue [0x14], .arrive [0x7E, 0x00, 0x0E], .issue [0x20, 0x00, 0x00, 0x03, 0xE8]] := by decide

theorem test_txframe :
    after (·.env.outbound) (runUntilError (txframe 0x0013A200 0x41BDFAFB [0x41]) (streaming [])) = some fTx := by decide

/-! ## Witnesses: concrete states and operands that meet the hypotheses of each statement, clause by clause -/

theorem inv_streaming_nothing : Inv (streaming []) :=
  ⟨by constructor <;> decide, by constructor <;> decide, fun h => (by cases h), by constructor <;> decide⟩

theorem inv_streaming (bs : List Byte) : Inv (streaming bs) := inv_congr inv_streaming_nothing rfl rfl rfl rfl

theorem inv_lenHi : Inv (midFrame 1 0 0 0 0 []) :=
  ⟨by constructor <;> decide, by constructor <;> decide, fun h => (by cases h), by constructor <;> decide⟩

theorem inv_lenLo : Inv (midFrame 2 0xFF 0 0 0 []) :=
  ⟨by constructor <;> decide, by constructor <;> decide, fun h => (by cases h), by constructor <;> decide⟩

theorem inv_api : Inv (midFrame 3 0 14 0 0 []) :=
  ⟨by constructor <;> decide, by constructor <;> decide, fun h => (by cases h), by constructor <;> decide⟩

theorem inv_body : Inv (midFrame 5 0 14 0x90 0x90 [0x00]) :=
  ⟨by constructor <;> decide, by constructor <;> decide, fun h => (by cases h), by constructor <;> decide⟩

theorem inv_completing : Inv (midFrame 4 0 1 0x8A 0x8A []) :=
  ⟨by constructor <;> decide, by constructor <;> decide, fun h => (by cases h), by constructor <;> decide⟩

theorem sum8_zeros (n : Nat) : sum8 (List.replicate n 0) = 0 := by
  induction n with
  | zero => rfl
  | succ n ih => rw [List.replicate_succ, sum8, ih]; rfl

/-- The shortest frame (V-L11). -/
theorem good_shortest : Good 0x00 0x01 0x8A [0x75] := ⟨⟨by decide, by decide, by decide⟩, by decide⟩

/-- A frame of the largest declared size. -/
theorem good_longest : Good 0xFF 0xF0 0xFF (List.replicate 65520 0) :=
  ⟨⟨by decide, by decide, by rw [List.length_replicate]; rfl⟩, by rw [sum8_zeros]; rfl⟩

theorem good_fRx : Good 0x00 0x0E 0x90 (fRx.drop 4) := ⟨⟨by decide, by decide, by decide⟩, by decide⟩

theorem bad_shortest : Bad 0x00 0x01 0x8A [0x76] := ⟨⟨by decide, by decide, by decide⟩, by decide⟩

theorem witness_PayloadIsAttachedOnce :
    (Instr.reqcpy (List.replicate 65535 0)).wellFormed = true ∧ (Instr.reqtake []).wellFormed = true ∧
    State.reset.req.opened = false ∧
    ((requesting 0 0 []).req.opened = true ∧ (requesting 0 0 []).req.isSet = true) ∧
    (opened.req.opened = true ∧ opened.req.isSet = false) :=
  ⟨test_wellFormed_longest_payload, by decide, by decide, by decide, by decide⟩

theorem witness_EncodedFrameBytes :
    14 + ([] : List Byte).length ≤ 65535 ∧ 14 + (List.replicate 65521 (0 : Byte)).length ≤ 65535 :=
  ⟨by decide, by rw [List.length_replicate]⟩

theorem witness_EncodedFrameLaws : ([] : List Byte).length ≤ 65521 ∧ (List.replicate 65521 (0 : Byte)).length ≤ 65521 :=
  ⟨by decide, by rw [List.length_replicate]⟩

theorem witness_EncodeReturnsFrame :
    State.reset.req.opened = false ∧ opened.req.isSet = false ∧
    ((longRequest 65522).req.opened = true ∧ (longRequest 65522).req.isSet = true ∧
      14 + (longRequest 65522).req.len.toNat > 65535) ∧
    ((longRequest 65521).req.opened = true ∧ (longRequest 65521).req.isSet = true ∧
      14 + (longRequest 65521).req.len.toNat ≤ 65535) := by decide

theorem witness_SendAppendsFrame :
    State.reset.cfg.attached = false ∧ ((streaming []).cfg.attached = true ∧ (streaming []).req.opened = false) ∧
    ((longRequest 65522).cfg.attached = true ∧ 14 + (longRequest 65522).req.len.toNat > 65535) ∧
    ((longRequest 65521).cfg.attached = true ∧ (longRequest 65521).req.opened = true ∧
      (longRequest 65521).req.isSet = true ∧ 14 + (longRequest 65521).req.len.toNat ≤ 65535) := by decide

theorem witness_EncodingIsPure :
    (Instr.send = .encode ∨ Instr.send = .send) ∧ (Instr.encode = .encode ∨ Instr.encode = .send) ∧
    (streaming fRx).req = (streaming []).req ∧ (streaming fRx).cfg = (streaming []).cfg ∧ streaming fRx ≠ streaming [] := by
  refine ⟨.inr rfl, .inl rfl, rfl, rfl, fun h => ?_⟩
  have := congrArg (fun s => s.env.inbound) h
  revert this; decide

theorem witness_TxframeSendsFrame :
    (List.replicate 65521 (0 : Byte)).length ≤ 65521 ∧ 65521 < (List.replicate 65522 (0 : Byte)).length ∧
    (List.replicate 65535 (0 : Byte)).length ≤ 65535 ∧ (streaming []).cfg.attached = true ∧
    State.reset.cfg.attached = false :=
  ⟨by rw [List.length_replicate], by rw [List.length_replicate]; decide, by rw [List.length_replicate], by decide,
    by decide⟩

theorem inv_slotted : Inv (slotted 0x90 (fRx.drop 4)) :=
  ⟨by constructor <;> decide, by constructor <;> decide, by unfold LatestInv; decide, by constructor <;> decide⟩

theorem witness_ScalarAccessorsReadTheSlot :
    ((slotted 0x90 (fRx.drop 4)).lat.valid = true ∧ Inv (slotted 0x90 (fRx.drop 4))) ∧ State.reset.lat.valid = false :=
  ⟨⟨by decide, inv_slotted⟩, by decide⟩

theorem witness_LpayldReturnsPayload : (slotted 0x8A [0x75]).lat.valid = true ∧ State.reset.lat.valid = false := by decide

theorem witness_LsaddrReturnsFirstEightBytes :
    State.reset.lat.valid = false ∧
    ((slotted 0x90 [1, 2, 3, 4, 5, 6, 7, 0x53]).lat.valid = true ∧
      (slotted 0x90 [1, 2, 3, 4, 5, 6, 7, 0x53]).lat.size.toNat < 9) ∧
    ((slotted 0x90 [1, 2, 3, 4, 5, 6, 7, 8, 0x4B]).lat.valid = true ∧
      9 ≤ (slotted 0x90 [1, 2, 3, 4, 5, 6, 7, 8, 0x4B]).lat.size.toNat) := by decide

theorem witness_LappdatStripsPrefixAndChecksum :
    State.reset.lat.valid = false ∧
    ((slotted 0x90 (List.replicate 12 7)).lat.valid = true ∧ (slotted 0x90 (List.replicate 12 7)).lat.size.toNat ≤ 12) ∧
    ((slotted 0x90 (List.replicate 13 7)).lat.valid = true ∧ 12 < (slotted 0x90 (List.replicate 13 7)).lat.size.toNat) := by
  decide

theorem witness_EmptySlotIsRefused : FullSlotAccessor .lappdat ∧ State.reset.lat.valid = false :=
  ⟨by simp [FullSlotAccessor], by decide⟩

theorem witness_AccessorsChangeNothing :
    (Instr.lvalid = .lvalid ∨ FullSlotAccessor .lvalid) ∧ (Instr.lapi = .lvalid ∨ FullSlotAccessor .lapi) := by
  simp [FullSlotAccessor]

theorem witness_BeginSizeAssemblesSize :
    (midFrame 1 0 0 0 0 []).acc.sizePhase = false ∧ (midFrame 2 0xFF 0 0 0 []).acc.sizePhase = true := by decide

theorem witness_WriteAtStoresOneByte :
    ((midFrame 4 0 1 0 0 []).acc.alloc = true ∧ (0 : U16).toNat < (midFrame 4 0 1 0 0 []).acc.size.toNat) ∧
    (midFrame 2 0 1 0 0 []).acc.alloc = false ∧
    ((midFrame 4 0 1 0 0 []).acc.alloc = true ∧ (midFrame 4 0 1 0 0 []).acc.size.toNat ≤ (1 : U16).toNat) := by decide

theorem witness_HostMicroOpsAreRefused : HostMicroOp (.beginSize .port) ∧ HostMicroOp (.isComplete .port) := by
  simp [HostMicroOp]

theorem witness_IdleStepWaitsForDelimiter :
    (streaming []).p.counter = 0 ∧ (0x7E : Byte) = 0x7E ∧ (0x7D : Byte) ≠ 0x7E := by decide

theorem witness_LenHiStepTakesHighByte :
    (midFrame 1 0 0 0 0 []).p.counter = 1 ∧ (midFrame 1 0 0 0 0 []).acc.sizePhase = false := by decide

/-- Size bytes `FF F1`, `00 00`, `00 01` and `FF F0`. -/
theorem witness_LenLoStepTestsSize :
    ((midFrame 2 0xFF 0 0 0 []).p.counter = 2 ∧ (midFrame 2 0xFF 0 0 0 []).acc.sizePhase = true) ∧
    (midFrame 2 0xFF 0 0 0 []).acc.size.toNat / 256 * 256 + (0xF1 : Byte).toNat > 65520 ∧
    (midFrame 2 0x00 0 0 0 []).acc.size.toNat / 256 * 256 + (0x00 : Byte).toNat = 0 ∧
    1 ≤ (midFrame 2 0x00 0 0 0 []).acc.size.toNat / 256 * 256 + (0x01 : Byte).toNat ∧
    (midFrame 2 0xFF 0 0 0 []).acc.size.toNat / 256 * 256 + (0xF0 : Byte).toNat ≤ 65520 := by decide

theorem witness_ApiStepRecordsApiId : (midFrame 3 0 14 0 0 []).p.counter = 3 := by decide

/-- The first and the last byte before the completing one. -/
theorem witness_BodyStepStoresByte :
    (4 ≤ (midFrame 4 0 14 0 0 []).p.counter.toNat ∧
      (midFrame 4 0 14 0 0 []).p.counter.toNat < (midFrame 4 0 14 0 0 []).acc.size.toNat + 3 ∧
      (midFrame 4 0 14 0 0 []).acc.alloc = true ∧ (midFrame 4 0 14 0 0 []).acc.size.toNat ≤ 65520) ∧
    (midFrame 65522 0xFF 0xF0 0 0 []).p.counter.toNat < (midFrame 65522 0xFF 0xF0 0 0 []).acc.size.toNat + 3 := by decide

/-- Both outcomes, at the smallest size, and the largest. -/
theorem witness_CompletingStepPromotesOrDrops :
    (4 ≤ (midFrame 4 0 1 0x8A 0x8A []).p.counter.toNat ∧
      (midFrame 4 0 1 0x8A 0x8A []).p.counter.toNat = (midFrame 4 0 1 0x8A 0x8A []).acc.size.toNat + 3 ∧
      (midFrame 4 0 1 0x8A 0x8A []).acc.alloc = true) ∧
    (midFrame 4 0 1 0x8A 0x8A []).acc.csum + 0x75 = 0xFF ∧ (midFrame 4 0 1 0x8A 0x8A []).acc.csum + 0x76 ≠ 0xFF ∧
    (midFrame 65523 0xFF 0xF0 0 0 []).p.counter.toNat = (midFrame 65523 0xFF 0xF0 0 0 []).acc.size.toNat + 3 := by decide

theorem witness_CounterAdvances :
    (Inv (streaming []) ∧ ∃ t, byteStep 0x7E 5 (streaming []) = .next (t, .none)) ∧
    (Inv (midFrame 1 0 0 0 0 []) ∧ ∃ t, byteStep 0x00 5 (midFrame 1 0 0 0 0 []) = .next (t, .none)) ∧
    (Inv (midFrame 2 0xFF 0 0 0 []) ∧ ∃ t, byteStep 0xF1 5 (midFrame 2 0xFF 0 0 0 []) = .next (t, .tooLarge)) ∧
    (Inv (midFrame 3 0 14 0 0 []) ∧ ∃ t, byteStep 0x90 5 (midFrame 3 0 14 0 0 []) = .next (t, .none)) ∧
    (Inv (midFrame 5 0 14 0x90 0x90 [0]) ∧ ∃ t, byteStep 0x13 5 (midFrame 5 0 14 0x90 0x90 [0]) = .next (t, .none)) ∧
    (Inv (midFrame 4 0 1 0x8A 0x8A []) ∧ ∃ t, byteStep 0x75 5 (midFrame 4 0 1 0x8A 0x8A []) = .next (t, .valid)) :=
  ⟨⟨inv_streaming [], _, rfl⟩, ⟨inv_lenHi, _, rfl⟩, ⟨inv_lenLo, _, rfl⟩, ⟨inv_api, _, rfl⟩, ⟨inv_body, _, rfl⟩,
    ⟨inv_completing, _, rfl⟩⟩

theorem witness_ByteStepIsTotal : Inv (midFrame 5 0 14 0x90 0x90 [0x00]) := inv_body

theorem witness_DetachedPollIsInvalid : (State.reset.setInbound fRx).cfg.attached = false := by decide

theorem witness_PollAlwaysAnswers : Inv (streaming fRx) := inv_streaming fRx

/-- Idle, at the deadline and one past it. -/
theorem witness_EmptyPollChecksDeadline :
    ((streaming []).cfg.attached = true ∧ (streaming []).env.inbound = [] ∧ (streaming []).p.counter = 0) ∧
    ((midFrame 2 0 0 0 0 []).cfg.attached = true ∧ (midFrame 2 0 0 0 0 []).env.inbound = [] ∧
      (midFrame 2 0 0 0 0 []).p.counter ≠ 0) ∧
    (1101 : U32).toNat > (midFrame 2 0 0 0 0 []).p.deadline.toNat ∧
    (1100 : U32).toNat ≤ (midFrame 2 0 0 0 0 []).p.deadline.toNat := by decide

theorem witness_PollReportsOneOutcome :
    (streaming fRx).cfg.attached = true ∧ ∃ t, exec (.poll 100) (streaming fRx) = .next t :=
  ⟨by decide, _, rfl⟩

theorem witness_NoTimeoutInTheStartingPoll :
    ((streaming []).p.counter = 0 ∧ ∃ t, drain 7 [0x41, 0x7E, 0x00] 0 (streaming []) = .next t) ∧
    ∃ t, exec (.poll 1101) (midFrame 2 0 0 0 0 []) = .next t ∧
      t.env.responses = (midFrame 2 0 0 0 0 []).env.responses ++ [pollResponse 0x04 0] :=
  ⟨⟨by decide, _, rfl⟩, _, rfl, by decide⟩

/-- A POLL that starts in mid-frame and reads two bytes of it, one that completes the frame, and one that starts idle. -/
theorem witness_PollDrainsByteByByte :
    (Inv ((midFrame 5 0 14 0x90 0x90 [0x00]).setInbound [0x13, 0xA2]) ∧
      ((midFrame 5 0 14 0x90 0x90 [0x00]).setInbound [0x13, 0xA2]).cfg.attached = true) ∧
    (Inv ((midFrame 5 0 14 0x90 0x90 [0x00]).setInbound (fRx.drop 5)) ∧
      ((midFrame 5 0 14 0x90 0x90 [0x00]).setInbound (fRx.drop 5)).cfg.attached = true) ∧
    (Inv (streaming fRx) ∧ (streaming fRx).cfg.attached = true) :=
  ⟨⟨inv_congr inv_body rfl rfl rfl rfl, by decide⟩, ⟨inv_congr inv_body rfl rfl rfl rfl, by decide⟩, inv_streaming fRx, by decide⟩

/-- The same two bytes at the deadline and one past it (R178 to R180): InProgress with the frame kept, then Timeout. -/
theorem test_poll_reads_part_of_a_frame :
    after (fun t => (t.p.counter, t.acc.csum)) (exec (.poll 1100) ((midFrame 5 0 14 0x90 0x90 [0x00]).setInbound [0x13, 0xA2])) =
      some (7, 0x45) ∧
    answers (exec (.poll 1100) ((midFrame 5 0 14 0x90 0x90 [0x00]).setInbound [0x13, 0xA2])) =
      [[0x00, 0x01, 0x00, 0x00, 0x00, 0x02]] ∧
    answers (exec (.poll 1101) ((midFrame 5 0 14 0x90 0x90 [0x00]).setInbound [0x13, 0xA2])) =
      [[0x00, 0x04, 0x00, 0x00, 0x00, 0x02]] := by decide

theorem witness_WellFormedFrameIsAccepted :
    (streaming ([0x00, 0x41] ++ frame 0x00 0x01 0x8A [0x75] ++ [0x7E])).cfg.attached = true ∧
    (streaming ([0x00, 0x41] ++ frame 0x00 0x01 0x8A [0x75] ++ [0x7E])).p.counter = 0 ∧
    (∀ b ∈ ([0x00, 0x41] : List Byte), b ≠ 0x7E) ∧ Good 0x00 0x01 0x8A [0x75] ∧
    Good 0xFF 0xF0 0xFF (List.replicate 65520 0) :=
  ⟨by decide, by decide, by decide, good_shortest, good_longest⟩

theorem witness_EncodedFrameIsAccepted :
    (streaming (encodeFrame 0x0013A200 0x41BDFAFB [0x41] ++ [])).cfg.attached = true ∧
    (streaming (encodeFrame 0x0013A200 0x41BDFAFB [0x41] ++ [])).p.counter = 0 ∧
    (List.replicate 65506 (0 : Byte)).length ≤ 65506 :=
  ⟨by decide, by decide, by rw [List.length_replicate]⟩

theorem witness_BadChecksumIsDroppedSilently :
    (streaming (frame 0x00 0x01 0x8A [0x76])).cfg.attached = true ∧
    (streaming (frame 0x00 0x01 0x8A [0x76])).p.counter = 0 ∧ Bad 0x00 0x01 0x8A [0x76] ∧
    Good 0x00 0x0E 0x90 (fRx.drop 4) ∧
    (streaming (frame 0x00 0x01 0x8A [0x76] ++ frame 0x00 0x0E 0x90 (fRx.drop 4) ++ [])).env.inbound =
      frame 0x00 0x01 0x8A [0x76] ++ fRx :=
  ⟨by decide, by decide, bad_shortest, good_fRx, by decide⟩

theorem witness_ZeroLengthIsDroppedSilently :
    (streaming ([0x7E, 0x00, 0x00] ++ frame 0x00 0x0E 0x90 (fRx.drop 4) ++ [])).cfg.attached = true ∧
    (streaming ([0x7E, 0x00, 0x00] ++ frame 0x00 0x0E 0x90 (fRx.drop 4) ++ [])).p.counter = 0 ∧
    Good 0x00 0x0E 0x90 (fRx.drop 4) :=
  ⟨by decide, by decide, good_fRx⟩

theorem witness_OversizeIsRejected :
    (streaming ([0x7E, 0xFF, 0xF1] ++ fRx)).cfg.attached = true ∧ (streaming ([0x7E, 0xFF, 0xF1] ++ fRx)).p.counter = 0 ∧
    declared 0xFF 0xF1 > 65520 ∧ Good 0x00 0x0E 0x90 (fRx.drop 4) ∧
    fRx = frame 0x00 0x0E 0x90 (fRx.drop 4) ++ [] :=
  ⟨by decide, by decide, by decide, good_fRx, by decide⟩

/-- V-P8b's split, and the shortest first and second parts. -/
theorem witness_SplitFrameCompletesInLaterPoll :
    ((streaming (fRx.take 5)).cfg.attached = true ∧ (streaming (fRx.take 5)).p.counter = 0 ∧
      Good 0x00 0x0E 0x90 (fRx.drop 4) ∧ fRx.take 5 ≠ [] ∧ fRx.drop 5 ≠ [] ∧
      frame 0x00 0x0E 0x90 (fRx.drop 4) = fRx.take 5 ++ fRx.drop 5) ∧
    frame 0x00 0x01 0x8A [0x75] = [0x7E] ++ [0x00, 0x01, 0x8A, 0x75] ∧
    frame 0x00 0x01 0x8A [0x75] = [0x7E, 0x00, 0x01, 0x8A] ++ [0x75] :=
  ⟨⟨by decide, by decide, good_fRx, by decide, by decide, by decide⟩, by decide, by decide⟩

theorem witness_ErrorResponsesHaveTheirCause :
    Instr.send.wellFormed = true ∧ ∃ t, exec .send State.reset = .next t :=
  ⟨rfl, _, rfl⟩

theorem witness_ElementsHaveTheirWriters :
    (Instr.poll 100).wellFormed = true ∧ ∃ t, exec (.poll 100) (streaming fRx) = .next t :=
  ⟨rfl, _, rfl⟩

/-- Both ends of the internal opcodes, and of each reserved range. -/
theorem witness_RefusedOpcodesAreOneByte :
    ((porting [0x80]).env.port = 0x80 :: [] ∧ (0x80 : Byte) ≤ 0x80 ∧ (0x80 : Byte) ≤ 0x84) ∧
    ((0x80 : Byte) ≤ 0x84 ∧ (0x84 : Byte) ≤ 0x84) ∧
    ∀ op ∈ ([0x00, 0x04, 0x0F, 0x15, 0x1F, 0x21, 0x2F, 0x38, 0x7F, 0x85, 0xFF] : List Byte), Reserved op := by
  unfold Reserved; decide

theorem witness_StepRunsDecodedCommand : decode (porting [0x20, 0, 0, 0, 7, 0x30]).env.port = .instr (.poll 7) [0x30] := by
  decide

theorem witness_PortHoldsUntilComplete :
    (Instr.reqcpy [0x41]).wellFormed = true ∧ (porting [0x11, 0x00, 0x01, 0x41]).env.port = encode (.reqcpy [0x41]) ++ [] ∧
    (3 < (encode (.reqcpy [0x41])).length ∧ (porting [0x11, 0x00, 0x01]).env.port = (encode (.reqcpy [0x41])).take 3 ∧
      (porting [0x11, 0x00, 0x01]).env.agenda = []) := by decide

theorem witness_HostMovesTouchOnlyTheEnvironment :
    (decode ((streaming []).setAgenda [.arrive fRx]).env.port = .incomplete ∧
      ∃ t, step ((streaming []).setAgenda [.arrive fRx]) = .next t) ∧
    (decode ((porting [0x11, 0]).setAgenda [.issue [1, 0x41, 0x13]]).env.port = .incomplete ∧
      ((porting [0x11, 0]).setAgenda [.issue [1, 0x41, 0x13]]).env.agenda = .issue [1, 0x41, 0x13] :: [] ∧
      ∃ t, step ((porting [0x11, 0]).setAgenda [.issue [1, 0x41, 0x13]]) = .next t) :=
  ⟨⟨by decide, _, rfl⟩, by decide, rfl, _, rfl⟩

theorem witness_StreamIsFirstInFirstOut :
    ((streaming []).setAgenda [.arrive fRx]).env.port = [] ∧
    ((streaming []).setAgenda [.arrive fRx]).env.agenda = .arrive fRx :: [] ∧
    ((streaming []).setAgenda [.loopback 0]).env.agenda = .loopback 0 :: [] := by decide

theorem witness_ClockNeverGoesBack : ∃ t, step (State.reset.setAgenda [.tick 0xFFFFFFFF]) = .next t := ⟨_, rfl⟩

theorem witness_DecodeInvertsEncode :
    (Instr.reqtake (List.replicate 65535 0)).wellFormed = true ∧ (Instr.writeAt .port).wellFormed = true :=
  ⟨by rw [Instr.wellFormed, List.length_replicate]; rfl, rfl⟩

theorem witness_DecodedBytesAreTheEncoding : decode [0x12, 0x00, 0x01, 0x41, 0x30] = .instr (.reqtake [0x41]) [0x30] := by
  decide

theorem witness_StepKeepsInvariant :
    Inv ((streaming fRx).setPort [0x20, 0x00, 0x00, 0x00, 0x64]) ∧
    OneCommand ((streaming fRx).setPort [0x20, 0x00, 0x00, 0x00, 0x64]) ∧
    (∃ t, step ((streaming fRx).setPort [0x20, 0x00, 0x00, 0x00, 0x64]) = .next t) ∧
    OneCommand (State.reset.setAgenda [.issue [0x13, 0x14]]) ∧ ∃ t, step (State.reset.setAgenda [.issue [0x13, 0x14]]) = .next t :=
  ⟨inv_congr (inv_streaming fRx) rfl rfl rfl rfl, rfl, ⟨_, rfl⟩, trivial, _, rfl⟩

theorem witness_NoRunEverStops :
    Inv ((streaming fRx).setAgenda [.tick 0xFFFFFFFF]) ∧ ClockHasRoom ((streaming fRx).setAgenda [.tick 0xFFFFFFFF]) :=
  ⟨inv_congr (inv_streaming fRx) rfl rfl rfl rfl, by unfold ClockHasRoom; decide⟩

/-- Two states that differ in every element that reset leaves unspecified. -/
theorem witness_UnspecifiedElementsAreNeverRead :
    ∃ s t s' : State, Inv s ∧ Inv t ∧ SameSpecified s t ∧ s ≠ t ∧ step s = .next s' :=
  ⟨streaming [],
    { streaming [] with
      p := { counter := 0, deadline := 9 }
      acc := { apiId := 1, csum := 2, sizeHigh := 3, sizeLow := 4, sizePhase := true, alloc := true
               pay := { cells := [(0, 5)], draw := 6 } }
      lat := { valid := false, apiId := 1, csum := 2, size := 3, pay := { cells := [(0, 5)], draw := 6 } }
      req := { opened := false, addrHi := 1, addrLo := 2, isSet := false, len := 0, pay := { cells := [(0, 5)], draw := 6 } }
      draws := 9 },
    streaming [], inv_streaming [],
    ⟨by constructor <;> decide, by constructor <;> decide, fun h => (by cases h), by constructor <;> decide⟩,
    by constructor <;> decide, by decide, rfl⟩

theorem witness_DeadlineStaysWithinReach :
    PollsWithReading ((streaming [0x7E]).setPort [0x20, 0, 0, 0, 0]) ∧
    DeadlineWithinReach ((streaming [0x7E]).setPort [0x20, 0, 0, 0, 0]) ∧
    ∃ t, step ((streaming [0x7E]).setPort [0x20, 0, 0, 0, 0]) = .next t := by
  refine ⟨fun now rest h => ?_, fun h => absurd rfl h, _, rfl⟩
  have : decode ((streaming [0x7E]).setPort [0x20, 0, 0, 0, 0]).env.port = .instr (.poll 0) [] := by decide
  rw [this] at h
  cases h; rfl

end Sys2Proof.Tests
end

section

namespace Sys2Proof.Machine

/-- A step with a whole command on the port (30_encoding.md R88): the third case beside `step_incomplete` and
`step_reserved`. -/
theorem step_instr {s : State} {i : Instr} {rest : List Byte} (h : decode s.env.port = .instr i rest) :
    step s = exec i (s.setPort rest) := by
  show portStep s = _
  rw [portStep, h]

end Sys2Proof.Machine

namespace Sys2Proof.Statements

open Sys2Proof.Machine

/-- Settles O48: the model's `State.setPort` is the update that the statement writes out. -/
theorem stepRunsDecodedCommand : Obligations.StepRunsDecodedCommand :=
  fun _ _ _ => step_instr

end Sys2Proof.Statements
end

section

/-! ## How the parser's counter advances (10_state.md R37) -/

namespace Sys2Proof.Machine

open Sys2Proof.Safety Sys2Proof.Statements

/-- The size that the low length byte completes is the declared size of the two bytes (30_encoding.md R79). -/
theorem toNat_beginSize_low_eq_declared {a : Acc} (h : a.sizePhase = true) (b : Byte) :
    (a.beginSize b).size.toNat = declared a.sizeHigh b := by
  rw [beginSize_low h, toNat_size]; rfl

section
variable {b : Byte} {now : U32} {s t : State} {e : StepEvent} (h : byteStep b now s = .next (t, e))
include h

theorem byteStep_counter_of_idle (h0 : s.p.counter = 0) : t.p.counter = if b = 0x7E then 1 else 0 := by
  by_cases hb : b = Config.start
  · subst hb
    rw [byteStep_idle_start h0] at h; cases h
    rfl
  · rw [byteStep_idle_other h0 hb] at h; cases h
    exact h0.trans (if_neg hb).symm

theorem byteStep_counter_of_lenHi (h1 : s.p.counter = 1) : t.p.counter = 2 := by
  rw [byteStep_lenHi h1] at h; cases h
  rfl

/-- The two tests of R164 are one test on the declared size. -/
theorem byteStep_counter_of_lenLo (hi : Inv s) (h2 : s.p.counter = 2) :
    t.p.counter = if declared s.acc.sizeHigh b = 0 ∨ 65520 < declared s.acc.sizeHigh b then 0 else 3 := by
  have hd := toNat_beginSize_low_eq_declared (hi.parser.lenLo h2).1 b
  rw [byteStep_lenLo h2] at h
  split at h
  · rename_i hbig
    cases h
    exact (if_pos (.inr (hd ▸ hbig))).symm
  · rename_i hle
    split at h
    · rename_i hzero
      cases h
      exact (if_pos (.inl (by rw [← hd, hzero]; rfl))).symm
    · rename_i hne
      cases h
      have hne' : declared s.acc.sizeHigh b ≠ 0 := fun hz => hne (BitVec.eq_of_toNat_eq (hd.trans hz))
      exact (if_neg (not_or.2 ⟨hne', hd ▸ hle⟩)).symm

theorem byteStep_counter_of_api (h3 : s.p.counter = 3) : t.p.counter = 4 := by
  rw [byteStep_api h3] at h; cases h
  rfl

/-- The counter does not wrap: it is below `ACC.size + 3`, and `ACC.size` at most 65520 (42_parser.md R171). -/
theorem byteStep_counter_of_body (hi : Inv s) (h4 : 4 ≤ s.p.counter.toNat)
    (hlt : s.p.counter.toNat < s.acc.size.toNat + 3) : t.p.counter.toNat = s.p.counter.toNat + 1 := by
  obtain ⟨-, halloc, -, hmax, -⟩ := hi.parser.sized (by omega)
  rw [byteStep_body h4 hlt halloc] at h; cases h
  have hnowrap : s.p.counter.toNat + 1 < 2 ^ 16 := by simp only [Config.maxPayload] at hmax; omega
  exact BitVec.toNat_add_of_lt hnowrap

theorem byteStep_counter_of_complete (hi : Inv s) (h4 : 4 ≤ s.p.counter.toNat)
    (heq : s.p.counter.toNat = s.acc.size.toNat + 3) : t.p.counter = 0 := by
  obtain ⟨-, halloc, -⟩ := hi.parser.sized (by omega)
  rw [byteStep_complete h4 heq halloc] at h
  split at h <;> cases h <;> rfl

end

end Sys2Proof.Machine

namespace Sys2Proof.Statements

open Sys2Proof.Machine

/-- Settles O31, state by state of the parser. -/
theorem counterAdvances : Obligations.CounterAdvances :=
  fun _ _ _ _ _ hi h =>
    ⟨byteStep_counter_of_idle h, byteStep_counter_of_lenHi h, byteStep_counter_of_lenLo h hi,
      byteStep_counter_of_api h, byteStep_counter_of_body h hi, byteStep_counter_of_complete h hi⟩

end Sys2Proof.Statements
end

section

/-! ## Everything a command of the port can do (10_state.md R36) -/

namespace Sys2Proof.Machine

open Sys2Proof.Statements

/-- If the outcome goes on, it is `s` with one response more. -/
def OnlyAnswers (s : State) (o : Host.Outcome State Fault Refusal) : Prop :=
  ∀ t, o = .next t → ∃ c d, t = s.respond c d

theorem onlyAnswers_respond (s : State) (c : RespCode) (d : List Byte) : OnlyAnswers s (.next (s.respond c d)) := by
  intro t h; cases h
  exact ⟨c, d, rfl⟩

theorem onlyAnswers_raise (s : State) (c : RespCode) : OnlyAnswers s (.next (s.raise c)) :=
  onlyAnswers_respond s c []

theorem onlyAnswers_onFullSlot {s : State} {k : Host.Outcome State Fault Refusal} (hk : OnlyAnswers s k) :
    OnlyAnswers s (onFullSlot s k) := by
  unfold onFullSlot
  split
  · exact onlyAnswers_raise s _
  · exact hk

theorem onlyAnswers_withLatestBytes (s : State) (start count : Nat) (c : RespCode) (d : List Byte → List Byte) :
    OnlyAnswers s (withLatestBytes s start count fun bs => s.respond c (d bs)) := by
  intro t h
  obtain ⟨bs, -, ht⟩ := andThen_eq_next.1 h
  exact onlyAnswers_respond s c (d bs) t ht

theorem onlyAnswers_withFrame {s : State} {k : List Byte → Host.Outcome State Fault Refusal}
    (hk : ∀ f, OnlyAnswers s (k f)) : OnlyAnswers s (withFrame s k) := by
  rw [withFrame_eq]
  split
  · exact onlyAnswers_raise s _
  split
  · exact onlyAnswers_raise s _
  · exact hk _

theorem onlyAnswers_execEncode (s : State) : OnlyAnswers s (execEncode s) :=
  onlyAnswers_withFrame fun _ => onlyAnswers_respond s _ _

theorem onlyAnswers_execLsaddr (s : State) : OnlyAnswers s (execLsaddr s) := by
  refine onlyAnswers_onFullSlot ?_
  split
  · exact onlyAnswers_raise s _
  · exact onlyAnswers_withLatestBytes s _ _ _ _

theorem onlyAnswers_execLappdat (s : State) : OnlyAnswers s (execLappdat s) := by
  refine onlyAnswers_onFullSlot ?_
  split
  · exact onlyAnswers_respond s _ _
  · exact onlyAnswers_withLatestBytes s _ _ _ _

/-- A micro-operation on the port answers ERR_INTERNAL (30_encoding.md R87). -/
theorem onlyAnswers_microOp {α : Type} {op : MicroIssue α} (hop : op.fromPort = true) (s : State)
    (f : α → Host.Outcome State Fault Refusal) : OnlyAnswers s (microOp op s f) := by
  cases op with
  | port => exact onlyAnswers_raise s _
  | parser x => cases hop

/-- SEND's one effect besides its response is on the outbound side. -/
theorem execSend_cases {s t : State} (h : execSend s = .next t) :
    (∃ c d, t = s.respond c d) ∨ ∃ f, t = (s.streamWrite f).respond .ok [] := by
  rw [execSend, withFrame_eq] at h
  split at h
  · exact .inl (onlyAnswers_raise s _ t h)
  split at h
  · exact .inl (onlyAnswers_raise s _ t h)
  split at h
  · exact .inl (onlyAnswers_raise s _ t h)
  · cases h; exact .inr ⟨_, rfl⟩

theorem pollFrame_respondPoll {s u : State} (h : PollFrame s u) (st : PollStatus) (n : U32) :
    PollFrame s (u.respondPoll st n) := h

theorem pollFrame_finishPoll {s u : State} (h : PollFrame s u) (now n : U32) : PollFrame s (finishPoll now n u) := by
  unfold finishPoll
  split
  · exact h
  split
  · exact h
  · exact h

/-- The byte step keeps POLL's frame, so the drain does. -/
theorem execPoll_frame {now : U32} {s t : State} (h : execPoll now s = .next t) : PollFrame s t := by
  unfold execPoll at h
  split at h
  · cases h
    exact ⟨rfl, rfl, rfl, rfl, rfl, rfl⟩
  · have hstep : ∀ (b : Byte) (u v : State) (e : StepEvent), PollFrame s u → byteStep b now u = .next (v, e) →
        PollFrame s v := by
      intro b u v e hu hv
      obtain ⟨hcfg, hreq, henv, -⟩ := byteStep_frame hv
      unfold PollFrame
      rwa [hcfg, hreq, henv]
    obtain ⟨_, _, u, -, hu, -, -, ⟨-, rfl⟩ | ⟨_, _, _, -, -, -, rfl, -⟩ | ⟨_, _, _, -, -, -, rfl, -⟩⟩ :=
      drain_induction h (P := PollFrame s) ⟨rfl, rfl, rfl, rfl, rfl, rfl⟩ (fun _ _ hu => hu) hstep
    · exact pollFrame_finishPoll hu _ _
    · exact pollFrame_respondPoll hu _ _
    · exact pollFrame_respondPoll hu _ _

/-- What a REQCPY or a REQTAKE does besides answering is a write to `REQ`. -/
theorem attachPayload_writes {data : List Byte} {s t : State} (h : attachPayload data s = .next t) :
    (∃ c d, t = s.respond c d) ∨ ∃ pay n, t = (s.setPayload pay n).respond .ok [] := by
  rcases attachPayload_cases h with ⟨-, ht⟩ | ⟨-, -, ht⟩ | ⟨-, -, -, ht⟩
  · exact .inl ⟨_, _, ht⟩
  · exact .inl ⟨_, _, ht⟩
  · exact .inr ⟨_, _, ht⟩

/-- Everything a command of the port that answers next can have done, by R36's table: POLL keeps POLL's frame, and any other
command answers and makes at most one write, to an element that it owns. -/
theorem exec_cases {i : Instr} {s t : State} (hw : i.wellFormed = true) (h : exec i s = .next t) :
    (∃ now, i = .poll now ∧ PollFrame s t) ∨
    (∃ c d, t = s.respond c d) ∨
    (∃ w, i = .settmo w ∧ t = (s.setTimeout w).respond .ok []) ∨
    (∃ b, (i = .attach ∨ i = .detach) ∧ t = (s.setAttached b).respond .ok []) ∨
    (∃ hi lo, i = .reqnew hi lo ∧ t = (s.openRequest hi lo).respond .ok []) ∨
    (∃ data pay n, (i = .reqcpy data ∨ i = .reqtake data) ∧ t = (s.setPayload pay n).respond .ok []) ∨
    (∃ f, i = .send ∧ t = (s.streamWrite f).respond .ok []) := by
  cases i with
  | settmo w => cases h; exact .inr (.inr (.inl ⟨w, rfl, rfl⟩))
  | attach => cases h; exact .inr (.inr (.inr (.inl ⟨true, .inl rfl, rfl⟩)))
  | detach => cases h; exact .inr (.inr (.inr (.inl ⟨false, .inr rfl, rfl⟩)))
  | reqnew hi lo => cases h; exact .inr (.inr (.inr (.inr (.inl ⟨hi, lo, rfl, rfl⟩))))
  | reqcpy data =>
    refine .inr ((attachPayload_writes h).imp_right fun ⟨pay, n, ht⟩ => ?_)
    exact .inr (.inr (.inr (.inl ⟨data, pay, n, .inl rfl, ht⟩)))
  | reqtake data =>
    refine .inr ((attachPayload_writes h).imp_right fun ⟨pay, n, ht⟩ => ?_)
    exact .inr (.inr (.inr (.inl ⟨data, pay, n, .inr rfl, ht⟩)))
  | encode => exact .inr (.inl (onlyAnswers_execEncode s t h))
  | send =>
    refine .inr ((execSend_cases h).imp_right fun ⟨f, ht⟩ => ?_)
    exact .inr (.inr (.inr (.inr ⟨f, rfl, ht⟩)))
  | poll now => exact .inl ⟨now, rfl, execPoll_frame h⟩
  | lvalid => exact .inr (.inl (onlyAnswers_respond s _ _ t h))
  | lapi => exact .inr (.inl (onlyAnswers_onFullSlot (onlyAnswers_respond s _ _) t h))
  | lsize => exact .inr (.inl (onlyAnswers_onFullSlot (onlyAnswers_respond s _ _) t h))
  | lpayld => exact .inr (.inl (onlyAnswers_onFullSlot (onlyAnswers_withLatestBytes s _ _ _ _) t h))
  | lcsum => exact .inr (.inl (onlyAnswers_onFullSlot (onlyAnswers_respond s _ _) t h))
  | lcompl => exact .inr (.inl (onlyAnswers_onFullSlot (onlyAnswers_respond s _ _) t h))
  | lsaddr => exact .inr (.inl (onlyAnswers_execLsaddr s t h))
  | lappdat => exact .inr (.inl (onlyAnswers_execLappdat s t h))
  | beginSize op => exact .inr (.inl (onlyAnswers_microOp hw s _ t h))
  | setApiId op => exact .inr (.inl (onlyAnswers_microOp hw s _ t h))
  | writeAt op => exact .inr (.inl (onlyAnswers_microOp hw s _ t h))
  | accCsum op => exact .inr (.inl (onlyAnswers_microOp hw s _ t h))
  | isComplete op => exact .inr (.inl (onlyAnswers_microOp hw s _ t h))

end Sys2Proof.Machine

namespace Sys2Proof.Statements

open Sys2Proof.Machine

/-- Settles O46: each write of `exec_cases` is to one element, by a command that owns it. -/
theorem elementsHaveTheirWriters : Obligations.ElementsHaveTheirWriters := by
  intro i s t hw h
  rcases exec_cases hw h with ⟨now, rfl, hcfg, hreq, hout, hport, hclock, hagenda⟩ | ⟨c, d, rfl⟩ |
    ⟨w, rfl, rfl⟩ | ⟨b, rfl | rfl, rfl⟩ | ⟨hi, lo, rfl, rfl⟩ | ⟨data, pay, n, rfl | rfl, rfl⟩ | ⟨f, rfl, rfl⟩
  · simp [hcfg, hreq, hout, hport, hclock, hagenda]
  all_goals simp

end Sys2Proof.Statements
end

section

/-! ## A step while the port holds (10_state.md R34, 60_exceptions.md R211, R212) -/

namespace Sys2Proof

/-- Bytes are left over only after a whole command. -/
theorem afterCommand_eq_nil_of_incomplete {bs : List Byte} (h : decode (firstCommand bs) = .incomplete) :
    afterCommand bs = [] := by
  rcases decode_firstCommand bs with ⟨i, hi⟩ | ⟨op, ho⟩ | ⟨-, hnil⟩
  · rw [h] at hi; cases hi
  · rw [h] at ho; cases ho
  · exact hnil

end Sys2Proof

namespace Sys2Proof.Machine

/-- FE's own elements are the same in both states, and the environment has only what a host move can do to its three
sequences: bytes added to the inbound side, and the head of the outbound side and of the responses taken. -/
def MovedOnly (s t : State) : Prop :=
  t.p = s.p ∧ t.acc = s.acc ∧ t.lat = s.lat ∧ t.cfg = s.cfg ∧ t.req = s.req ∧
    (s.env.inbound <+: t.env.inbound) ∧ (∃ n, t.env.responses = s.env.responses.drop n) ∧
    (∃ n, t.env.outbound = s.env.outbound.drop n)

theorem movedOnly_refl (s : State) : MovedOnly s s :=
  ⟨rfl, rfl, rfl, rfl, rfl, List.prefix_rfl, ⟨0, rfl⟩, ⟨0, rfl⟩⟩

theorem hostMove_movedOnly {m : HostMove} {s t : State} (h : hostMove m s = .next t) : MovedOnly s t := by
  have still := movedOnly_refl s
  cases m with
  | issue bytes => cases h; exact still
  | arrive bytes => cases h; exact ⟨rfl, rfl, rfl, rfl, rfl, List.prefix_append _ _, ⟨0, rfl⟩, ⟨0, rfl⟩⟩
  | deliver n => cases h; exact ⟨rfl, rfl, rfl, rfl, rfl, List.prefix_rfl, ⟨0, rfl⟩, ⟨n, rfl⟩⟩
  | loopback n => cases h; exact ⟨rfl, rfl, rfl, rfl, rfl, List.prefix_append _ _, ⟨0, rfl⟩, ⟨n, rfl⟩⟩
  | tick x => obtain ⟨-, rfl⟩ := tickClock_cases h; exact still
  | collect n => cases h; exact ⟨rfl, rfl, rfl, rfl, rfl, List.prefix_rfl, ⟨n, rfl⟩, ⟨0, rfl⟩⟩

/-- Whatever a step does while the port holds is a host move, or nothing. -/
theorem step_movedOnly_of_incomplete {s t : State} (hd : decode s.env.port = .incomplete) (h : step s = .next t) :
    MovedOnly s t := by
  rw [step_incomplete hd, hostTurn] at h
  split at h
  · cases h; exact movedOnly_refl s
  · rename_i ms _
    exact hostMove_movedOnly (s := s.setAgenda ms) h

/-- While the port holds, a pending issue is what the step makes. -/
theorem step_issue {s : State} (hd : decode s.env.port = .incomplete) {bytes : List Byte} {ms : List HostMove}
    (ha : s.env.agenda = .issue bytes :: ms) : step s = .next ((s.setAgenda ms).issueBytes bytes) := by
  rw [step_incomplete hd, hostTurn, ha]; rfl

end Sys2Proof.Machine

namespace Sys2Proof.Statements

open Sys2Proof.Machine

/-- Settles O50: the step is a host move, and an issue cuts the port's bytes after the first command. -/
theorem hostMovesTouchOnlyTheEnvironment : Obligations.HostMovesTouchOnlyTheEnvironment := by
  intro s t hd h
  obtain ⟨hp, hacc, hlat, hcfg, hreq, hin, hresp, hout⟩ := step_movedOnly_of_incomplete hd h
  refine ⟨hp, hacc, hlat, hcfg, hreq, hin, hresp, hout, fun bytes ms ha => ?_⟩
  rw [step_issue hd ha] at h
  cases h
  exact ⟨oneCommand_issueBytes _ _, afterCommand (s.env.port ++ bytes),
    (firstCommand_append_afterCommand _).symm, afterCommand_eq_nil_of_incomplete, withheld_eq _ _⟩

end Sys2Proof.Statements
end

section

/-! ## The byte step and POLL keep the invariant (10_state.md R21 to R29, 42_parser.md R171) -/

namespace Sys2Proof.Safety

open Sys2Proof.Machine

/-! ### What each state of the parser owes -/

theorem parserInv_lenHi {s : State} (h : s.p.counter = 1)
    (hf : s.acc.sizePhase = false ∧ s.acc.alloc = false ∧ s.acc.csum = 0) : ParserInv s := by
  refine ⟨fun _ => hf, ?_, ?_, ?_, ?_⟩ <;> intro h' <;> rw [h] at h' <;> simp at h'

theorem parserInv_lenLo {s : State} (h : s.p.counter = 2)
    (hf : s.acc.sizePhase = true ∧ s.acc.alloc = false ∧ s.acc.csum = 0) : ParserInv s := by
  refine ⟨?_, fun _ => hf, ?_, ?_, ?_⟩ <;> intro h' <;> rw [h] at h' <;> simp at h'

theorem parserInv_api {s : State} (h : s.p.counter = 3) (hphase : s.acc.sizePhase = false) (halloc : s.acc.alloc = true)
    (hpos : 1 ≤ s.acc.size.toNat) (hmax : s.acc.size.toNat ≤ Config.maxPayload) (hcsum : s.acc.csum = 0)
    (hpay : offsets s.acc.pay = []) : ParserInv s := by
  refine ⟨?_, ?_, fun _ => ⟨hphase, halloc, hpos, hmax, ?_⟩, fun _ => ⟨hcsum, hpay⟩, ?_⟩
  case refine_3 => rw [h]; exact Nat.le_add_left 3 _
  all_goals intro h'; rw [h] at h'; simp at h'

theorem parserInv_body {s : State} (h4 : 4 ≤ s.p.counter.toNat) (hphase : s.acc.sizePhase = false)
    (halloc : s.acc.alloc = true) (hpos : 1 ≤ s.acc.size.toNat)
    (hmax : s.acc.size.toNat ≤ Config.maxPayload) (hle : s.p.counter.toNat ≤ s.acc.size.toNat + 3)
    (hpay : offsets s.acc.pay = List.range (s.p.counter.toNat - 4))
    (hcsum : s.acc.csum = s.acc.apiId + sum8 (stored s.acc.pay)) : ParserInv s := by
  obtain ⟨-, h1, h2, h3⟩ := counter_ne_of_four_le h4
  exact ⟨fun h => absurd h h1, fun h => absurd h h2, fun _ => ⟨hphase, halloc, hpos, hmax, hle⟩,
    fun h => absurd h h3, fun _ => ⟨hpay, hcsum⟩⟩

/-! ### The writes of the byte step -/

/-- A write to `P` and `ACC` keeps the invariant if the parser's own part holds. -/
theorem inv_setParser {s t : State} (hi : Inv s) (hl : t.lat = s.lat) (hr : t.req = s.req) (hw : t.acc.pay.wf = true)
    (hc : ∀ i ∈ offsets t.acc.pay, i < Config.maxPayload) (hp : ParserInv t) : Inv t := by
  obtain ⟨⟨-, latWf, reqWf, -, latCap, reqCap⟩, -, latest, opened, unset, written⟩ := hi
  refine ⟨⟨hw, ?_, ?_, hc, ?_, ?_⟩, hp, ?_, ?_, ?_, ?_⟩ <;> simp only [LatestInv, hl, hr] <;> assumption

/-- Promotion keeps the invariant if the accumulator holds a whole frame whose checksum passes (42_parser.md R168). -/
theorem inv_promote {s t : State} (hi : Inv s) (hr : t.req = s.req) (hw : t.acc.pay.wf = true)
    (hpos : 1 ≤ t.acc.size.toNat) (hmax : t.acc.size.toNat ≤ Config.maxPayload)
    (hpay : offsets t.acc.pay = List.range t.acc.size.toNat)
    (hcsum : t.acc.csum = t.acc.apiId + sum8 (stored t.acc.pay)) (hff : t.acc.csum = 0xFF) : Inv t.promote := by
  obtain ⟨⟨-, -, reqWf, -, -, reqCap⟩, -, -, opened, unset, written⟩ := hi
  have hlat : t.promote.lat.pay = t.acc.pay := Memory.firstBytes_all hpay
  refine ⟨⟨rfl, ?_, ?_, by simp [unspecifiedAcc, offsets], ?_, ?_⟩, parserInv_idle rfl, fun _ => ⟨hff, hpos, hmax, ?_, ?_⟩,
    ?_, ?_, ?_⟩
  case refine_1 => rwa [hlat]
  case refine_3 =>
    rw [hlat, hpay]
    exact fun i hmem => (List.mem_range.1 hmem).trans_le hmax
  case refine_5 => rw [hlat]; exact hpay
  case refine_6 => rw [hlat]; exact hcsum
  all_goals simp only [State.promote_req, hr]; assumption

/-- Every stored BODY byte is within the capacity of `ACC.PAY` (20_memory.md R50). -/
theorem accAfterBody_cap {s : State} (hi : Inv s) (h4 : 4 ≤ s.p.counter.toNat) (b : Byte) :
    ∀ i ∈ offsets (accAfterBody s b).pay, i < Config.maxPayload := by
  obtain ⟨-, -, -, hmax, hle⟩ := hi.parser.sized (by omega)
  rw [(accAfterBody_facts hi h4 b).2.1]
  intro i hmem
  have hlt := List.mem_range.1 hmem
  omega

section
variable {s : State} (hi : Inv s)
include hi

theorem inv_createAcc (d : U33) : Inv ((s.createAcc.setDeadline d).setCounter 1) :=
  inv_setParser hi rfl rfl rfl (by simp [unspecifiedAcc, offsets]) (parserInv_lenHi rfl ⟨rfl, rfl, rfl⟩)

theorem inv_lenHi_step (h : s.p.counter = 1) (b : Byte) : Inv ((s.setAcc (s.acc.beginSize b)).setCounter 2) := by
  obtain ⟨hphase, halloc, hcsum⟩ := hi.parser.lenHi h
  rw [beginSize_high hphase]
  exact inv_setParser hi rfl rfl hi.memories.accWf hi.memories.accCap (parserInv_lenLo rfl ⟨rfl, halloc, hcsum⟩)

theorem inv_lenLo_step (h : s.p.counter = 2) {b : Byte} (hmax : (s.acc.beginSize b).size.toNat ≤ Config.maxPayload)
    (hne : (s.acc.beginSize b).size ≠ 0) : Inv ((s.setAcc (s.acc.beginSize b)).allocate.setCounter 3) := by
  obtain ⟨hphase, -, hcsum⟩ := hi.parser.lenLo h
  have hpos : 1 ≤ (s.acc.beginSize b).size.toNat :=
    Nat.one_le_iff_ne_zero.2 fun hz => hne (BitVec.eq_of_toNat_eq hz)
  rw [beginSize_low hphase] at hmax hpos ⊢
  exact inv_setParser hi rfl rfl rfl (by simp [offsets]) (parserInv_api rfl rfl rfl hpos hmax hcsum rfl)

theorem inv_api_step (h : s.p.counter = 3) (b : Byte) :
    Inv ((s.setAcc { s.acc with apiId := b, csum := s.acc.csum + b }).setCounter 4) := by
  obtain ⟨hphase, halloc, hpos, hmax, -⟩ := hi.parser.sized (by rw [h]; decide)
  obtain ⟨hcsum, hpay⟩ := hi.parser.api h
  have hcells : s.acc.pay.cells = [] := List.map_eq_nil_iff.1 hpay
  refine inv_setParser hi rfl rfl hi.memories.accWf hi.memories.accCap
    (parserInv_body (Nat.le_refl 4) hphase halloc hpos hmax (Nat.add_le_add_right hpos 3) hpay ?_)
  simp [hcsum, stored, hcells, sum8]

theorem inv_body_step (h4 : 4 ≤ s.p.counter.toNat) (hlt : s.p.counter.toNat < s.acc.size.toNat + 3) (b : Byte) :
    Inv ((s.setAcc (accAfterBody s b)).setCounter (s.p.counter + 1)) := by
  obtain ⟨hphase, halloc, hpos, hmax, -⟩ := hi.parser.sized (by omega)
  obtain ⟨hwf, hpay, hcsum⟩ := accAfterBody_facts hi h4 b
  have hnowrap : s.p.counter.toNat + 1 < 2 ^ 16 := by simp only [Config.maxPayload] at hmax; omega
  have hc : (s.p.counter + 1).toNat = s.p.counter.toNat + 1 := BitVec.toNat_add_of_lt hnowrap
  have hoff : (s.p.counter + 1).toNat - 4 = s.p.counter.toNat - 4 + 1 := by omega
  exact inv_setParser hi rfl rfl hwf (accAfterBody_cap hi h4 b)
    (parserInv_body (hc ▸ Nat.le_succ_of_le h4) hphase halloc hpos hmax (hc ▸ hlt) (hpay.trans (hoff ▸ rfl)) hcsum)

theorem inv_complete_step (h4 : 4 ≤ s.p.counter.toNat) (heq : s.p.counter.toNat = s.acc.size.toNat + 3) {b : Byte}
    (hff : s.acc.csum + b = 0xFF) : Inv (s.setAcc (accAfterBody s b)).promote := by
  obtain ⟨-, -, hpos, hmax, -⟩ := hi.parser.sized (by omega)
  obtain ⟨hwf, hpay, hcsum⟩ := accAfterBody_facts hi h4 b
  have hwhole : s.p.counter.toNat - 4 + 1 = s.acc.size.toNat := by omega
  exact inv_promote hi rfl hwf hpos hmax (hpay.trans (hwhole ▸ rfl)) hcsum hff

/-- The byte step keeps the invariant, state by state of the parser (42_parser.md R171). -/
theorem byteStep_inv {b : Byte} {now : U32} {t : State} {e : StepEvent} (h : byteStep b now s = .next (t, e)) : Inv t := by
  rcases byteStep_cases h with ⟨-, -, -, rfl⟩ | ⟨-, -, -, rfl⟩ | ⟨h1, -, rfl⟩ | ⟨-, -, -, rfl⟩ | ⟨-, -, -, rfl⟩ |
    ⟨h2, hmax, hne, -, rfl⟩ | ⟨h3, -, rfl⟩ | ⟨h4, hlt, -, -, rfl⟩ | ⟨h4, heq, -, hff, -, rfl⟩ | ⟨-, -, -, -, -, rfl⟩
  · exact inv_createAcc hi _
  · exact hi
  · exact inv_lenHi_step hi h1 b
  · exact inv_discard hi rfl rfl
  · exact inv_discard hi rfl rfl
  · exact inv_lenLo_step hi h2 hmax hne
  · exact inv_api_step hi h3 b
  · exact inv_body_step hi h4 hlt b
  · exact inv_complete_step hi h4 heq hff
  · exact inv_discard hi rfl rfl

theorem inv_respond (c : RespCode) (d : List Byte) : Inv (s.respond c d) := inv_congr hi rfl rfl rfl rfl

theorem inv_finishPoll (now n : U32) : Inv (finishPoll now n s) := by
  unfold finishPoll
  split
  · exact inv_respond hi _ _
  split
  · exact inv_respond (inv_discard hi rfl rfl) _ _
  · exact inv_respond hi _ _

/-- POLL keeps the invariant, since every byte step of its drain does. -/
theorem execPoll_inv {now : U32} {t : State} (h : execPoll now s = .next t) : Inv t := by
  unfold execPoll at h
  split at h
  · cases h; exact inv_respond hi _ _
  · obtain ⟨_, _, u, -, hu, -, -, ⟨-, rfl⟩ | ⟨_, _, _, -, -, -, rfl, -⟩ | ⟨_, _, _, -, -, -, rfl, -⟩⟩ :=
      drain_induction h (inv_clearLatest hi) (fun _ _ hu => inv_congr hu rfl rfl rfl rfl)
        (fun _ _ _ _ hu hv => byteStep_inv hu hv)
    · exact inv_finishPoll hu _ _
    · exact inv_respond hu _ _
    · exact inv_respond hu _ _

/-! ### The request's commands -/

theorem inv_openRequest (addrHi addrLo : U32) : Inv (s.openRequest addrHi addrLo) :=
  inv_setReq hi rfl rfl rfl hi.memories.reqWf hi.memories.reqCap
    ⟨nofun, fun _ => rfl, fun _ h => absurd h (Nat.not_lt_zero _)⟩

/-- The stored payload covers offsets 0 to `n − 1`, all of its valid length (40_encoder.md R104, R105). -/
theorem inv_setPayload {data : List Byte} (hopen : s.req.opened = true) (hlen : data.length ≤ Config.reqCap) :
    Inv (s.setPayload (s.req.pay.writeBytes 0 data) (BitVec.ofNat 16 data.length)) := by
  have hmem := Memory.mem_offsets_writeBytes s.req.pay data 0
  refine inv_setReq hi rfl rfl rfl (Memory.wf_writeBytes hi.memories.reqWf data 0) (fun i h => ?_)
    ⟨fun _ => hopen, nofun, fun i h => (hmem i).2 (.inl ⟨Nat.zero_le i, ?_⟩)⟩
  · rcases (hmem i).1 h with ⟨-, hlt⟩ | hold
    · omega
    · exact hi.memories.reqCap i hold
  · have : i < data.length % 2 ^ 16 := h
    omega

theorem attachPayload_inv {data : List Byte} {t : State} (h : attachPayload data s = .next t) : Inv t := by
  rcases attachPayload_cases h with ⟨-, rfl⟩ | ⟨-, -, rfl⟩ | ⟨hopen, -, hlen, rfl⟩
  · exact inv_respond hi _ _
  · exact inv_respond hi _ _
  · exact inv_respond (inv_setPayload hi hopen hlen) _ _

/-- Every command of the port keeps the invariant. -/
theorem exec_inv {i : Instr} {t : State} (hw : i.wellFormed = true) (h : exec i s = .next t) : Inv t := by
  rcases exec_cases hw h with ⟨now, rfl, -⟩ | ⟨c, d, rfl⟩ | ⟨w, -, rfl⟩ | ⟨b, -, rfl⟩ | ⟨addrHi, addrLo, -, rfl⟩ |
    ⟨data, _, _, rfl | rfl, -⟩ | ⟨f, -, rfl⟩
  · exact execPoll_inv hi h
  · exact inv_respond hi c d
  · exact inv_congr hi rfl rfl rfl rfl
  · exact inv_congr hi rfl rfl rfl rfl
  · exact inv_respond (inv_openRequest hi addrHi addrLo) _ _
  · exact attachPayload_inv hi h
  · exact attachPayload_inv hi h
  · exact inv_congr hi rfl rfl rfl rfl

end

end Sys2Proof.Safety
end

section

/-! ## Every step keeps the machine's invariant and the port's (20_memory.md R60, 60_exceptions.md R211, R212) -/

namespace Sys2Proof

/-- If the port reads a whole command, it is one that the port can carry. -/
def ReadsWellFormed (d : Decoded) : Prop := ∀ i rest, d = .instr i rest → i.wellFormed = true

theorem readsWellFormed_instr {i : Instr} (h : i.wellFormed = true) (rest : List Byte) :
    ReadsWellFormed (.instr i rest) := by
  intro j r e; cases e
  exact h

theorem readsWellFormed_decodeW {mk : U32 → Instr} (h : ∀ w, (mk w).wellFormed = true) (bs : List Byte) :
    ReadsWellFormed (decodeW mk bs) := by
  intro i rest e
  obtain ⟨w, rfl, -⟩ := decodeW_eq_instr e
  exact h w

theorem readsWellFormed_decodeA {mk : U32 → U32 → Instr} (h : ∀ hi lo, (mk hi lo).wellFormed = true) (bs : List Byte) :
    ReadsWellFormed (decodeA mk bs) := by
  intro i rest e
  obtain ⟨hi, lo, rfl, -⟩ := decodeA_eq_instr e
  exact h hi lo

theorem readsWellFormed_decodeB {mk : List Byte → Instr}
    (h : ∀ data : List Byte, data.length < 65536 → (mk data).wellFormed = true) (bs : List Byte) :
    ReadsWellFormed (decodeB mk bs) := by
  intro i rest e
  obtain ⟨data, rfl, hlen, -⟩ := decodeB_eq_instr e
  exact h data hlen

/-- One row of the opcode map (30_encoding.md R83). -/
theorem readsWellFormed_ite {c : Prop} [Decidable c] {x y : Decoded} (hx : ReadsWellFormed x) (hy : ReadsWellFormed y) :
    ReadsWellFormed (if c then x else y) := by
  split
  · exact hx
  · exact hy

theorem readsWellFormed_decodeOp (op : Byte) (rest : List Byte) : ReadsWellFormed (decodeOp op rest) := by
  have plain {c : Prop} [Decidable c] {i : Instr} {y : Decoded} (h : i.wellFormed = true) (hy : ReadsWellFormed y) :
      ReadsWellFormed (if c then .instr i rest else y) := readsWellFormed_ite (readsWellFormed_instr h rest) hy
  unfold decodeOp
  refine readsWellFormed_ite (readsWellFormed_decodeW (fun _ => rfl) rest) (plain rfl (plain rfl ?_))
  refine readsWellFormed_ite (readsWellFormed_decodeA (fun _ _ => rfl) rest) ?_
  refine readsWellFormed_ite (readsWellFormed_decodeB (fun _ => decide_eq_true) rest) ?_
  refine readsWellFormed_ite (readsWellFormed_decodeB (fun _ => decide_eq_true) rest) (plain rfl (plain rfl ?_))
  refine readsWellFormed_ite (readsWellFormed_decodeW (fun _ => rfl) rest) ?_
  iterate 13 refine plain rfl ?_
  intro i r e; cases e

theorem wellFormed_of_decode {bs rest : List Byte} {i : Instr} (h : decode bs = .instr i rest) : i.wellFormed = true := by
  cases bs with
  | nil => cases h
  | cons op bs => exact readsWellFormed_decodeOp op bs i rest h

end Sys2Proof

namespace Sys2Proof.Safety

open Sys2Proof.Machine

/-- No command of the port touches the host's side of the environment. -/
theorem exec_host_frame {i : Instr} {s t : State} (hw : i.wellFormed = true) (h : exec i s = .next t) :
    t.env.port = s.env.port ∧ t.env.clock = s.env.clock ∧ t.env.agenda = s.env.agenda := by
  rcases exec_cases hw h with ⟨_, -, -, -, -, hport, hclock, hagenda⟩ | ⟨_, _, rfl⟩ | ⟨_, -, rfl⟩ | ⟨_, -, rfl⟩ |
    ⟨_, _, -, rfl⟩ | ⟨_, _, _, -, rfl⟩ | ⟨_, -, rfl⟩
  · exact ⟨hport, hclock, hagenda⟩
  all_goals exact ⟨rfl, rfl, rfl⟩

theorem step_inv {s t : State} (h : step s = .next t) (hi : Inv s) : Inv t := by
  rcases step_cases h with ⟨i, rest, hd, he⟩ | ⟨op, rest, -, rfl⟩ | ⟨-, -, rfl⟩ | ⟨m, ms, hd, -, -⟩
  · exact exec_inv (s := s.setPort rest) (inv_congr hi rfl rfl rfl rfl) (wellFormed_of_decode hd) he
  · exact inv_congr hi rfl rfl rfl rfl
  · exact hi
  · obtain ⟨hp, hacc, hlat, -, hreq, -⟩ := step_movedOnly_of_incomplete hd h
    exact inv_congr hi hp hacc hlat hreq

/-! ### One command on the port -/

theorem oneCommand_of_port_eq {s t : State} (h : t.env.port = s.env.port) : OneCommand t ↔ OneCommand s := by
  simp only [OneCommand, h]

theorem oneCommand_of_port_nil {s : State} (h : s.env.port = []) : OneCommand s := by
  simp only [OneCommand, h, decode]

theorem rest_eq_nil_of_instr {s : State} (ho : OneCommand s) {i : Instr} {rest : List Byte}
    (hd : decode s.env.port = .instr i rest) : rest = [] := by
  rwa [OneCommand, hd] at ho

theorem rest_eq_nil_of_reserved {s : State} (ho : OneCommand s) {op : Byte} {rest : List Byte}
    (hd : decode s.env.port = .reserved op rest) : rest = [] := by
  rwa [OneCommand, hd] at ho

/-- Only an issue touches the port (60_exceptions.md R211). -/
theorem hostMove_port {m : HostMove} {s t : State} (h : hostMove m s = .next t) :
    (∃ bytes, t = s.issueBytes bytes) ∨ t.env.port = s.env.port := by
  cases m with
  | issue bytes => cases h; exact .inl ⟨bytes, rfl⟩
  | tick x => obtain ⟨-, rfl⟩ := tickClock_cases h; exact .inr rfl
  | arrive _ | deliver _ | loopback _ | collect _ => cases h; exact .inr rfl

theorem step_oneCommand {s t : State} (h : step s = .next t) (ho : OneCommand s) : OneCommand t := by
  rcases step_cases h with ⟨i, rest, hd, he⟩ | ⟨op, rest, hd, rfl⟩ | ⟨-, -, rfl⟩ | ⟨m, ms, -, -, hm⟩
  · have hport := (exec_host_frame (wellFormed_of_decode hd) he).1
    exact oneCommand_of_port_nil (hport.trans (rest_eq_nil_of_instr ho hd))
  · exact oneCommand_of_port_nil (rest_eq_nil_of_reserved ho hd)
  · exact ho
  · rcases hostMove_port hm with ⟨bytes, rfl⟩ | hport
    · exact oneCommand_issueBytes _ bytes
    · exact (oneCommand_of_port_eq hport).2 ho

end Sys2Proof.Safety

namespace Sys2Proof.Statements

open Sys2Proof.Safety

/-- Settles O56: the two invariants are kept separately, each by the cases of a step. -/
theorem stepKeepsInvariant : Obligations.StepKeepsInvariant :=
  fun _ _ h => ⟨step_inv h, step_oneCommand h⟩

end Sys2Proof.Statements
end

section

/-! ## No run stops (20_memory.md R51, 42_parser.md R161, 60_exceptions.md R205) -/

namespace Sys2Proof.Safety

open Sys2Proof.Machine

/-- The outcome is a next state: no fault and no refusal. -/
def GoesOn {σ : Type} (o : Host.Outcome σ Fault Refusal) : Prop := ∃ t, o = .next t

theorem goesOn_next {σ : Type} (t : σ) : GoesOn (.next t) := ⟨t, rfl⟩

theorem goesOn_ite {σ : Type} {c : Prop} [Decidable c] {x y : Host.Outcome σ Fault Refusal} (hx : c → GoesOn x)
    (hy : ¬ c → GoesOn y) : GoesOn (if c then x else y) := by
  split
  · exact hx ‹_›
  · exact hy ‹_›

/-! ### The commands -/

theorem goesOn_onFullSlot {s : State} {k : Host.Outcome State Fault Refusal} (hk : GoesOn k) : GoesOn (onFullSlot s k) :=
  goesOn_ite (fun _ => goesOn_next _) fun _ => hk

theorem goesOn_withLatestBytes {s : State} {start count : Nat} (h : start + count ≤ s.lat.size.toNat)
    (k : List Byte → State) : GoesOn (withLatestBytes s start count k) :=
  ⟨_, withLatestBytes_ok s h k⟩

theorem goesOn_execLpayld (s : State) : GoesOn (execLpayld s) :=
  goesOn_onFullSlot (goesOn_withLatestBytes (Nat.zero_add _).le _)

/-- LSADDR reads 8 bytes of at least 9 (41_accumulator.md R146). -/
theorem goesOn_execLsaddr (s : State) : GoesOn (execLsaddr s) :=
  goesOn_onFullSlot (goesOn_ite (fun _ => goesOn_next _) fun _ => goesOn_withLatestBytes (by omega) _)

/-- LAPPDAT reads from the prefix to before the checksum byte (41_accumulator.md R147). -/
theorem goesOn_execLappdat (s : State) : GoesOn (execLappdat s) :=
  goesOn_onFullSlot (goesOn_ite (fun _ => goesOn_next _) fun _ => goesOn_withLatestBytes (by omega) _)

theorem goesOn_withFrame {s : State} {k : List Byte → Host.Outcome State Fault Refusal} (hk : ∀ f, GoesOn (k f)) :
    GoesOn (withFrame s k) := by
  rw [withFrame_eq]
  exact goesOn_ite (fun _ => goesOn_next _) fun _ => goesOn_ite (fun _ => goesOn_next _) fun _ => hk _

theorem goesOn_execEncode (s : State) : GoesOn (execEncode s) := goesOn_withFrame fun _ => goesOn_next _

theorem goesOn_execSend (s : State) : GoesOn (execSend s) :=
  goesOn_ite (fun _ => goesOn_next _) fun _ => goesOn_withFrame fun _ => goesOn_next _

/-- A count of 16 bits keeps the payload within `REQ_CAP`. -/
theorem goesOn_attachPayload {data : List Byte} (hlen : data.length < 65536) (s : State) :
    GoesOn (attachPayload data s) := by
  refine goesOn_ite (fun _ => goesOn_next _) fun _ => goesOn_ite (fun _ => goesOn_next _) fun _ => ?_
  rw [Memory.fillChecked_ok _ (cap := Config.reqCap) (Nat.le_of_lt_succ hlen)]
  exact goesOn_next _

theorem goesOn_microOp {α : Type} {op : MicroIssue α} (hop : op.fromPort = true) (s : State)
    (f : α → Host.Outcome State Fault Refusal) : GoesOn (microOp op s f) := by
  cases op with
  | port => exact goesOn_next _
  | parser x => cases hop

/-! ### POLL -/

theorem four_le_counter {c : U16} (h0 : c ≠ 0) (h1 : c ≠ 1) (h2 : c ≠ 2) (h3 : c ≠ 3) : 4 ≤ c.toNat := by
  bv_omega

/-- In every state that meets the invariant a rule of R162 to R167 applies. -/
theorem goesOn_byteStep {s : State} (hi : Inv s) (b : Byte) (now : U32) : GoesOn (byteStep b now s) := by
  by_cases h0 : s.p.counter = 0
  · by_cases hb : b = Config.start
    · subst hb; exact ⟨_, byteStep_idle_start h0 now⟩
    · exact ⟨_, byteStep_idle_other h0 hb now⟩
  by_cases h1 : s.p.counter = 1
  · exact ⟨_, byteStep_lenHi h1 b now⟩
  by_cases h2 : s.p.counter = 2
  · rw [byteStep_lenLo h2]
    exact goesOn_ite (fun _ => goesOn_next _) fun _ => goesOn_ite (fun _ => goesOn_next _) fun _ => goesOn_next _
  by_cases h3 : s.p.counter = 3
  · exact ⟨_, byteStep_api h3 b now⟩
  have h4 : 4 ≤ s.p.counter.toNat := four_le_counter h0 h1 h2 h3
  obtain ⟨-, halloc, -, -, hle⟩ := hi.parser.sized (by omega)
  rcases Nat.lt_or_eq_of_le hle with hlt | heq
  · exact ⟨_, byteStep_body h4 hlt halloc b now⟩
  · rw [byteStep_complete h4 heq halloc]
    exact goesOn_ite (fun _ => goesOn_next _) fun _ => goesOn_next _

theorem goesOn_drain {s : State} (hi : Inv s) (now : U32) (bytes : List Byte) (n : U32) : GoesOn (drain now bytes n s) := by
  induction bytes generalizing s n with
  | nil => exact goesOn_next _
  | cons b rest ih =>
    have hin : Inv (s.setInbound rest) := inv_congr hi rfl rfl rfl rfl
    obtain ⟨⟨t, e⟩, ht⟩ := goesOn_byteStep hin b now
    have hit : Inv t := byteStep_inv hin ht
    cases e with
    | none => rw [drain_cons_next ht (.inl rfl)]; exact ih hit _
    | dropped => rw [drain_cons_next ht (.inr rfl)]; exact ih hit _
    | valid => exact ⟨_, drain_cons_valid ht⟩
    | tooLarge => exact ⟨_, drain_cons_tooLarge ht⟩

theorem goesOn_execPoll {s : State} (hi : Inv s) (now : U32) : GoesOn (execPoll now s) :=
  goesOn_ite (fun _ => goesOn_next _) fun _ => goesOn_drain (inv_clearLatest hi) now _ 0

/-- Every command of the port answers, from every state that meets the invariant. -/
theorem goesOn_exec {i : Instr} (hw : i.wellFormed = true) {s : State} (hi : Inv s) : GoesOn (exec i s) := by
  cases i with
  | settmo _ | attach | detach | reqnew _ _ | lvalid => exact goesOn_next _
  | reqcpy data | reqtake data => exact goesOn_attachPayload (of_decide_eq_true hw) s
  | encode => exact goesOn_execEncode s
  | send => exact goesOn_execSend s
  | poll now => exact goesOn_execPoll hi now
  | lapi | lsize | lcsum | lcompl => exact goesOn_onFullSlot (goesOn_next _)
  | lpayld => exact goesOn_execLpayld s
  | lsaddr => exact goesOn_execLsaddr s
  | lappdat => exact goesOn_execLappdat s
  | beginSize _ | setApiId _ | writeAt _ | accCsum _ | isComplete _ => exact goesOn_microOp hw s _

/-! ### The clock -/

/-- A move takes its ticks from the pending ones and adds them to the reading. -/
theorem hostMove_clock {m : HostMove} {ms : List HostMove} {s t : State} (h : hostMove m (s.setAgenda ms) = .next t) :
    t.env.clock.toNat + pendingTicks t.env.agenda = s.env.clock.toNat + pendingTicks (m :: ms) := by
  cases m with
  | issue bytes => cases h; simp [pendingTicks]
  | tick x =>
    obtain ⟨hroom, rfl⟩ := tickClock_cases h
    have hadd : (s.env.clock + x).toNat = s.env.clock.toNat + x.toNat := BitVec.toNat_add_of_lt hroom
    simp [pendingTicks, hadd, Nat.add_assoc]
  | arrive _ | deliver _ | loopback _ | collect _ => cases h; rfl

theorem step_clockHasRoom {s t : State} (h : step s = .next t) (hc : ClockHasRoom s) : ClockHasRoom t := by
  rcases step_cases h with ⟨i, rest, hd, he⟩ | ⟨op, rest, -, rfl⟩ | ⟨-, -, rfl⟩ | ⟨m, ms, -, ha, hm⟩
  · obtain ⟨-, hclock, hagenda⟩ := exec_host_frame (wellFormed_of_decode hd) he
    rw [ClockHasRoom, hclock, hagenda]
    exact hc
  · exact hc
  · exact hc
  · rwa [ClockHasRoom, hostMove_clock hm, ← ha]

/-- Of the host's moves only a tick can stop the machine. -/
theorem goesOn_hostMove {m : HostMove} {s : State} {ms : List HostMove}
    (hc : s.env.clock.toNat + pendingTicks (m :: ms) < 2 ^ 32) : GoesOn (hostMove m s) := by
  cases m with
  | tick x =>
    have hroom : s.env.clock.toNat + x.toNat < 2 ^ 32 := by simp only [pendingTicks] at hc; omega
    exact goesOn_ite (fun _ => goesOn_next _) fun hno => absurd hroom hno
  | issue _ | arrive _ | deliver _ | loopback _ | collect _ => exact goesOn_next _

theorem goesOn_step {s : State} (hi : Inv s) (hc : ClockHasRoom s) : GoesOn (step s) := by
  cases hd : decode s.env.port with
  | instr i rest =>
    rw [step_instr hd]
    exact goesOn_exec (wellFormed_of_decode hd) (inv_congr hi rfl rfl rfl rfl)
  | reserved op rest => exact ⟨_, step_reserved hd⟩
  | incomplete =>
    rw [step_incomplete hd, hostTurn]
    split
    · exact goesOn_next _
    · rename_i m ms ha
      rw [ClockHasRoom, ha] at hc
      exact goesOn_hostMove (s := s.setAgenda ms) hc

/-! ### Runs -/

theorem run_succ_of_step {M : Host.Core} {s t : M.State} (h : M.step s = .next t) (k : Nat) :
    M.run (k + 1) s = M.run k t := by
  rw [Host.Core.run, h]

/-- A property from which every step goes on, and which every step keeps, makes runs of any length go on. -/
theorem runs_of_invariant {P : State → Prop} (progress : ∀ s, P s → GoesOn (step s))
    (kept : ∀ s t, P s → step s = .next t → P t) (k : Nat) {s : State} (hs : P s) : Runs k s := by
  induction k generalizing s with
  | zero => exact ⟨s, rfl⟩
  | succ k ih =>
    obtain ⟨t, ht⟩ := progress s hs
    obtain ⟨u, hu⟩ := ih (kept s t hs ht)
    exact ⟨u, (run_succ_of_step (M := core) ht k).trans hu⟩

end Sys2Proof.Safety

namespace Sys2Proof.Statements

open Sys2Proof.Safety

/-- Settles O57: the invariant and the clock's room together are what every step keeps and goes on from. -/
theorem noRunEverStops : Obligations.NoRunEverStops :=
  fun k _ hi hc => runs_of_invariant (P := fun s => Inv s ∧ ClockHasRoom s) (fun _ h => goesOn_step h.1 h.2)
    (fun _ _ h ht => ⟨step_inv ht h.1, step_clockHasRoom ht h.2⟩) k ⟨hi, hc⟩

end Sys2Proof.Statements
end

section

/-! ## The stream under the host's moves (20_memory.md R60, R62, 60_exceptions.md R210) -/

namespace Sys2Proof.Machine

/-- While the port holds, the next pending move is what the step makes; `step_issue` is its case of an issue. -/
theorem step_hostMove {s : State} (hd : decode s.env.port = .incomplete) {m : HostMove} {ms : List HostMove}
    (ha : s.env.agenda = m :: ms) : step s = hostMove m (s.setAgenda ms) := by
  rw [step_incomplete hd, hostTurn, ha]

/-- An empty port holds (30_encoding.md R88). -/
theorem decode_port_nil {s : State} (h : s.env.port = []) : decode s.env.port = .incomplete := by
  rw [h]; rfl

end Sys2Proof.Machine

namespace Sys2Proof.Statements

open Sys2Proof.Machine

/-- Settles O51: with an empty port the step is the pending move. -/
theorem streamIsFirstInFirstOut : Obligations.StreamIsFirstInFirstOut :=
  fun _ _ _ _ hport => ⟨step_hostMove (decode_port_nil hport), step_hostMove (decode_port_nil hport)⟩

end Sys2Proof.Statements
end

section

/-! ## Decoding and encoding are inverse (30_encoding.md R82, R83, R87, R88) -/

namespace Sys2Proof

/-- A well-formed command's bytes decode to it, and what follows is left; the operand formats are read back by
`decodeW_be32`, `decodeA_be32` and `decodeB_encodeB`. -/
theorem decode_encode_append {i : Instr} (h : i.wellFormed = true) (rest : List Byte) :
    decode (encode i ++ rest) = .instr i rest := by
  cases i with
  | settmo w => exact decodeW_be32 .settmo w rest
  | poll now => exact decodeW_be32 .poll now rest
  | reqnew hi lo => exact decodeA_be32 .reqnew hi lo rest
  | reqcpy data => exact decodeB_encodeB .reqcpy (of_decide_eq_true h) rest
  | reqtake data => exact decodeB_encodeB .reqtake (of_decide_eq_true h) rest
  | beginSize op | setApiId op | writeAt op | accCsum op | isComplete op =>
    cases op with
    | port => rfl
    | parser x => cases h
  | _ => rfl

/-- If `d` is a whole command, `bs` are its bytes and what `d` leaves. -/
def ReadsEncoding (bs : List Byte) (d : Decoded) : Prop := ∀ i rest, d = .instr i rest → bs = encode i ++ rest

theorem readsEncoding_instr {bs rest : List Byte} {i : Instr} (h : bs = encode i ++ rest) :
    ReadsEncoding bs (.instr i rest) := by
  intro j r e; cases e
  exact h

/-- One row of the opcode map (30_encoding.md R83). -/
theorem readsEncoding_row {op code : Byte} {bs : List Byte} {x y : Decoded} (hx : ReadsEncoding (code :: bs) x)
    (hy : ReadsEncoding (op :: bs) y) : ReadsEncoding (op :: bs) (if op = code then x else y) := by
  split
  · subst op; exact hx
  · exact hy

theorem readsEncoding_decodeW {code : Byte} {mk : U32 → Instr} (h : ∀ w, encode (mk w) = code :: be32 w)
    (bs : List Byte) : ReadsEncoding (code :: bs) (decodeW mk bs) := by
  intro i rest e
  obtain ⟨w, rfl, rfl⟩ := decodeW_eq_instr e
  rw [h]; rfl

theorem readsEncoding_decodeA {code : Byte} {mk : U32 → U32 → Instr}
    (h : ∀ hi lo, encode (mk hi lo) = code :: (be32 hi ++ be32 lo)) (bs : List Byte) :
    ReadsEncoding (code :: bs) (decodeA mk bs) := by
  intro i rest e
  obtain ⟨hi, lo, rfl, rfl⟩ := decodeA_eq_instr e
  rw [h]; rfl

theorem readsEncoding_decodeB {code : Byte} {mk : List Byte → Instr}
    (h : ∀ data, encode (mk data) = code :: encodeB data) (bs : List Byte) :
    ReadsEncoding (code :: bs) (decodeB mk bs) := by
  intro i rest e
  obtain ⟨data, rfl, -, rfl⟩ := decodeB_eq_instr e
  rw [h]; rfl

theorem readsEncoding_decodeOp (op : Byte) (bs : List Byte) : ReadsEncoding (op :: bs) (decodeOp op bs) := by
  have plain {code : Byte} {i : Instr} {y : Decoded} (h : encode i = [code]) (hy : ReadsEncoding (op :: bs) y) :
      ReadsEncoding (op :: bs) (if op = code then .instr i bs else y) :=
    readsEncoding_row (readsEncoding_instr (by rw [h]; rfl)) hy
  unfold decodeOp
  refine readsEncoding_row (readsEncoding_decodeW (fun _ => rfl) bs) (plain rfl (plain rfl ?_))
  refine readsEncoding_row (readsEncoding_decodeA (fun _ _ => rfl) bs) ?_
  refine readsEncoding_row (readsEncoding_decodeB (fun _ => rfl) bs) ?_
  refine readsEncoding_row (readsEncoding_decodeB (fun _ => rfl) bs) (plain rfl (plain rfl ?_))
  refine readsEncoding_row (readsEncoding_decodeW (fun _ => rfl) bs) ?_
  iterate 13 refine plain rfl ?_
  intro i rest e; cases e

theorem eq_encode_append_of_decode {bs rest : List Byte} {i : Instr} (h : decode bs = .instr i rest) :
    bs = encode i ++ rest := by
  cases bs with
  | nil => cases h
  | cons op bs => exact readsEncoding_decodeOp op bs i rest h

end Sys2Proof

namespace Sys2Proof.Statements

/-- Settles O53: by the cases of the command, each operand format read back. -/
theorem decodeInvertsEncode : Obligations.DecodeInvertsEncode :=
  fun _ rest h => decode_encode_append h rest

/-- Settles O54: row by row of the opcode map, each format's bytes are those of its operands. -/
theorem decodedBytesAreTheEncoding : Obligations.DecodedBytesAreTheEncoding :=
  fun _ _ _ h => ⟨wellFormed_of_decode h, eq_encode_append_of_decode h⟩

end Sys2Proof.Statements
end

section

/-! ## POLL accepts a well-formed frame (42_parser.md R162 to R168, R178, R182) -/

namespace Sys2Proof.Statements

open Sys2Proof.Machine

/-! ### Bytes fed one after another -/

theorem fed_append {now : U32} {xs ys : List Byte} {s t u : State} (hx : Fed now xs s t) (hy : Fed now ys t u) :
    Fed now (xs ++ ys) s u := by
  induction xs generalizing s with
  | nil => cases hx; exact hy
  | cons b xs ih =>
    obtain ⟨v, e, hv, he, hrest⟩ := hx
    exact ⟨v, e, hv, he, ih hrest⟩

theorem fed_singleton {now : U32} {b : Byte} {s t : State} (h : byteStep b now s = .next (t, .none)) :
    Fed now [b] s t :=
  ⟨t, .none, h, .inl rfl, rfl⟩

/-- An idle parser takes no notice of anything but a start delimiter (42_parser.md R162). -/
theorem fed_idle {now : U32} {junk : List Byte} {s : State} (h0 : s.p.counter = 0) (hj : ∀ b ∈ junk, b ≠ 0x7E) :
    Fed now junk s s := by
  induction junk with
  | nil => rfl
  | cons b junk ih =>
    obtain ⟨hb, hrest⟩ := List.forall_mem_cons.1 hj
    exact ⟨s, .none, byteStep_idle_other h0 hb now, .inl rfl, ih hrest⟩

theorem byteStep_env {b : Byte} {now : U32} {s t : State} {e : StepEvent} (h : byteStep b now s = .next (t, e)) :
    t.env = s.env := by
  obtain ⟨-, -, henv, -⟩ := byteStep_frame h
  exact henv

theorem fed_env {now : U32} {eaten : List Byte} {s t : State} (h : Fed now eaten s t) : t.env = s.env := by
  induction eaten generalizing s with
  | nil => cases h; rfl
  | cons b eaten ih =>
    obtain ⟨u, e, hu, -, hrest⟩ := h
    exact (ih hrest).trans (byteStep_env hu)

theorem fed_setInbound {now : U32} {eaten : List Byte} {s t : State} (h : Fed now eaten s t) (bs : List Byte) :
    Fed now eaten (s.setInbound bs) (t.setInbound bs) := by
  induction eaten generalizing s with
  | nil => cases h; rfl
  | cons b eaten ih =>
    obtain ⟨u, e, hu, he, hrest⟩ := h
    exact ⟨u.setInbound bs, e, byteStep_setInbound hu bs, he, ih hrest⟩

/-- A drain that still has bytes left goes through those the byte step is fed, and then on from there. -/
theorem drain_fed {now : U32} {eaten : List Byte} {s t : State} (h : Fed now eaten s t) (b : Byte) (rest : List Byte)
    (n : U32) : drain now (eaten ++ b :: rest) n s = drain now (b :: rest) (n + BitVec.ofNat 32 eaten.length) t := by
  induction eaten generalizing s t n with
  | nil => cases h; simp
  | cons c eaten ih =>
    obtain ⟨u, e, hu, he, hrest⟩ := h
    have hcount : n + 1 + BitVec.ofNat 32 eaten.length = n + BitVec.ofNat 32 (c :: eaten).length := by
      rw [List.length_cons, Nat.add_comm eaten.length 1, BitVec.ofNat_add, BitVec.add_assoc]; rfl
    calc drain now (c :: (eaten ++ b :: rest)) n s
        = drain now (eaten ++ b :: rest) (n + 1) (u.setInbound (eaten ++ b :: rest)) :=
          drain_cons_next (byteStep_setInbound hu _) he
      _ = drain now (b :: rest) (n + 1 + BitVec.ofNat 32 eaten.length) (t.setInbound (eaten ++ b :: rest)) :=
          ih (fed_setInbound hrest (eaten ++ b :: rest)) (n + 1)
      _ = drain now (b :: rest) (n + BitVec.ofNat 32 (c :: eaten).length) t := by rw [hcount]; rfl

/-- An attached POLL whose drain meets a `valid` event ends at that byte (42_parser.md R182). -/
theorem execPoll_of_valid {now : U32} {eaten rest : List Byte} {b : Byte} {s u v : State} (ha : s.cfg.attached = true)
    (hin : s.env.inbound = eaten ++ b :: rest) (hfed : Fed now eaten s.clearLatest u)
    (hv : byteStep b now u = .next (v, .valid)) :
    execPoll now s = .next ((v.setInbound rest).respondPoll .valid (BitVec.ofNat 32 (eaten.length + 1))) := by
  have hn : (0 : U32) + BitVec.ofNat 32 eaten.length + 1 = BitVec.ofNat 32 (eaten.length + 1) := by
    rw [BitVec.ofNat_add]; simp
  rw [execPoll, if_neg (by simp [ha]), hin, drain_fed hfed, drain_cons_valid (byteStep_setInbound hv rest), hn]

/-! ### A frame on its way in -/

/-- The parser is in the body of a frame of these length bytes and API id, and `got` are the bytes stored so far. -/
structure Receiving (hi lo api : Byte) (got : List Byte) (s : State) : Prop where
  counter : s.p.counter.toNat = got.length + 4
  alloc : s.acc.alloc = true
  size : s.acc.size.toNat = declared hi lo
  apiId : s.acc.apiId = api
  csum : s.acc.csum = api + sum8 got
  bytes : s.acc.pay.bytes 0 got.length = got

/-- The start delimiter begins a fresh accumulator (42_parser.md R162). -/
theorem fed_start {s : State} (h0 : s.p.counter = 0) (now : U32) :
    ∃ t, Fed now [0x7E] s t ∧ t.p.counter = 1 ∧ t.acc.sizePhase = false ∧ t.acc.csum = 0 :=
  ⟨_, fed_singleton (byteStep_idle_start h0 now), rfl, rfl, rfl⟩

theorem fed_lenHi {s : State} (h1 : s.p.counter = 1) (hphase : s.acc.sizePhase = false) (hi : Byte) (now : U32) :
    ∃ t, Fed now [hi] s t ∧ t.p.counter = 2 ∧ t.acc = { s.acc with sizeHigh := hi, sizePhase := true } :=
  ⟨_, fed_singleton (byteStep_lenHi h1 hi now), rfl, beginSize_high hphase hi⟩

/-- A low length byte that completes an accepted size has the payload allocated (42_parser.md R164). -/
theorem fed_lenLo {s : State} (h2 : s.p.counter = 2) (hphase : s.acc.sizePhase = true) {lo : Byte}
    (hpos : 1 ≤ declared s.acc.sizeHigh lo) (hmax : declared s.acc.sizeHigh lo ≤ 65520) (now : U32) :
    ∃ t, Fed now [lo] s t ∧ t.p.counter = 3 ∧ t.acc.alloc = true ∧ t.acc.size.toNat = declared s.acc.sizeHigh lo ∧
      t.acc.csum = s.acc.csum := by
  have hsize := toNat_beginSize_low_eq_declared hphase lo
  have hle : ¬ (s.acc.beginSize lo).size.toNat > Config.maxPayload := by rw [hsize]; exact Nat.not_lt.2 hmax
  have hne : (s.acc.beginSize lo).size ≠ 0 := by
    intro hzero
    rw [← hsize, hzero] at hpos
    exact absurd hpos (by decide)
  have hstep := byteStep_lenLo h2 lo now
  rw [if_neg hle, if_neg hne] at hstep
  exact ⟨_, fed_singleton hstep, rfl, rfl, hsize, by simp [beginSize_low hphase]⟩

/-- The four bytes before the body, of an accepted size, leave the parser in an empty body (42_parser.md R162 to R165). -/
theorem fed_header {s : State} (h0 : s.p.counter = 0) {hi lo : Byte} (hpos : 1 ≤ declared hi lo)
    (hmax : declared hi lo ≤ 65520) (now : U32) (api : Byte) :
    ∃ t, Fed now [0x7E, hi, lo, api] s t ∧ Receiving hi lo api [] t := by
  obtain ⟨u, hu, hu1, huphase, hucsum⟩ := fed_start h0 now
  obtain ⟨v, hv, hv2, hvacc⟩ := fed_lenHi hu1 huphase hi now
  have hhigh : v.acc.sizeHigh = hi := by rw [hvacc]
  obtain ⟨w, hw, hw3, halloc, hsize, hcsum⟩ :=
    fed_lenLo hv2 (by rw [hvacc]) (by rwa [hhigh]) (by rwa [hhigh]) now
  have hapi := fed_singleton (byteStep_api hw3 api now)
  exact ⟨_, fed_append hu (fed_append hv (fed_append hw hapi)), rfl, halloc, by rw [← hhigh]; exact hsize, rfl,
    by simp [hcsum, hvacc, hucsum, sum8], rfl⟩

theorem bytes_write_end (m : Memory) (n : Nat) (b : Byte) : (m.write n b).bytes 0 (n + 1) = m.bytes 0 n ++ [b] := by
  have hold : ∀ i ∈ List.range n, (m.write n b).byteAt (0 + i) = m.byteAt (0 + i) := fun i hmem =>
    Memory.byteAt_write_ne m (by have := List.mem_range.1 hmem; omega) b
  simp only [Memory.bytes, List.range_succ, List.map_append, List.map_congr_left hold]
  simp

section
variable {hi lo api : Byte} {got : List Byte} {s : State} (h : Receiving hi lo api got s)
include h

theorem accAfterBody_receiving (b : Byte) :
    (accAfterBody s b).csum = api + sum8 (got ++ [b]) ∧
      (accAfterBody s b).pay.bytes 0 (got ++ [b]).length = got ++ [b] := by
  have hc := h.counter
  have hoff : (s.p.counter - 4).toNat = got.length := by rw [counter_sub_four (by omega), hc]; rfl
  refine ⟨by simp [accAfterBody, h.csum, sum8_append, sum8, BitVec.add_assoc], ?_⟩
  simp only [accAfterBody, hoff, List.length_append, List.length_singleton, bytes_write_end, h.bytes]

/-- A body byte before the last one is stored (42_parser.md R166). -/
theorem byteStep_receiving (hmax : declared hi lo ≤ 65520) (hlt : got.length + 1 < declared hi lo) (b : Byte) (now : U32) :
    ∃ t, byteStep b now s = .next (t, .none) ∧ Receiving hi lo api (got ++ [b]) t := by
  have hc := h.counter
  have hnowrap : s.p.counter.toNat + 1 < 2 ^ 16 := by omega
  have hinc : (s.p.counter + 1).toNat = s.p.counter.toNat + 1 := BitVec.toNat_add_of_lt hnowrap
  obtain ⟨hcsum, hbytes⟩ := accAfterBody_receiving h b
  have hstep := byteStep_body (s := s) (by omega) (by rw [hc, h.size]; omega) h.alloc b now
  exact ⟨_, hstep, hinc.trans (by simp [hc]), h.alloc, h.size, h.apiId, hcsum, hbytes⟩

theorem fed_receiving (hmax : declared hi lo ≤ 65520) {bs : List Byte} (hlt : (got ++ bs).length < declared hi lo)
    (now : U32) : ∃ t, Fed now bs s t ∧ Receiving hi lo api (got ++ bs) t := by
  induction bs generalizing got s with
  | nil => exact ⟨s, rfl, by simpa using h⟩
  | cons b bs ih =>
    have hlt' : ((got ++ [b]) ++ bs).length < declared hi lo := by simpa using hlt
    obtain ⟨u, hu, hru⟩ := byteStep_receiving h hmax (by simp at hlt; omega) b now
    obtain ⟨t, ht, hrt⟩ := ih hru hlt'
    exact ⟨t, ⟨u, .none, hu, .inl rfl, ht⟩, by simpa using hrt⟩

/-- The last byte of a frame whose checksum passes promotes it whole into the latest slot (42_parser.md R167, R168). -/
theorem byteStep_receiving_last {b : Byte} (hlen : (got ++ [b]).length = declared hi lo)
    (hgood : api + sum8 (got ++ [b]) = 0xFF) (now : U32) :
    ∃ t, byteStep b now s = .next (t, .valid) ∧ t.p.counter = 0 ∧ Holds t hi lo api (got ++ [b]) := by
  have hc := h.counter
  obtain ⟨hcsum, hbytes⟩ := accAfterBody_receiving h b
  have hstep := byteStep_complete (s := s) (by omega) (by rw [hc, h.size, ← hlen]; simp) h.alloc b now
  have hpass : isCompleteChecksum (s.acc.csum + b) = true := by
    rw [show s.acc.csum + b = (accAfterBody s b).csum from rfl, hcsum, hgood]; rfl
  rw [if_pos hpass] at hstep
  refine ⟨_, hstep, rfl, rfl, h.apiId, hcsum.trans hgood, h.size, ?_⟩
  have hfirst : ∀ i ∈ List.range (declared hi lo),
      ((accAfterBody s b).pay.firstBytes s.acc.size.toNat).byteAt (0 + i) = (accAfterBody s b).pay.byteAt (0 + i) :=
    fun i hmem => Memory.byteAt_firstBytes _ (by rw [h.size]; simpa using hmem)
  calc slice ((accAfterBody s b).pay.firstBytes s.acc.size.toNat) 0 (declared hi lo)
      = (accAfterBody s b).pay.bytes 0 (declared hi lo) := List.map_congr_left hfirst
    _ = got ++ [b] := by rw [← hlen, hbytes]

end

/-- From an idle parser a good frame is read byte by byte, and its last byte promotes it. -/
theorem fed_good {s : State} (h0 : s.p.counter = 0) {hi lo api : Byte} {tail : List Byte} (hg : Good hi lo api tail)
    (now : U32) : ∃ init b u v, frame hi lo api tail = init ++ [b] ∧ Fed now init s u ∧
      byteStep b now u = .next (v, .valid) ∧ v.p.counter = 0 ∧ Holds v hi lo api tail := by
  obtain ⟨⟨hpos, hmax, hlen⟩, hsum⟩ := hg
  obtain rfl | ⟨body, b, rfl⟩ := List.eq_nil_or_concat' tail
  · simp at hlen; omega
  obtain ⟨t, ht, hrt⟩ := fed_header h0 hpos hmax now api
  obtain ⟨u, hu, hru⟩ := fed_receiving hrt hmax (bs := body) (by simp at hlen ⊢; omega) now
  obtain ⟨v, hv, hidle, hholds⟩ := byteStep_receiving_last hru hlen hsum now
  exact ⟨[0x7E, hi, lo, api] ++ body, b, u, v, by simp [frame], fed_append ht hu, hv, hidle, hholds⟩

/-- Settles O38: the bytes before the frame leave the parser idle, so `fed_good` gives the event that ends the POLL. -/
theorem wellFormedFrameIsAccepted : Obligations.WellFormedFrameIsAccepted := by
  intro now s junk hi lo api tail rest ha h0 hj hg hin
  obtain ⟨init, b, u, v, hframe, hu, hv, hidle, hholds⟩ := fed_good (s := s.clearLatest) h0 hg now
  have hfed : Fed now (junk ++ init) s.clearLatest u := fed_append (fed_idle h0 hj) hu
  have hpoll := execPoll_of_valid (rest := rest) ha (by simp [hin, hframe]) hfed hv
  have henv : v.env = s.env := (byteStep_env hv).trans (fed_env (s := s.clearLatest) hfed)
  refine ⟨_, hpoll, ?_, rfl, hidle, hholds, execPoll_frame hpoll⟩
  simp [State.respondPoll, henv, hframe, pollResponse, pollData, pollStatusByte, Nat.add_assoc]

end Sys2Proof.Statements
end

section

/-! ## TXFRAME (30_encoding.md R90) -/

namespace Sys2Proof.Machine

@[simp] theorem lastOk_respond (s : State) (c : RespCode) (d : List Byte) : lastOk (s.respond c d) = (c == .ok) := by
  simp [lastOk]

/-- A command that answers OK is followed by the next one. -/
theorem runUntilError_cons_ok {i : Instr} {is : List Instr} {s t : State} {d : List Byte}
    (h : exec i s = .next (t.respond .ok d)) : runUntilError (i :: is) s = runUntilError is (t.respond .ok d) := by
  simp [runUntilError, h]

/-- The last command's response ends the expansion, whatever it is. -/
theorem runUntilError_singleton {i : Instr} {s t : State} (h : exec i s = .next t) :
    runUntilError [i] s = .next t := by
  simp [runUntilError, h]

/-- The state in which TXFRAME issues SEND: REQNEW and REQCPY have answered, and the request holds the payload. -/
def txRequest (hi lo : U32) (data : List Byte) (s : State) : State :=
  ((((s.openRequest hi lo).respond .ok []).setPayload (s.req.pay.writeBytes 0 data)
    (BitVec.ofNat 16 data.length)).respond .ok [])

/-- REQCPY right after REQNEW never answers an error (40_encoder.md R103, R104), so only SEND can stop TXFRAME. -/
theorem runUntilError_txframe {hi lo : U32} {data : List Byte} (hlen : data.length ≤ 65535) (s : State) :
    runUntilError (txframe hi lo data) s = runUntilError [.send] (txRequest hi lo data s) := by
  have hnew : exec (.reqnew hi lo) s = .next ((s.openRequest hi lo).respond .ok []) := rfl
  have hcpy : exec (.reqcpy data) ((s.openRequest hi lo).respond .ok []) = .next (txRequest hi lo data s) :=
    attachPayload_ok (s := (s.openRequest hi lo).respond .ok []) rfl rfl hlen
  exact (runUntilError_cons_ok hnew).trans (runUntilError_cons_ok hcpy)

section
variable {hi lo : U32} {data : List Byte} (hlen : data.length ≤ 65535) (s : State)
include hlen

theorem txRequest_len : (txRequest hi lo data s).req.len.toNat = data.length := by
  have hlt : data.length < 2 ^ 16 := by omega
  exact Nat.mod_eq_of_lt hlt

theorem withFrame_txRequest (k : List Byte → Host.Outcome State Fault Refusal) :
    withFrame (txRequest hi lo data s) k =
      if 14 + data.length > 65535 then .next ((txRequest hi lo data s).raise .errLenOverflow)
      else k (encodeFrame hi lo data) := by
  have hpay : (txRequest hi lo data s).req.pay.bytes 0 data.length = data := Memory.bytes_writeBytes s.req.pay data 0
  have hset : ¬ ((txRequest hi lo data s).req.opened = false ∨ (txRequest hi lo data s).req.isSet = false) := by
    simp [txRequest]
  rw [withFrame_eq, if_neg hset, txRequest_len hlen, hpay]
  rfl

/-- What SEND answers for the request that TXFRAME sets up, in the order of its checks (40_encoder.md R110). -/
theorem exec_send_txRequest : exec .send (txRequest hi lo data s) =
    if s.cfg.attached = false then .next ((txRequest hi lo data s).raise .errNoStream)
    else if 14 + data.length > 65535 then .next ((txRequest hi lo data s).raise .errLenOverflow)
    else .next (((txRequest hi lo data s).streamWrite (encodeFrame hi lo data)).respond .ok []) := by
  show execSend (txRequest hi lo data s) = _
  rw [execSend, withFrame_txRequest hlen]
  rfl

end

end Sys2Proof.Machine

namespace Sys2Proof.Statements

open Sys2Proof.Machine

/-- Settles O14: the expansion comes down to SEND on the request of its operands. -/
theorem txframeSendsFrame : Obligations.TxframeSendsFrame := by
  intro hi lo data s hlen
  have hsend := exec_send_txRequest (hi := hi) (lo := lo) hlen s
  rw [runUntilError_txframe hlen]
  refine ⟨fun ha hfits => ?_, fun ha hlong => ?_, fun ha => ?_⟩
  · rw [if_neg (by simp [ha]), if_neg (by omega)] at hsend
    exact ⟨_, runUntilError_singleton hsend, rfl, by simp [txRequest], rfl, rfl, rfl, rfl⟩
  · rw [if_neg (by simp [ha]), if_pos (by omega)] at hsend
    exact ⟨_, runUntilError_singleton hsend, rfl, by simp [txRequest]⟩
  · rw [if_pos ha] at hsend
    exact ⟨_, runUntilError_singleton hsend, rfl, by simp [txRequest]⟩

end Sys2Proof.Statements
end

section

/-! ## Refused opcodes, and the port until a command is whole (30_encoding.md R87, R88) -/

namespace Sys2Proof

open Sys2Proof.Statements

theorem encode_eq_cons (i : Instr) : ∃ code operands, encode i = code :: operands := by
  cases i <;> exact ⟨_, _, rfl⟩

/-- No command's opcode is reserved (30_encoding.md R83). -/
theorem opcode_not_reserved {i : Instr} {code : Byte} {operands : List Byte} (h : encode i = code :: operands) :
    ¬ Reserved code := by
  cases i <;> (cases h; unfold Reserved; decide)

/-- A reserved opcode reads as one, and no operand is taken: were it read as a command, it would be that command's opcode. -/
theorem decodeOp_reserved {op : Byte} (h : Reserved op) (rest : List Byte) : decodeOp op rest = .reserved op rest := by
  have hne {i : Instr} {code : Byte} {operands : List Byte} (he : encode i = code :: operands) : op ≠ code := by
    rintro rfl; exact opcode_not_reserved he h
  have hplain : op ≠ 0x01 ∧ op ≠ 0x20 ∧ op ≠ 0x10 ∧ op ≠ 0x11 ∧ op ≠ 0x12 :=
    ⟨hne (i := .settmo 0) rfl, hne (i := .poll 0) rfl, hne (i := .reqnew 0 0) rfl, hne (i := .reqcpy []) rfl,
      hne (i := .reqtake []) rfl⟩
  rcases decodeOp_noOperand hplain rest with ⟨i, hi⟩ | hr
  · obtain ⟨code, operands, hcode⟩ := encode_eq_cons i
    have hbytes : op :: rest = encode i ++ rest := eq_encode_append_of_decode hi
    rw [hcode] at hbytes
    exact absurd (List.cons.inj hbytes).1 (hne hcode)
  · exact hr

theorem internal_opcode_cases {op : Byte} (hge : 0x80 ≤ op) (hle : op ≤ 0x84) :
    op = 0x80 ∨ op = 0x81 ∨ op = 0x82 ∨ op = 0x83 ∨ op = 0x84 := by
  bv_omega

theorem decodeOp_internal {op : Byte} (hge : 0x80 ≤ op) (hle : op ≤ 0x84) (rest : List Byte) :
    ∃ i, HostMicroOp i ∧ decodeOp op rest = .instr i rest := by
  rcases internal_opcode_cases hge hle with rfl | rfl | rfl | rfl | rfl
  · exact ⟨.beginSize .port, .inl rfl, rfl⟩
  · exact ⟨.setApiId .port, .inr (.inl rfl), rfl⟩
  · exact ⟨.writeAt .port, .inr (.inr (.inl rfl)), rfl⟩
  · exact ⟨.accCsum .port, .inr (.inr (.inr (.inl rfl))), rfl⟩
  · exact ⟨.isComplete .port, .inr (.inr (.inr (.inr rfl))), rfl⟩

theorem decodeW_ne_reserved (mk : U32 → Instr) (bs : List Byte) (op : Byte) (rest : List Byte) :
    decodeW mk bs ≠ .reserved op rest := by
  unfold decodeW
  split <;> nofun

theorem decodeA_ne_reserved (mk : U32 → U32 → Instr) (bs : List Byte) (op : Byte) (rest : List Byte) :
    decodeA mk bs ≠ .reserved op rest := by
  unfold decodeA
  split <;> nofun

theorem decodeB_ne_reserved (mk : List Byte → Instr) (bs : List Byte) (op : Byte) (rest : List Byte) :
    decodeB mk bs ≠ .reserved op rest := by
  unfold decodeB
  split
  · split <;> nofun
  · nofun

/-- A command's opcode never reads as reserved, whatever the bytes after it. -/
theorem decodeOp_opcode_ne_reserved {i : Instr} {code : Byte} {operands : List Byte} (h : encode i = code :: operands)
    (bs : List Byte) (op : Byte) (rest : List Byte) : decodeOp code bs ≠ .reserved op rest := by
  cases i with
  | settmo w => cases h; exact decodeW_ne_reserved .settmo bs op rest
  | poll now => cases h; exact decodeW_ne_reserved .poll bs op rest
  | reqnew hi lo => cases h; exact decodeA_ne_reserved .reqnew bs op rest
  | reqcpy data => cases h; exact decodeB_ne_reserved .reqcpy bs op rest
  | reqtake data => cases h; exact decodeB_ne_reserved .reqtake bs op rest
  | _ => cases h; exact fun hr => Decoded.noConfusion hr

/-- Until its last byte has arrived, a command reads as no command at all: were a proper prefix a command's encoding, the
whole would decode to that command too. -/
theorem decode_take_encode {i : Instr} (h : i.wellFormed = true) {k : Nat} (hk : k < (encode i).length) :
    decode ((encode i).take k) = .incomplete := by
  cases hd : decode ((encode i).take k) with
  | instr j rest =>
    have hwhole : encode i = encode j ++ (rest ++ (encode i).drop k) := by
      rw [← List.append_assoc, ← eq_encode_append_of_decode hd, List.take_append_drop]
    have hi := decode_encode_append h []
    rw [List.append_nil, hwhole, decode_encode_append (wellFormed_of_decode hd)] at hi
    obtain ⟨rfl, hleft⟩ := Decoded.instr.inj hi
    have hdrop : (encode j).drop k = [] := (List.append_eq_nil_iff.1 hleft).2
    exact absurd (List.drop_eq_nil_iff.1 hdrop) (Nat.not_le.2 hk)
  | reserved op rest =>
    obtain ⟨code, operands, hcode⟩ := encode_eq_cons i
    rw [hcode] at hd
    cases k with
    | zero => cases hd
    | succ k => exact absurd hd (decodeOp_opcode_ne_reserved hcode _ op rest)
  | incomplete => rfl

end Sys2Proof

namespace Sys2Proof.Machine

open Sys2Proof.Statements Sys2Proof.Safety

/-- A micro-operation on the host port answers ERR_INTERNAL and has no effect (30_encoding.md R87). -/
theorem exec_hostMicroOp {i : Instr} (h : HostMicroOp i) (s : State) :
    exec i s = .next (answered s ⟨.errInternal, []⟩) := by
  rcases h with rfl | rfl | rfl | rfl | rfl <;> rfl

end Sys2Proof.Machine

namespace Sys2Proof.Statements

open Sys2Proof.Machine Sys2Proof.Safety

/-- Settles O47: an internal opcode reads as the micro-operation that the port refuses, a reserved one as reserved. -/
theorem refusedOpcodesAreOneByte : Obligations.RefusedOpcodesAreOneByte := by
  intro op rest s hport
  have hd : decode s.env.port = decodeOp op rest := by rw [hport]; rfl
  refine ⟨fun hge hle => ?_, fun hr => ?_⟩
  · obtain ⟨i, hmicro, hi⟩ := decodeOp_internal hge hle rest
    rw [step_instr (hd.trans hi), exec_hostMicroOp hmicro]
  · exact step_reserved (hd.trans (decodeOp_reserved hr rest))

/-- Settles O49: the whole command decodes, and a proper prefix of it is incomplete. -/
theorem portHoldsUntilComplete : Obligations.PortHoldsUntilComplete := by
  intro i s hw
  refine ⟨fun rest hport => ?_, fun k hk hport hagenda => ?_⟩
  · have hd : decode s.env.port = .instr i rest := by rw [hport]; exact decode_encode_append hw rest
    exact step_instr hd
  · have hd : decode s.env.port = .incomplete := by rw [hport]; exact decode_take_encode hw hk
    rw [step_incomplete hd, hostTurn, hagenda]

/-- Settles O44, number by number. -/
theorem responseAndStatusNumbers : Obligations.ResponseAndStatusNumbers := by
  refine ⟨rfl, rfl, fun _ => rfl, fun c => ?_, fun st => ?_⟩
  · cases c <;> decide
  · cases st <;> decide

/-- Settles O55: 23 closed words, each evaluated. -/
theorem exampleWordsDecode : Obligations.ExampleWordsDecode := by
  unfold Obligations.ExampleWordsDecode
  decide

end Sys2Proof.Statements
end

section

/-! ## The encoded frame as a byte sequence (40_encoder.md R106, R112) -/

namespace Sys2Proof.Machine

open Sys2Proof.Statements

/-- The content bytes, with the parameters of R106 written out. -/
theorem frameBody_eq (hi lo : U32) (p : List Byte) :
    frameBody hi lo p = [0x10, 0x00] ++ be32 hi ++ be32 lo ++ [0xFF, 0xFE, 0x00, 0x00] ++ p := rfl

/-- An encoded frame is a frame of the wire: the length bytes, the API id 0x10 and the rest (30_encoding.md R70). -/
theorem encodeFrame_eq_frame (hi lo : U32) (p : List Byte) :
    encodeFrame hi lo p = frame ((BitVec.ofNat 16 (14 + p.length)).extractLsb' 8 8)
      ((BitVec.ofNat 16 (14 + p.length)).extractLsb' 0 8) 0x10 ((encodeFrame hi lo p).drop 4) := rfl

theorem declared_be16 (n : U16) : declared (n.extractLsb' 8 8) (n.extractLsb' 0 8) = n.toNat := by
  rw [declared, ← toNat_u16Of, u16Of_be16]

/-- The length field holds the length of the content bytes, as long as 16 bits hold it (40_encoder.md R106). -/
theorem declared_lengthField {n : Nat} (h : 14 + n ≤ 65535) :
    declared ((BitVec.ofNat 16 (14 + n)).extractLsb' 8 8) ((BitVec.ofNat 16 (14 + n)).extractLsb' 0 8) = 14 + n := by
  have hlt : 14 + n < 2 ^ 16 := by omega
  rw [declared_be16, BitVec.toNat_ofNat, Nat.mod_eq_of_lt hlt]

/-- The checksum byte completes the sum of the content bytes to 0xFF (30_encoding.md R75). -/
theorem sum8_append_checksumByte (bs : List Byte) : sum8 (bs ++ [checksumByte (sum8 bs)]) = 0xFF := by
  calc sum8 (bs ++ [checksumByte (sum8 bs)])
      = sum8 bs + (0xFF - sum8 bs) := by rw [sum8_append]; simp [sum8, checksumByte]
    _ = 0xFF := by rw [BitVec.add_comm, BitVec.sub_add_cancel]

theorem sum8_encodeFrame_drop_three (hi lo : U32) (p : List Byte) : sum8 ((encodeFrame hi lo p).drop 3) = 0xFF :=
  sum8_append_checksumByte (frameBody hi lo p)

/-- The parser accepts an encoded frame of up to 65520 content bytes (30_encoding.md R71). -/
theorem good_encodeFrame (hi lo : U32) {p : List Byte} (h : p.length ≤ 65506) :
    Good ((BitVec.ofNat 16 (14 + p.length)).extractLsb' 8 8) ((BitVec.ofNat 16 (14 + p.length)).extractLsb' 0 8) 0x10
      ((encodeFrame hi lo p).drop 4) := by
  have hdecl := declared_lengthField (n := p.length) (by omega)
  refine ⟨⟨by omega, by omega, ?_⟩, sum8_encodeFrame_drop_three hi lo p⟩
  rw [List.length_drop, length_encodeFrame, hdecl]; omega

/-- The payload stands at offset 17, before the checksum byte. -/
theorem encodeFrame_payload (hi lo : U32) (p : List Byte) : ((encodeFrame hi lo p).drop 17).take p.length = p :=
  List.take_left

end Sys2Proof.Machine

namespace Sys2Proof.Statements

open Sys2Proof.Machine

/-- Settles O9: the encoder's definition with the parameters written out. -/
theorem encodedFrameBytes : Obligations.EncodedFrameBytes := by
  intro hi lo p _
  rw [encodeFrame, frameBody_eq]
  rfl

/-- Settles O10: the length field and the checksum by their lemmas, the fixed offsets by evaluation. -/
theorem encodedFrameLaws : Obligations.EncodedFrameLaws := by
  intro hi lo p hlen
  have hfield : 14 + p.length = (encodeFrame hi lo p).length - 4 := by rw [length_encodeFrame]; omega
  exact ⟨length_encodeFrame hi lo p, rfl, ⟨_, _, rfl, rfl, (declared_lengthField (by omega)).trans hfield⟩,
    sum8_encodeFrame_drop_three hi lo p, rfl, rfl, rfl, rfl, encodeFrame_payload hi lo p⟩

/-- Settles O39: an encoded frame is a good frame, and the parser accepts every good frame. -/
theorem encodedFrameIsAccepted : Obligations.EncodedFrameIsAccepted := by
  intro now s hi lo p rest ha h0 hlen hin
  have hdecl := declared_lengthField (n := p.length) (by omega)
  rw [encodeFrame_eq_frame] at hin
  obtain ⟨t, ht, hresp, hrest, -, ⟨hvalid, hapi, hcsum, hsize, hpay⟩, -⟩ :=
    wellFormedFrameIsAccepted now s [] _ _ _ _ rest ha h0 (by simp) (good_encodeFrame hi lo hlen) hin
  rw [List.nil_append, ← encodeFrame_eq_frame, length_encodeFrame] at hresp
  rw [hdecl] at hsize hpay
  exact ⟨t, ht, hresp, hrest, hvalid, hapi, hcsum, hsize, hpay⟩

end Sys2Proof.Statements
end

section

/-! ## The request commands (40_encoder.md R103 to R105) -/

namespace Sys2Proof.Machine

/-- REQCPY and REQTAKE share their meaning (40_encoder.md R105). -/
theorem exec_eq_attachPayload {i : Instr} {data : List Byte} (h : i = .reqcpy data ∨ i = .reqtake data) (s : State) :
    exec i s = attachPayload data s := by
  rcases h with rfl | rfl <;> rfl

theorem length_lt_of_wellFormed {i : Instr} {data : List Byte} (h : i = .reqcpy data ∨ i = .reqtake data)
    (hw : i.wellFormed = true) : data.length < 65536 := by
  rcases h with rfl | rfl <;> exact of_decide_eq_true hw

theorem attachPayload_noRequest {data : List Byte} {s : State} (h : s.req.opened = false) :
    attachPayload data s = .next (s.raise .errNoRequest) := by
  rw [attachPayload, if_pos h]

theorem attachPayload_immutable {data : List Byte} {s : State} (ho : s.req.opened = true) (hs : s.req.isSet = true) :
    attachPayload data s = .next (s.raise .errImmutable) := by
  rw [attachPayload, if_neg (by simp [ho]), if_pos hs]

end Sys2Proof.Machine

namespace Sys2Proof.Statements

open Sys2Proof.Machine

/-- Settles O6: its five writes are REQNEW's definition. -/
theorem reqnewOpensRequest : Obligations.ReqnewOpensRequest := fun _ _ _ => ⟨rfl, rfl⟩

/-- Settles O8: both commands are `attachPayload`. -/
theorem reqtakeEqualsReqcpy : Obligations.ReqtakeEqualsReqcpy := fun _ s =>
  (exec_eq_attachPayload (.inr rfl) s).trans (exec_eq_attachPayload (.inl rfl) s).symm

/-- Settles O7: one case per answer of `attachPayload`; the bytes stored by the laws of `Memory.writeBytes`. -/
theorem payloadIsAttachedOnce : Obligations.PayloadIsAttachedOnce := by
  intro data s i hi hw
  have hlen := length_lt_of_wellFormed hi hw
  rw [exec_eq_attachPayload hi]
  refine ⟨attachPayload_noRequest, attachPayload_immutable, fun ho hs => ?_, rfl, rfl⟩
  exact ⟨_, attachPayload_ok ho hs (Nat.le_of_lt_succ hlen), rfl, Nat.mod_eq_of_lt hlen,
    Memory.bytes_writeBytes s.req.pay data 0,
    fun k hk => Memory.byteAt_writeBytes_out s.req.pay data 0 k (.inr ((Nat.zero_add _).trans_le hk))⟩

end Sys2Proof.Statements
end

section

/-! ## ENCODE and SEND (40_encoder.md R108 to R111) -/

namespace Sys2Proof.Machine

/-! ### The three answers of the shared checks -/

section
variable {s : State}

theorem withFrame_noPayload (h : s.req.opened = false ∨ s.req.isSet = false)
    (k : List Byte → Host.Outcome State Fault Refusal) : withFrame s k = .next (s.raise .errNoPayload) := by
  rw [withFrame_eq, if_pos h]

variable (ho : s.req.opened = true) (hs : s.req.isSet = true)
include ho hs

theorem withFrame_overflow (h : 14 + s.req.len.toNat > 65535) (k : List Byte → Host.Outcome State Fault Refusal) :
    withFrame s k = .next (s.raise .errLenOverflow) := by
  rw [withFrame_eq, if_neg (by simp [ho, hs])]
  exact if_pos h

theorem withFrame_frame (h : 14 + s.req.len.toNat ≤ 65535) (k : List Byte → Host.Outcome State Fault Refusal) :
    withFrame s k = k (encodeFrame s.req.addrHi s.req.addrLo (s.req.pay.bytes 0 s.req.len.toNat)) := by
  rw [withFrame_eq, if_neg (by simp [ho, hs])]
  exact if_neg (Nat.not_lt.2 h)

end

theorem exec_encode_eq (s : State) :
    exec .encode s = withFrame s fun f => .next (s.respond .ok (be32 (BitVec.ofNat 32 f.length) ++ f)) := rfl

theorem exec_send_attached {s : State} (h : s.cfg.attached = true) :
    exec .send s = withFrame s fun f => .next ((s.streamWrite f).respond .ok []) :=
  if_neg (by simp [h])

/-! ### What ENCODE and SEND read -/

/-- From every state with this request and this configuration the command sends the same bytes, gives the same response and
does nothing else. -/
def AnswersFrom (req : Request) (cfg : Cfg) (o : State → Host.Outcome State Fault Refusal) : Prop :=
  ∃ c d sent, ∀ s, s.req = req → s.cfg = cfg → o s = .next ((s.streamWrite sent).respond c d)

variable {req : Request} {cfg : Cfg}

/-- An error is a response with nothing sent. -/
theorem answersFrom_respond (c : RespCode) (d : List Byte) : AnswersFrom req cfg fun s => .next (s.respond c d) :=
  ⟨c, d, [], fun s _ _ => by simp [State.streamWrite]⟩

theorem answersFrom_ite {p : Request → Cfg → Prop} [∀ r c, Decidable (p r c)]
    {o o' : State → Host.Outcome State Fault Refusal}
    (ho : AnswersFrom req cfg o) (ho' : AnswersFrom req cfg o') :
    AnswersFrom req cfg fun s => if p s.req s.cfg then o s else o' s := by
  by_cases hp : p req cfg
  · obtain ⟨c, d, sent, h⟩ := ho
    exact ⟨c, d, sent, fun s hreq hcfg => (if_pos (by rwa [hreq, hcfg])).trans (h s hreq hcfg)⟩
  · obtain ⟨c, d, sent, h⟩ := ho'
    exact ⟨c, d, sent, fun s hreq hcfg => (if_neg (by rwa [hreq, hcfg])).trans (h s hreq hcfg)⟩

/-- The shared checks read only the request, and so does the frame they hand on. -/
theorem answersFrom_withFrame {k : State → List Byte → Host.Outcome State Fault Refusal}
    (hk : ∀ f, AnswersFrom req cfg fun s => k s f) : AnswersFrom req cfg fun s => withFrame s (k s) := by
  simp only [withFrame_eq]
  refine answersFrom_ite (p := fun r _ => r.opened = false ∨ r.isSet = false) (answersFrom_respond _ _)
    (answersFrom_ite (p := fun r _ => Config.txOverhead + r.len.toNat > Config.lenMax) (answersFrom_respond _ _) ?_)
  obtain ⟨c, d, sent, h⟩ := hk (encodeFrame req.addrHi req.addrLo (req.pay.bytes 0 req.len.toNat))
  exact ⟨c, d, sent, fun s hreq hcfg => by subst hreq; exact h s rfl hcfg⟩

theorem answersFrom_exec_encode : AnswersFrom req cfg (exec .encode) :=
  answersFrom_withFrame (k := fun s f => .next (s.respond .ok (be32 (BitVec.ofNat 32 f.length) ++ f)))
    fun _ => answersFrom_respond _ _

theorem answersFrom_exec_send : AnswersFrom req cfg (exec .send) :=
  answersFrom_ite (p := fun _ c => c.attached = false) (answersFrom_respond _ _)
    (answersFrom_withFrame fun f => ⟨.ok, [], f, fun _ _ _ => rfl⟩)

end Sys2Proof.Machine

namespace Sys2Proof.Statements

open Sys2Proof.Machine

/-- Settles O11: the three answers of the shared checks, and the frame's length. -/
theorem encodeReturnsFrame : Obligations.EncodeReturnsFrame := by
  intro s
  rw [exec_encode_eq]
  refine ⟨fun h => withFrame_noPayload h _, fun ho hs h => withFrame_overflow ho hs h _, fun ho hs h => ?_, rfl⟩
  rw [withFrame_frame ho hs h, length_encodeFrame, Memory.length_bytes]
  rfl

/-- Settles O12: the stream's check, then the three answers of the shared checks. -/
theorem sendAppendsFrame : Obligations.SendAppendsFrame := by
  intro s
  refine ⟨fun ha => if_pos ha, fun ha h => ?_, fun ha ho hs h => ?_, fun ha ho hs h => ?_, rfl⟩
  · exact (exec_send_attached ha).trans (withFrame_noPayload h _)
  · exact (exec_send_attached ha).trans (withFrame_overflow ho hs h _)
  · exact (exec_send_attached ha).trans (withFrame_frame ho hs h _)

/-- Settles O13: response and bytes sent are given by the request and the configuration alone. -/
theorem encodingIsPure : Obligations.EncodingIsPure := by
  intro s i hi
  obtain ⟨c, d, sent, h⟩ : AnswersFrom s.req s.cfg (exec i) := by
    rcases hi with rfl | rfl
    · exact answersFrom_exec_encode
    · exact answersFrom_exec_send
  exact ⟨_, ⟨c, d⟩, sent, h s rfl rfl, rfl, rfl, rfl, rfl, rfl, rfl, rfl,
    fun s' hreq hcfg => ⟨_, h s' hreq hcfg, rfl, rfl⟩⟩

end Sys2Proof.Statements
end

section

/-! ## The accessors of the latest slot (41_accumulator.md R139 to R149) -/

namespace Sys2Proof.Machine

open Sys2Proof.Safety Sys2Proof.Statements

/-- LCOMPL's data byte (41_accumulator.md R145). -/
theorem bitByte_isCompleteChecksum (c : Byte) :
    bitByte (isCompleteChecksum c) = if c = 0xFF then 0x01 else 0x00 := by
  simp [bitByte, isCompleteChecksum]

/-- The two big-endian halves are the eight bytes that they were read from (20_memory.md R54). -/
theorem senderAddress_bytes_eight (m : Memory) : senderAddress (m.bytes 0 8) = m.bytes 0 8 := by
  show be32 (u32Of (m.byteAt 0) (m.byteAt 1) (m.byteAt 2) (m.byteAt 3)) ++
    be32 (u32Of (m.byteAt 4) (m.byteAt 5) (m.byteAt 6) (m.byteAt 7)) = _
  rw [be32_u32Of, be32_u32Of]
  rfl

/-- Every accessor but LVALID looks at the slot first (41_accumulator.md R149). -/
theorem exec_eq_onFullSlot {i : Instr} (h : FullSlotAccessor i) (s : State) : ∃ k, exec i s = onFullSlot s k := by
  rcases h with rfl | rfl | rfl | rfl | rfl | rfl | rfl <;> exact ⟨_, rfl⟩

/-- A meaning that goes on and only answers gives one response. -/
theorem answered_of_goesOn {s : State} {o : Host.Outcome State Fault Refusal} (hg : GoesOn o) (ho : OnlyAnswers s o) :
    ∃ r, o = .next (answered s r) := by
  obtain ⟨t, rfl⟩ := hg
  obtain ⟨c, d, rfl⟩ := ho t rfl
  exact ⟨⟨c, d⟩, rfl⟩

theorem onFullSlot_respond_answered (s : State) (c : RespCode) (d : List Byte) :
    ∃ r, onFullSlot s (.next (s.respond c d)) = .next (answered s r) :=
  answered_of_goesOn (goesOn_onFullSlot (goesOn_next _)) (onlyAnswers_onFullSlot (onlyAnswers_respond s c d))

end Sys2Proof.Machine

namespace Sys2Proof.Statements

open Sys2Proof.Machine Sys2Proof.Safety

/-- Settles O19: every accessor but LVALID is an `onFullSlot`. -/
theorem emptySlotIsRefused : Obligations.EmptySlotIsRefused := by
  intro s i hi hv
  obtain ⟨k, hk⟩ := exec_eq_onFullSlot hi s
  rw [hk, onFullSlot_empty hv, raise_eq_answered]

/-- Settles O15: the full slot field by field, the empty one by O19, the range and the checksum by the slot's invariant. -/
theorem scalarAccessorsReadTheSlot : Obligations.ScalarAccessorsReadTheSlot := by
  intro s
  refine ⟨rfl, fun hv => ⟨onFullSlot_full hv _, onFullSlot_full hv _, onFullSlot_full hv _, ?_, fun hi => ?_⟩,
    fun hv i hi => emptySlotIsRefused s i ?_ hv, rfl, rfl, rfl, rfl, rfl⟩
  · rw [← bitByte_isCompleteChecksum]
    exact onFullSlot_full hv _
  · obtain ⟨hcsum, hpos, hmax, -⟩ := hi.latest hv
    exact ⟨hcsum, hpos, hmax⟩
  · rcases hi with rfl | rfl | rfl | rfl <;> simp [FullSlotAccessor]

/-- Settles O16: a full slot's valid length covers the whole read. -/
theorem lpayldReturnsPayload : Obligations.LpayldReturnsPayload :=
  fun _ => ⟨fun hv => onFullSlot_empty hv _, fun hv => execLpayld_full hv, rfl⟩

/-- Settles O17: the two answers of a full slot, and the address read back as its eight bytes. -/
theorem lsaddrReturnsFirstEightBytes : Obligations.LsaddrReturnsFirstEightBytes := by
  intro s
  refine ⟨fun hv => onFullSlot_empty hv _, fun hv hshort => ?_, fun hv hlong => ?_, rfl⟩
  · exact (execLsaddr_full hv).trans (if_pos hshort)
  · refine (execLsaddr_full hv).trans ((if_neg (Nat.not_lt.2 hlong)).trans ?_)
    rw [Config.rxAddrBytes, senderAddress_bytes_eight]
    rfl

/-- Settles O18: the two answers of a full slot. -/
theorem lappdatStripsPrefixAndChecksum : Obligations.LappdatStripsPrefixAndChecksum := by
  intro s
  refine ⟨fun hv => onFullSlot_empty hv _, fun hv hshort => ?_, fun hv hlong => ?_, rfl⟩
  · exact (execLappdat_full hv).trans (if_pos hshort)
  · exact (execLappdat_full hv).trans (if_neg (Nat.not_le.2 hlong))

/-- Settles O20: no accessor faults, and each only answers. -/
theorem accessorsChangeNothing : Obligations.AccessorsChangeNothing := by
  intro s i hi
  rcases hi with rfl | rfl | rfl | rfl | rfl | rfl | rfl | rfl
  · exact ⟨_, rfl⟩
  · exact onFullSlot_respond_answered s _ _
  · exact onFullSlot_respond_answered s _ _
  · exact answered_of_goesOn (goesOn_execLpayld s) (onlyAnswers_onFullSlot (onlyAnswers_withLatestBytes s _ _ _ _))
  · exact onFullSlot_respond_answered s _ _
  · exact onFullSlot_respond_answered s _ _
  · exact answered_of_goesOn (goesOn_execLsaddr s) (onlyAnswers_execLsaddr s)
  · exact answered_of_goesOn (goesOn_execLappdat s) (onlyAnswers_execLappdat s)

end Sys2Proof.Statements
end

section

/-! ## The accumulator's micro-operations (41_accumulator.md R132 to R137) -/

namespace Sys2Proof.Machine

theorem exec_beginSize_high {s : State} (h : s.acc.sizePhase = false) (b : Byte) :
    exec (.beginSize (.parser b)) s = .next { s with acc := { s.acc with sizeHigh := b, sizePhase := true } } :=
  congrArg (fun a => Host.Outcome.next (s.setAcc a)) (beginSize_high h b)

theorem exec_beginSize_low {s : State} (h : s.acc.sizePhase = true) (b : Byte) :
    exec (.beginSize (.parser b)) s = .next { s with acc := { s.acc with sizeLow := b, sizePhase := false } } :=
  congrArg (fun a => Host.Outcome.next (s.setAcc a)) (beginSize_low h b)

theorem isCompleteChecksum_iff (c : Byte) : isCompleteChecksum c = true ↔ c.toNat = 255 := by
  simp [isCompleteChecksum, ← BitVec.toNat_inj]

theorem execWriteAt_unallocated {s : State} (h : s.acc.alloc = false) (kb : U16 × Byte) :
    execWriteAt (.parser kb) s = .fault .payloadUnallocated := by
  rw [execWriteAt, microOp_parser, if_pos h]

theorem Memory.writeChecked_outOfRange (m : Memory) {len i : Nat} (b : Byte) (h : len ≤ i) :
    m.writeChecked len i b = .fault .payloadOutOfRange :=
  if_neg (Nat.not_lt.2 h)

theorem execWriteAt_outOfRange {s : State} {k : U16} (ha : s.acc.alloc = true) (hk : s.acc.size.toNat ≤ k.toNat)
    (b : Byte) : execWriteAt (.parser (k, b)) s = .fault .payloadOutOfRange := by
  rw [execWriteAt, microOp_parser, if_neg (by simp [ha]), Memory.writeChecked_outOfRange _ _ hk, andThen_fault]

end Sys2Proof.Machine

namespace Sys2Proof.Statements

open Sys2Proof.Machine

/-- Settles O21: the first call ends in phase 1, so the second one writes the low byte. -/
theorem beginSizeAssemblesSize : Obligations.BeginSizeAssemblesSize := by
  intro b c s
  refine ⟨fun h => ?_, fun h => ?_, rfl⟩
  · exact ⟨_, exec_beginSize_high h b, rfl, beginSize_high h b ▸ toNat_beginSize_high h b,
      _, exec_beginSize_low rfl c, rfl, toNat_u16Of b c⟩
  · exact ⟨_, exec_beginSize_low h b, rfl, beginSize_low h b ▸ toNat_beginSize_low h b⟩

/-- Settles O22: each effect is the model's one write; the sum is a sum of 8-bit words. -/
theorem apiIdAndChecksumMicroOps : Obligations.ApiIdAndChecksumMicroOps :=
  fun b s => ⟨rfl, ⟨_, rfl, rfl, BitVec.toNat_add s.acc.csum b⟩, rfl, isCompleteChecksum_iff _, rfl, rfl, rfl⟩

/-- Settles O23: the store by the laws of `Memory.write`, and the two faults outside the precondition. -/
theorem writeAtStoresOneByte : Obligations.WriteAtStoresOneByte := by
  intro k b s
  refine ⟨fun ha hk => ?_, fun ha => execWriteAt_unallocated ha _, fun ha hk => execWriteAt_outOfRange ha hk b, rfl⟩
  exact ⟨_, execWriteAt_ok b ha hk, rfl, Memory.byteAt_write_self s.acc.pay k.toNat b,
    fun i hi => Memory.byteAt_write_ne s.acc.pay hi b⟩

end Sys2Proof.Statements
end

section

/-! ## The byte step, state by state (42_parser.md R161 to R169) -/

namespace Sys2Proof.Machine

open Sys2Proof.Statements

/-! ### The three answers of LEN_LO (42_parser.md R164) -/

section
variable {s : State} (h2 : s.p.counter = 2) {b : Byte}
include h2

theorem byteStep_lenLo_big (hbig : (s.acc.beginSize b).size.toNat > 65520) (now : U32) :
    byteStep b now s = .next ((s.setAcc (s.acc.beginSize b)).discard, .tooLarge) :=
  (byteStep_lenLo h2 b now).trans (if_pos hbig)

theorem byteStep_lenLo_zero (hzero : (s.acc.beginSize b).size.toNat = 0) (now : U32) :
    byteStep b now s = .next ((s.setAcc (s.acc.beginSize b)).discard, .dropped) := by
  have hle : ¬ (s.acc.beginSize b).size.toNat > Config.maxPayload := by rw [hzero]; decide
  rw [byteStep_lenLo h2, if_neg hle, if_pos (BitVec.eq_of_toNat_eq hzero)]

theorem byteStep_lenLo_accepted (hpos : 1 ≤ (s.acc.beginSize b).size.toNat)
    (hmax : (s.acc.beginSize b).size.toNat ≤ 65520) (now : U32) :
    byteStep b now s = .next ((s.setAcc (s.acc.beginSize b)).allocate.setCounter 3, .none) := by
  have hne : (s.acc.beginSize b).size ≠ 0 := fun hzero => by rw [hzero] at hpos; exact absurd hpos (by decide)
  exact (byteStep_lenLo h2 b now).trans ((if_neg (Nat.not_lt.2 hmax)).trans (if_neg hne))

end

end Sys2Proof.Machine

namespace Sys2Proof.Statements

open Sys2Proof.Machine Sys2Proof.Safety

/-- Settles O25: the start delimiter's write is a fresh accumulator and a sum that 33 bits hold. -/
theorem idleStepWaitsForDelimiter : Obligations.IdleStepWaitsForDelimiter := by
  intro b now s h0
  refine ⟨?_, fun hb => byteStep_idle_other h0 hb now⟩
  rintro rfl
  exact ⟨_, byteStep_idle_start h0 now, rfl, toNat_deadline now s.cfg.timeout, rfl, rfl, rfl, rfl, rfl, rfl, rfl, rfl⟩

/-- Settles O26: LEN_HI is BEGIN_SIZE in phase 0. -/
theorem lenHiStepTakesHighByte : Obligations.LenHiStepTakesHighByte := by
  intro b now s h1 hphase
  have hhigh : (s.acc.beginSize b).size.toNat / 256 = b.toNat := by rw [toNat_beginSize_high hphase]; omega
  exact ⟨_, byteStep_lenHi h1 b now, rfl, beginSize_high hphase b, hhigh, rfl, rfl, rfl, rfl⟩

/-- Settles O27: the three ranges of the size that BEGIN_SIZE in phase 1 completes. -/
theorem lenLoStepTestsSize : Obligations.LenLoStepTestsSize := by
  intro b now s h2 hphase
  rw [← toNat_beginSize_low hphase b]
  refine ⟨fun hbig => ?_, fun hzero => ?_, fun hpos hmax => ?_⟩
  · exact ⟨_, byteStep_lenLo_big h2 hbig now, rfl, rfl, rfl, rfl, rfl⟩
  · exact ⟨_, byteStep_lenLo_zero h2 hzero now, rfl, rfl, rfl, rfl, rfl⟩
  · have hacc := beginSize_low hphase b
    have hcsum : (s.acc.beginSize b).csum = s.acc.csum := by rw [hacc]
    have hapi : (s.acc.beginSize b).apiId = s.acc.apiId := by rw [hacc]
    exact ⟨_, byteStep_lenLo_accepted h2 hpos hmax now, rfl, rfl, congrArg Acc.sizePhase hacc, rfl, hcsum, hapi,
      rfl, rfl, rfl, rfl, rfl⟩

/-- Settles O28: the step is SET_API_ID and then ACC_CSUM. -/
theorem apiStepRecordsApiId : Obligations.ApiStepRecordsApiId :=
  fun b now _ h3 => ⟨_, byteStep_api h3 b now, rfl, rfl, rfl, rfl, rfl, rfl⟩

/-- Settles O29: one ACC_CSUM and one WRITE_AT; the counter is at most 65522, so it does not wrap. -/
theorem bodyStepStoresByte : Obligations.BodyStepStoresByte := by
  intro b now s h4 hlt halloc hmax
  have hnowrap : s.p.counter.toNat + 1 < 2 ^ 16 := by omega
  have hcounter : (s.p.counter + 1).toNat = s.p.counter.toNat + 1 := BitVec.toNat_add_of_lt hnowrap
  refine ⟨_, byteStep_body h4 hlt halloc b now, hcounter, rfl, rfl, ?_, fun i hi => ?_, rfl, rfl, rfl, rfl⟩
  · rw [← counter_sub_four h4]
    exact Memory.byteAt_write_self s.acc.pay _ b
  · rw [← counter_sub_four h4] at hi
    exact Memory.byteAt_write_ne s.acc.pay hi b

/-- Settles O30: promotion copies the first `ACC.size` bytes, of which the byte just stored is the last. -/
theorem completingStepPromotesOrDrops : Obligations.CompletingStepPromotesOrDrops := by
  intro b now s h4 heq halloc
  have hstep := byteStep_complete h4 heq halloc b now
  have hoffset : (s.p.counter - 4).toNat = s.acc.size.toNat - 1 := by rw [counter_sub_four h4]; omega
  have hcopied {i : Nat} (hi : i < s.acc.size.toNat) :
      (latestOf (accAfterBody s b)).pay.byteAt i = (s.acc.pay.write (s.acc.size.toNat - 1) b).byteAt i := by
    rw [← hoffset]
    exact Memory.byteAt_firstBytes _ hi
  refine ⟨fun hff => ?_, fun hff => ?_⟩
  · rw [if_pos (by rw [hff]; rfl)] at hstep
    refine ⟨_, hstep, rfl, rfl, rfl, hff, rfl, ?_, fun i hi => ?_, rfl, rfl, rfl⟩
    · exact (hcopied (by omega)).trans (Memory.byteAt_write_self _ _ b)
    · exact (hcopied (by omega)).trans (Memory.byteAt_write_ne _ (by omega) b)
  · rw [if_neg (by simpa [isCompleteChecksum] using hff)] at hstep
    exact ⟨_, hstep, rfl, rfl, rfl, rfl, rfl⟩

/-- Settles O32: a rule applies in every state that meets the invariant, and each rule keeps it. -/
theorem byteStepIsTotal : Obligations.ByteStepIsTotal := by
  intro b now s hinv
  obtain ⟨⟨t, e⟩, ht⟩ := goesOn_byteStep hinv b now
  exact ⟨t, e, ht, byteStep_inv hinv ht⟩

end Sys2Proof.Statements
end

section

/-! ## The configuration commands, and POLL without a stream (42_parser.md R176, R184 to R186) -/

namespace Sys2Proof.Statements

open Sys2Proof.Machine Sys2Proof.Safety

theorem exec_poll_detached {s : State} (h : s.cfg.attached = false) (now : U32) :
    exec (.poll now) s = .next (answered s (pollResponse 0x05 0)) :=
  if_pos h

/-- Settles O4: SETTMO is one write to `CFG.timeout`. -/
theorem settmoSetsTimeout : Obligations.SettmoSetsTimeout := fun _ _ => ⟨rfl, rfl⟩

/-- Settles O5: each command is one write to `CFG.attached`, which is all that a detached POLL reads. -/
theorem attachAndDetachSetAttached : Obligations.AttachAndDetachSetAttached :=
  fun _ => ⟨rfl, ⟨_, rfl, rfl, exec_poll_detached rfl⟩, rfl, rfl⟩

/-- Settles O33: a POLL tests `CFG.attached` before anything else. -/
theorem detachedPollIsInvalid : Obligations.DetachedPollIsInvalid :=
  fun now _ h => ⟨exec_poll_detached h now, rfl⟩

end Sys2Proof.Statements
end

section

/-! ## POLL as its byte steps (42_parser.md R177 to R182, R187, R188) -/

namespace Sys2Proof.Machine

/-! ### The end of a drain that is read out -/

theorem past_deadline_iff (now : U32) (d : U33) : zext33 now > d ↔ now.toNat > d.toNat := by
  rw [gt_iff_lt, BitVec.lt_def, toNat_zext33]

section
variable {s : State} {now : U32} (n : U32)

@[simp] theorem finishPoll_lat : (finishPoll now n s).lat = s.lat := by
  unfold finishPoll
  split
  · rfl
  · split <;> rfl

@[simp] theorem finishPoll_env_inbound : (finishPoll now n s).env.inbound = s.env.inbound := by
  unfold finishPoll
  split
  · rfl
  · split <;> rfl

theorem finishPoll_idle (h0 : s.p.counter = 0) : finishPoll now n s = s.respondPoll .none n :=
  if_pos h0

theorem finishPoll_timeout (h0 : s.p.counter ≠ 0) (hlate : now.toNat > s.p.deadline.toNat) :
    finishPoll now n s = s.discard.respondPoll .timeout n :=
  (if_neg h0).trans (if_pos ((past_deadline_iff now _).2 hlate))

theorem finishPoll_inProgress (h0 : s.p.counter ≠ 0) (hle : now.toNat ≤ s.p.deadline.toNat) :
    finishPoll now n s = s.respondPoll .inProgress n :=
  (if_neg h0).trans (if_neg fun hlate => Nat.not_lt.2 hle ((past_deadline_iff now _).1 hlate))

end

/-! ### The events that end a POLL -/

section
variable {b : Byte} {now : U32} {s t : State}

theorem byteStep_of_valid (h : byteStep b now s = .next (t, .valid)) : t.p.counter = 0 ∧ t.lat.valid = true := by
  rcases byteStep_cases h with ⟨-, -, he, -⟩ | ⟨-, -, he, -⟩ | ⟨-, he, -⟩ | ⟨-, -, he, -⟩ | ⟨-, -, he, -⟩ |
    ⟨-, -, -, he, -⟩ | ⟨-, he, -⟩ | ⟨-, -, -, he, -⟩ | ⟨-, -, -, -, -, rfl⟩ | ⟨-, -, -, -, he, -⟩
  pick_goal 9
  · exact ⟨rfl, rfl⟩
  all_goals cases he

theorem byteStep_of_tooLarge (h : byteStep b now s = .next (t, .tooLarge)) : t.p.counter = 0 ∧ t.lat = s.lat := by
  rcases byteStep_cases h with ⟨-, -, he, -⟩ | ⟨-, -, he, -⟩ | ⟨-, he, -⟩ | ⟨-, -, -, rfl⟩ | ⟨-, -, he, -⟩ |
    ⟨-, -, -, he, -⟩ | ⟨-, he, -⟩ | ⟨-, -, -, he, -⟩ | ⟨-, -, -, -, he, -⟩ | ⟨-, -, -, -, he, -⟩
  pick_goal 4
  · exact ⟨rfl, rfl⟩
  all_goals cases he

end

end Sys2Proof.Machine

namespace Sys2Proof.Statements

open Sys2Proof.Machine Sys2Proof.Safety

/-! ### A POLL is a fed part of the stream and an end -/

/-- How a drain ends that has read `n` bytes and fed them up to `u`, with `left` still in the stream: with no byte left, or by
the event of the next byte (42_parser.md R179 to R182). -/
inductive PollEnd (now : U32) (n : Nat) (u : State) : (left : List Byte) → (t : State) → Prop where
  | readOut : PollEnd now n u [] (finishPoll now (BitVec.ofNat 32 n) (u.setInbound []))
  | valid {b : Byte} {rest : List Byte} {v : State} (h : byteStep b now u = .next (v, .valid)) :
    PollEnd now n u (b :: rest) ((v.setInbound rest).respondPoll .valid (BitVec.ofNat 32 (n + 1)))
  | tooLarge {b : Byte} {rest : List Byte} {v : State} (h : byteStep b now u = .next (v, .tooLarge)) :
    PollEnd now n u (b :: rest) ((v.setInbound rest).respondPoll .tooLarge (BitVec.ofNat 32 (n + 1)))

theorem drain_cases {now : U32} {bytes : List Byte} {n : Nat} {s t : State}
    (h : drain now bytes (BitVec.ofNat 32 n) (s.setInbound bytes) = .next t) :
    ∃ eaten left u, bytes = eaten ++ left ∧ Fed now eaten s u ∧ PollEnd now (n + eaten.length) u left t := by
  induction bytes generalizing n s with
  | nil => cases h; exact ⟨[], [], s, rfl, rfl, .readOut⟩
  | cons b rest ih =>
    have hcount : BitVec.ofNat 32 n + 1 = BitVec.ofNat 32 (n + 1) := (BitVec.ofNat_add n 1).symm
    obtain ⟨⟨v, e⟩, hv, ht⟩ := andThen_eq_next.1 h
    have hstep : byteStep b now s = .next (v.setInbound s.env.inbound, e) := byteStep_setInbound hv s.env.inbound
    have hinb : (v.setInbound s.env.inbound).setInbound rest = v := by
      show v.setInbound rest = v
      rw [← show v.env.inbound = rest by rw [byteStep_env hv]; rfl]; rfl
    have more (he : e = .none ∨ e = .dropped) (hd : drain now rest (BitVec.ofNat 32 n + 1) v = .next t) :
        ∃ eaten left u, b :: rest = eaten ++ left ∧ Fed now eaten s u ∧ PollEnd now (n + eaten.length) u left t := by
      rw [hcount, ← hinb] at hd
      obtain ⟨eaten, left, u, rfl, hfed, hend⟩ := ih hd
      refine ⟨b :: eaten, left, u, rfl, ⟨_, e, hstep, he, hfed⟩, ?_⟩
      rwa [List.length_cons, Nat.add_comm eaten.length 1, ← Nat.add_assoc]
    cases e with
    | none => exact more (.inl rfl) ht
    | dropped => exact more (.inr rfl) ht
    | valid => cases ht; rw [hcount, ← hinb]; exact ⟨[], _, s, rfl, rfl, .valid hstep⟩
    | tooLarge => cases ht; rw [hcount, ← hinb]; exact ⟨[], _, s, rfl, rfl, .tooLarge hstep⟩

theorem drain_of_pollEnd {now : U32} {eaten left : List Byte} {n : Nat} {s u t : State} (hfed : Fed now eaten s u)
    (hend : PollEnd now (n + eaten.length) u left t) :
    drain now (eaten ++ left) (BitVec.ofNat 32 n) (s.setInbound (eaten ++ left)) = .next t := by
  have hcount (n : Nat) : BitVec.ofNat 32 (n + 1) = BitVec.ofNat 32 n + 1 := BitVec.ofNat_add n 1
  induction eaten generalizing n s with
  | nil =>
    cases hfed
    cases hend with
    | readOut => rfl
    | valid hv => rw [hcount]; exact drain_cons_valid (byteStep_setInbound hv _)
    | tooLarge hv => rw [hcount]; exact drain_cons_tooLarge (byteStep_setInbound hv _)
  | cons b eaten ih =>
    obtain ⟨v, e, hv, he, hrest⟩ := hfed
    rw [List.length_cons, Nat.add_comm eaten.length 1, ← Nat.add_assoc] at hend
    calc drain now (b :: (eaten ++ left)) (BitVec.ofNat 32 n) (s.setInbound (b :: (eaten ++ left)))
        = drain now (eaten ++ left) (BitVec.ofNat 32 n + 1) (v.setInbound (eaten ++ left)) :=
          drain_cons_next (byteStep_setInbound hv _) he
      _ = .next t := hcount n ▸ ih hrest hend

section
variable {now : U32} {s t : State} (ha : s.cfg.attached = true)
include ha

theorem execPoll_attached : execPoll now s = drain now s.env.inbound 0 s.clearLatest :=
  if_neg (by simp [ha])

theorem execPoll_cases (h : execPoll now s = .next t) :
    ∃ eaten left u, s.env.inbound = eaten ++ left ∧ Fed now eaten s.clearLatest u ∧
      PollEnd now eaten.length u left t := by
  rw [execPoll_attached ha] at h
  obtain ⟨eaten, left, u, hin, hfed, hend⟩ := drain_cases (n := 0) (s := s.clearLatest) h
  exact ⟨eaten, left, u, hin, hfed, by rwa [Nat.zero_add] at hend⟩

theorem execPoll_of_pollEnd {eaten left : List Byte} {u : State} (hin : s.env.inbound = eaten ++ left)
    (hfed : Fed now eaten s.clearLatest u) (hend : PollEnd now eaten.length u left t) : execPoll now s = .next t := by
  rw [execPoll_attached ha, ← drain_of_pollEnd (n := 0) hfed (by rwa [Nat.zero_add]), ← hin]
  rfl

end

/-! ### What the fed bytes and the answer leave unchanged -/

/-- Bytes that end no POLL leave the latest slot as it is, too. -/
theorem fed_frame {now : U32} {eaten : List Byte} {s t : State} (h : Fed now eaten s t) :
    ByteFrame s t ∧ t.lat = s.lat := by
  induction eaten generalizing s with
  | nil => cases h; exact ⟨⟨rfl, rfl, rfl⟩, rfl⟩
  | cons b eaten ih =>
    obtain ⟨u, e, hu, he, hrest⟩ := h
    obtain ⟨⟨hcfg, hreq, henv⟩, hlat⟩ := ih hrest
    obtain ⟨hcfg', hreq', henv', hlat'⟩ := byteStep_frame hu
    refine ⟨⟨hcfg.trans hcfg', hreq.trans hreq', henv.trans henv'⟩, hlat.trans (hlat' ?_)⟩
    rcases he with rfl | rfl <;> nofun

theorem byteFrame_of_fed_byteStep {now : U32} {eaten : List Byte} {b : Byte} {s u v : State} {e : StepEvent}
    (hfed : Fed now eaten s u) (h : byteStep b now u = .next (v, e)) : ByteFrame s v := by
  obtain ⟨⟨hcfg, hreq, henv⟩, -⟩ := fed_frame hfed
  obtain ⟨hcfg', hreq', henv', -⟩ := byteStep_frame h
  exact ⟨hcfg'.trans hcfg, hreq'.trans hreq, henv'.trans henv⟩

theorem pollAnswered_respondPoll {s u : State} (h : ByteFrame s u) (left : List Byte) (st : PollStatus) (n : Nat) :
    PollAnswered s ((u.setInbound left).respondPoll st (BitVec.ofNat 32 n)) (pollStatusByte st) n left := by
  obtain ⟨hcfg, hreq, henv⟩ := h
  exact ⟨hcfg, hreq, henv ▸ rfl⟩

theorem pollAnswered_reads {s t : State} {status : Byte} {n : Nat} {left : List Byte}
    (h : PollAnswered s t status n left) :
    t.env.inbound = left ∧ t.env.responses = s.env.responses ++ [pollResponse status n] := by
  obtain ⟨-, -, henv⟩ := h
  rw [henv]
  exact ⟨rfl, rfl⟩

/-- Settles O60: the drain is its fed bytes and its end, and the three ways of a stream read out are `finishPoll`'s. -/
theorem pollDrainsByteByByte : Obligations.PollDrainsByteByByte := by
  intro now s hinv ha
  obtain ⟨t, ht⟩ := goesOn_execPoll hinv now
  obtain ⟨eaten, left, u, hin, hfed, hend⟩ := execPoll_cases ha ht
  obtain ⟨hframe, -⟩ := fed_frame hfed
  refine ⟨s.clearLatest, u, t, eaten, left, ⟨rfl, rfl, rfl, rfl, rfl, rfl⟩, hfed, hin, ht, ?_⟩
  cases hend with
  | readOut =>
    dsimp only
    split
    · rename_i h0
      rw [finishPoll_idle (s := u.setInbound []) _ h0]
      exact ⟨rfl, rfl, rfl, pollAnswered_respondPoll hframe [] .none _⟩
    · rename_i h0
      split
      · rename_i hlate
        rw [finishPoll_timeout (s := u.setInbound []) _ h0 hlate]
        exact ⟨rfl, rfl, pollAnswered_respondPoll (u := u.discard) hframe [] .timeout _⟩
      · rename_i hle
        rw [finishPoll_inProgress (s := u.setInbound []) _ h0 (Nat.not_lt.1 hle)]
        exact ⟨rfl, rfl, rfl, pollAnswered_respondPoll hframe [] .inProgress _⟩
  | valid hv =>
    exact ⟨_, _, hv, rfl, rfl, rfl,
      .inl ⟨rfl, pollAnswered_respondPoll (byteFrame_of_fed_byteStep hfed hv) _ .valid _⟩⟩
  | tooLarge hv =>
    exact ⟨_, _, hv, rfl, rfl, rfl,
      .inr ⟨rfl, pollAnswered_respondPoll (byteFrame_of_fed_byteStep hfed hv) _ .tooLarge _⟩⟩

/-- Settles O36: the statuses are the ends of the drain, and the slot that POLL cleared is full only after `valid`. -/
theorem pollReportsOneOutcome : Obligations.PollReportsOneOutcome := by
  intro now s t ha ht
  have hpoll := execPoll_frame ht
  obtain ⟨eaten, left, u, hin, hfed, hend⟩ := execPoll_cases ha ht
  obtain ⟨hframe, hlat⟩ := fed_frame hfed
  have hempty : u.lat.valid = false := by rw [hlat]; rfl
  cases hend with
  | readOut =>
    by_cases h0 : u.p.counter = 0
    · rw [finishPoll_idle (s := u.setInbound []) _ h0] at hpoll ⊢
      obtain ⟨-, hresp⟩ := pollAnswered_reads (pollAnswered_respondPoll hframe [] .none eaten.length)
      exact ⟨.none, eaten, hin, hresp, hpoll, hempty, h0, rfl⟩
    by_cases hlate : now.toNat > u.p.deadline.toNat
    · rw [finishPoll_timeout (s := u.setInbound []) _ h0 hlate] at hpoll ⊢
      obtain ⟨-, hresp⟩ := pollAnswered_reads (pollAnswered_respondPoll (u := u.discard) hframe [] .timeout eaten.length)
      exact ⟨.timeout, eaten, hin, hresp, hpoll, hempty, rfl, rfl⟩
    · rw [finishPoll_inProgress (s := u.setInbound []) _ h0 (Nat.not_lt.1 hlate)] at hpoll ⊢
      obtain ⟨-, hresp⟩ := pollAnswered_reads (pollAnswered_respondPoll hframe [] .inProgress eaten.length)
      exact ⟨.inProgress, eaten, hin, hresp, hpoll, hempty, h0, rfl, Nat.not_lt.1 hlate⟩
  | @valid b rest v hv =>
    obtain ⟨-, hresp⟩ :=
      pollAnswered_reads (pollAnswered_respondPoll (byteFrame_of_fed_byteStep hfed hv) rest .valid (eaten.length + 1))
    obtain ⟨hidle, hfull⟩ := byteStep_of_valid hv
    exact ⟨.valid, eaten ++ [b], by simp [hin, State.respondPoll], by rw [hresp]; simp, hpoll, hfull, hidle⟩
  | @tooLarge b rest v hv =>
    obtain ⟨-, hresp⟩ :=
      pollAnswered_reads (pollAnswered_respondPoll (byteFrame_of_fed_byteStep hfed hv) rest .tooLarge (eaten.length + 1))
    obtain ⟨hidle, hsame⟩ := byteStep_of_tooLarge hv
    exact ⟨.tooLarge, eaten ++ [b], by simp [hin, State.respondPoll], by rw [hresp]; simp, hpoll,
      by simp [State.respondPoll, hsame, hempty], hidle⟩

/-- Settles O34: POLL goes on from the invariant, and keeps it. -/
theorem pollAlwaysAnswers : Obligations.PollAlwaysAnswers := by
  intro now s hinv
  obtain ⟨t, ht⟩ := goesOn_execPoll hinv now
  exact ⟨t, ht, execPoll_inv hinv ht⟩

/-- Settles O35: with no byte the POLL is `finishPoll` of the state with its slot cleared. -/
theorem emptyPollChecksDeadline : Obligations.EmptyPollChecksDeadline := by
  intro now s ha hin
  have hpoll : execPoll now s = .next (finishPoll now 0 (s.clearLatest.setInbound [])) :=
    execPoll_of_pollEnd (eaten := []) ha hin rfl .readOut
  have hframe := execPoll_frame hpoll
  have hidle := finishPoll_idle (s := s.clearLatest.setInbound []) (now := now) 0
  have hlate := finishPoll_timeout (s := s.clearLatest.setInbound []) (now := now) 0
  have hkept := finishPoll_inProgress (s := s.clearLatest.setInbound []) (now := now) 0
  refine ⟨_, hpoll, ?_, ?_, hframe, fun h0 => ?_, fun h0 h => ?_, fun h0 h => ?_⟩
  · rw [finishPoll_lat]; rfl
  · rw [finishPoll_env_inbound]; rfl
  · rw [hidle h0]; exact ⟨rfl, rfl, rfl⟩
  · rw [hlate h0 h]; exact ⟨rfl, rfl⟩
  · rw [hkept h0 h]; exact ⟨rfl, rfl, rfl⟩

end Sys2Proof.Statements
end

section

/-! ## The recorded deadline (42_parser.md R162, R187, R190, 60_exceptions.md R209) -/

namespace Sys2Proof.Machine

open Sys2Proof.Safety Sys2Proof.Statements

/-- A frame in progress in `t` has the deadline it had in `s`, or one recorded from `now` since then. -/
structure DeadlineFrom (now : U32) (s t : State) : Prop where
  cfg : t.cfg = s.cfg
  deadline : t.p.counter ≠ 0 →
    (s.p.counter ≠ 0 ∧ t.p.deadline = s.p.deadline) ∨ t.p.deadline.toNat = now.toNat + s.cfg.timeout.toNat

theorem deadlineFrom_refl (now : U32) (s : State) : DeadlineFrom now s s :=
  ⟨rfl, fun h0 => .inl ⟨h0, rfl⟩⟩

theorem deadlineFrom_trans {now : U32} {s t u : State} (hst : DeadlineFrom now s t) (htu : DeadlineFrom now t u) :
    DeadlineFrom now s u := by
  refine ⟨htu.cfg.trans hst.cfg, fun h0 => ?_⟩
  rcases htu.deadline h0 with ⟨ht0, hkept⟩ | hnew
  · rw [hkept]; exact hst.deadline ht0
  · rw [hst.cfg] at hnew; exact .inr hnew

/-- Only IDLE records a deadline; every other state of the parser keeps it or ends the frame. -/
theorem byteStep_deadlineFrom {b : Byte} {now : U32} {s t : State} {e : StepEvent}
    (h : byteStep b now s = .next (t, e)) : DeadlineFrom now s t := by
  obtain ⟨hcfg, -⟩ := byteStep_frame h
  refine ⟨hcfg, fun h0 => ?_⟩
  rcases byteStep_cases h with ⟨-, -, -, rfl⟩ | ⟨-, -, -, rfl⟩ | ⟨h1, -, rfl⟩ | ⟨-, -, -, rfl⟩ | ⟨-, -, -, rfl⟩ |
    ⟨h2, -, -, -, rfl⟩ | ⟨h3, -, rfl⟩ | ⟨h4, -, -, -, rfl⟩ | ⟨-, -, -, -, -, rfl⟩ | ⟨-, -, -, -, -, rfl⟩
  · exact .inr (toNat_deadline now s.cfg.timeout)
  · exact .inl ⟨h0, rfl⟩
  · exact .inl ⟨by rw [h1]; decide, rfl⟩
  · exact absurd rfl h0
  · exact absurd rfl h0
  · exact .inl ⟨by rw [h2]; decide, rfl⟩
  · exact .inl ⟨by rw [h3]; decide, rfl⟩
  · exact .inl ⟨(counter_ne_of_four_le h4).1, rfl⟩
  · exact absurd rfl h0
  · exact absurd rfl h0

theorem fed_deadlineFrom {now : U32} {eaten : List Byte} {s t : State} (h : Fed now eaten s t) : DeadlineFrom now s t := by
  induction eaten generalizing s with
  | nil => cases h; exact deadlineFrom_refl now _
  | cons b eaten ih =>
    obtain ⟨u, e, hu, -, hrest⟩ := h
    exact deadlineFrom_trans (byteStep_deadlineFrom hu) (ih hrest)

/-- A drain answers from a state whose deadline is the one before it or its own. -/
theorem drain_answers {now : U32} {bytes : List Byte} {n : U32} {s t : State} (h : drain now bytes n s = .next t) :
    ∃ u k, DeadlineFrom now s u ∧ u.env.responses = s.env.responses ∧
      (t = finishPoll now k u ∨ t = u.respondPoll .valid k ∨ t = u.respondPoll .tooLarge k) := by
  have hstep (b : Byte) (u v : State) (e : StepEvent)
      (hu : DeadlineFrom now s u ∧ u.env.responses = s.env.responses) (hv : byteStep b now u = .next (v, e)) :
      DeadlineFrom now s v ∧ v.env.responses = s.env.responses :=
    ⟨deadlineFrom_trans hu.1 (byteStep_deadlineFrom hv), by rw [byteStep_env hv, hu.2]⟩
  obtain ⟨_, _, u, -, ⟨hd, hr⟩, -, -, hend⟩ :=
    drain_induction h ⟨deadlineFrom_refl now s, rfl⟩ (fun _ _ hu => ⟨⟨hu.1.cfg, hu.1.deadline⟩, hu.2⟩) hstep
  rcases hend with ⟨-, ht⟩ | ⟨_, _, _, -, -, -, ht, -⟩ | ⟨_, _, _, -, -, -, ht, -⟩
  · exact ⟨u, _, hd, hr, .inl ht⟩
  · exact ⟨u, _, hd, hr, .inr (.inl ht)⟩
  · exact ⟨u, _, hd, hr, .inr (.inr ht)⟩

theorem finishPoll_deadlineFrom {now : U32} {s u : State} (h : DeadlineFrom now s u) (n : U32) :
    DeadlineFrom now s (finishPoll now n u) := by
  obtain ⟨hcfg, hd⟩ := h
  unfold finishPoll
  split
  · exact ⟨hcfg, hd⟩
  split
  · exact ⟨hcfg, fun h0 => absurd rfl h0⟩
  · exact ⟨hcfg, hd⟩

theorem execPoll_deadlineFrom {now : U32} {s t : State} (h : execPoll now s = .next t) : DeadlineFrom now s t := by
  unfold execPoll at h
  split at h
  · cases h; exact ⟨rfl, (deadlineFrom_refl now s).deadline⟩
  · obtain ⟨u, k, ⟨hcfg, hd⟩, -, rfl | rfl | rfl⟩ := drain_answers h
    · exact finishPoll_deadlineFrom (s := s) ⟨hcfg, hd⟩ k
    · exact ⟨hcfg, hd⟩
    · exact ⟨hcfg, hd⟩

/-! ### Which POLL answers Timeout -/

theorem status_of_respondPoll {s : State} {rs : List Response} {st : PollStatus} {k : U32} {status : Byte} {n : Nat}
    (hr : s.env.responses = rs) (h : (s.respondPoll st k).env.responses = rs ++ [pollResponse status n]) :
    pollStatusByte st = status := by
  simp only [State.respondPoll, State.respond_env_responses, hr, List.append_cancel_left_eq, pollResponse, pollData,
    List.cons.injEq, Response.mk.injEq] at h
  exact h.1.2.1

/-- Timeout is about a frame begun before the drain: a deadline recorded in it is not below `now` (42_parser.md R190). -/
theorem drain_timeout {now : U32} {bytes : List Byte} {k : U32} {s t : State} {n : Nat}
    (h : drain now bytes k s = .next t) (ht : t.env.responses = s.env.responses ++ [pollResponse 0x04 n]) :
    s.p.counter ≠ 0 ∧ s.p.deadline.toNat < now.toNat := by
  obtain ⟨u, m, hd, hr, rfl | rfl | rfl⟩ := drain_answers h
  · by_cases h0 : u.p.counter = 0
    · rw [finishPoll_idle m h0] at ht
      exact absurd (status_of_respondPoll hr ht) (by decide)
    by_cases hlate : now.toNat > u.p.deadline.toNat
    · rcases hd.deadline h0 with ⟨hs0, hkept⟩ | hnew
      · exact ⟨hs0, hkept ▸ hlate⟩
      · omega
    · rw [finishPoll_inProgress m h0 (Nat.not_lt.1 hlate)] at ht
      exact absurd (status_of_respondPoll hr ht) (by decide)
  · exact absurd (status_of_respondPoll hr ht) (by decide)
  · exact absurd (status_of_respondPoll hr ht) (by decide)

end Sys2Proof.Machine

namespace Sys2Proof.Safety

open Sys2Proof.Machine

/-! ### The deadline and the clock -/

theorem hostMove_clock_le {m : HostMove} {s t : State} (h : hostMove m s = .next t) :
    s.env.clock.toNat ≤ t.env.clock.toNat := by
  cases m with
  | tick x =>
    obtain ⟨hroom, rfl⟩ := tickClock_cases h
    have hadd : (s.env.clock + x).toNat = s.env.clock.toNat + x.toNat := BitVec.toNat_add_of_lt hroom
    exact hadd ▸ Nat.le_add_right _ _
  | issue _ | arrive _ | deliver _ | loopback _ | collect _ => cases h; exact Nat.le_refl _

theorem execPoll_deadlineWithinReach {s t : State} (hs : DeadlineWithinReach s)
    (h : execPoll s.env.clock s = .next t) : DeadlineWithinReach t := by
  obtain ⟨-, -, -, -, hclock, -⟩ := execPoll_frame h
  intro h0
  rw [hclock]
  rcases (execPoll_deadlineFrom h).deadline h0 with ⟨hs0, hkept⟩ | hnew
  · rw [hkept]; exact hs hs0
  · have := s.cfg.timeout.isLt
    omega

/-- Of the commands only POLL writes the deadline. -/
theorem exec_deadlineWithinReach {i : Instr} {s t : State} (hw : i.wellFormed = true)
    (hnow : ∀ now, i = .poll now → now = s.env.clock) (hs : DeadlineWithinReach s) (h : exec i s = .next t) :
    DeadlineWithinReach t := by
  rcases exec_cases hw h with ⟨now, rfl, -⟩ | ⟨_, _, rfl⟩ | ⟨_, -, rfl⟩ | ⟨_, -, rfl⟩ | ⟨_, _, -, rfl⟩ |
    ⟨_, _, _, -, rfl⟩ | ⟨_, -, rfl⟩
  · obtain rfl := hnow now rfl
    exact execPoll_deadlineWithinReach hs h
  all_goals exact hs

theorem step_deadlineWithinReach {s t : State} (hp : PollsWithReading s) (hs : DeadlineWithinReach s)
    (h : step s = .next t) : DeadlineWithinReach t := by
  rcases step_cases h with ⟨i, rest, hd, he⟩ | ⟨op, rest, -, rfl⟩ | ⟨-, -, rfl⟩ | ⟨m, ms, hd, -, hm⟩
  · exact exec_deadlineWithinReach (s := s.setPort rest) (wellFormed_of_decode hd)
      (fun now hi => hp now rest (hi ▸ hd)) hs he
  · exact hs
  · exact hs
  · obtain ⟨hparser, -⟩ := step_movedOnly_of_incomplete hd h
    have hclock : s.env.clock.toNat ≤ t.env.clock.toNat := hostMove_clock_le (s := s.setAgenda ms) hm
    intro h0
    rw [hparser] at h0 ⊢
    exact (hs h0).trans (Nat.add_le_add_right hclock _)

end Sys2Proof.Safety

namespace Sys2Proof.Statements

open Sys2Proof.Machine

/-- Settles O37: both halves are `drain_timeout`; a POLL without a stream answers Invalid. -/
theorem noTimeoutInTheStartingPoll : Obligations.NoTimeoutInTheStartingPoll := by
  refine ⟨fun now consumed bytes s t n h0 h ht => (drain_timeout h ht).1 h0, fun now s t n h ht => ?_⟩
  cases ha : s.cfg.attached with
  | false =>
    cases (exec_poll_detached ha now).symm.trans h
    exact absurd (status_of_respondPoll (s := s) (st := .invalid) (k := 0) rfl ht) (by decide)
  | true => exact drain_timeout (s := s.clearLatest) ((execPoll_attached ha).symm.trans h) ht

/-- Settles O59: a deadline is recorded only by a POLL, whose `now` is the clock's reading. -/
theorem deadlineStaysWithinReach : Obligations.DeadlineStaysWithinReach :=
  fun _ _ hp hs h => Safety.step_deadlineWithinReach hp hs h

end Sys2Proof.Statements
end

section

/-! ## Frames cut anywhere, and frames that are not accepted (42_parser.md R164 to R169, R180 to R182, R189, R201) -/

namespace Sys2Proof.Statements

open Sys2Proof.Machine

/-! ### A frame of which the first bytes have been read -/

/-- What the parser holds of a frame whose bytes `got` it has read, `P.counter` of them (42_parser.md R162 to R166). -/
def Midway : (got : List Byte) → State → Prop
  | [], s => s.p.counter = 0
  | [_], s => s.p.counter = 1 ∧ s.acc.sizePhase = false ∧ s.acc.csum = 0
  | [_, hi], s => s.p.counter = 2 ∧ s.acc.sizePhase = true ∧ s.acc.sizeHigh = hi ∧ s.acc.csum = 0
  | [_, hi, lo], s => s.p.counter = 3 ∧ s.acc.alloc = true ∧ s.acc.size.toNat = declared hi lo ∧ s.acc.csum = 0
  | _ :: hi :: lo :: api :: body, s => Receiving hi lo api body s

/-- What is held is in `P` and `ACC`: it does not depend on the slot, the stream or the clock. -/
theorem midway_congr {got : List Byte} {s t : State} (h : Midway got s) (hp : t.p = s.p) (ha : t.acc = s.acc) :
    Midway got t := by
  match got, h with
  | [], h | [_], h | [_, _], h | [_, _, _], h => simpa only [Midway, hp, ha] using h
  | _ :: _ :: _ :: _ :: _, ⟨hcounter, halloc, hsize, hapi, hcsum, hbytes⟩ =>
    exact ⟨hp ▸ hcounter, ha ▸ halloc, ha ▸ hsize, ha ▸ hapi, ha ▸ hcsum, ha ▸ hbytes⟩

theorem midway_counter {got : List Byte} {s : State} (h : Midway got s) : s.p.counter.toNat = got.length := by
  match got, h with
  | [], h => rw [show s.p.counter = 0 from h]; rfl
  | [_], ⟨h, _⟩ | [_, _], ⟨h, _⟩ | [_, _, _], ⟨h, _⟩ => rw [h]; rfl
  | _ :: _ :: _ :: _ :: body, h => exact h.counter

section
variable {hi lo api : Byte} {tail : List Byte}

/-- Every byte of a frame of an accepted size but its last one leaves the parser midway, one byte further. -/
theorem fed_midway_byte (hs : Sized hi lo tail) {got more : List Byte} {b : Byte} {s : State} (h : Midway got s)
    (hf : frame hi lo api tail = got ++ b :: more) (hmore : more ≠ []) (now : U32) :
    ∃ t, Fed now [b] s t ∧ Midway (got ++ [b]) t := by
  obtain ⟨hpos, hmax, hlen⟩ := hs
  match got, h with
  | [], h0 =>
    obtain ⟨rfl, -⟩ : 0x7E = b ∧ _ := List.cons.inj hf
    exact fed_start h0 now
  | [_], ⟨h1, hphase, hcsum⟩ =>
    obtain ⟨t, ht, h2, hacc⟩ := fed_lenHi h1 hphase b now
    exact ⟨t, ht, h2, by rw [hacc], by rw [hacc], by rw [hacc]; exact hcsum⟩
  | [_, h'], ⟨h2, hphase, hhigh, hcsum⟩ =>
    simp only [frame, List.cons_append, List.nil_append, List.cons.injEq] at hf
    obtain ⟨-, rfl, rfl, -⟩ := hf
    obtain ⟨t, ht, h3, halloc, hsize, hcsum'⟩ :=
      fed_lenLo h2 hphase (by rwa [hhigh]) (by rwa [hhigh]) now
    exact ⟨t, ht, h3, halloc, hhigh ▸ hsize, hcsum'.trans hcsum⟩
  | [_, _, _], ⟨h3, halloc, hsize, hcsum⟩ =>
    exact ⟨_, fed_singleton (byteStep_api h3 b now), rfl, halloc, hsize, rfl, by simp [hcsum, sum8], rfl⟩
  | _ :: h' :: l' :: a' :: body, h =>
    simp only [frame, List.cons_append, List.nil_append, List.cons.injEq] at hf
    obtain ⟨-, rfl, rfl, rfl, rfl⟩ := hf
    have hroom : body.length + 1 < declared hi lo := by
      have := List.length_pos_iff.2 hmore
      simp at hlen
      omega
    obtain ⟨t, ht, hrt⟩ := byteStep_receiving h hmax hroom b now
    exact ⟨t, fed_singleton ht, hrt⟩

theorem fed_midway (hs : Sized hi lo tail) {got bs more : List Byte} {s : State} (h : Midway got s)
    (hf : frame hi lo api tail = got ++ bs ++ more) (hmore : more ≠ []) (now : U32) :
    ∃ t, Fed now bs s t ∧ Midway (got ++ bs) t := by
  induction bs generalizing got s with
  | nil => exact ⟨s, rfl, by simpa using h⟩
  | cons b bs ih =>
    obtain ⟨u, hu, hmu⟩ := fed_midway_byte hs h (by simpa using hf) (List.append_ne_nil_of_right_ne_nil bs hmore) now
    obtain ⟨t, ht, hmt⟩ := ih hmu (by simpa using hf)
    exact ⟨t, fed_append hu ht, by simpa using hmt⟩

/-- Before the last byte of a frame of an accepted size the parser is in the body: such a frame has a byte after its API id. -/
theorem receiving_of_midway (hs : Sized hi lo tail) {got : List Byte} {b : Byte} {s : State} (h : Midway got s)
    (hf : frame hi lo api tail = got ++ [b]) : ∃ body, tail = body ++ [b] ∧ Receiving hi lo api body s := by
  obtain ⟨hpos, -, hlen⟩ := hs
  obtain rfl | ⟨body, c, rfl⟩ := List.eq_nil_or_concat' tail
  · simp at hlen; omega
  · have hf' : [0x7E, hi, lo, api] ++ body ++ [c] = got ++ [b] := by rw [← hf]; simp [frame]
    obtain ⟨rfl, hc⟩ := List.append_inj' hf' rfl
    obtain rfl := List.singleton_inj.1 hc
    exact ⟨body, rfl, h⟩

end

/-! ### POLL on a frame -/

/-- A POLL that has the missing bytes of a good frame before it, after bytes that leave the parser midway in that frame,
answers Valid with the bytes up to the frame's end read, and the slot holds the frame (42_parser.md R167, R182). -/
theorem exec_poll_completes {now : U32} {eaten first second rest : List Byte} {hi lo api : Byte} {tail : List Byte}
    {s u : State} (ha : s.cfg.attached = true) (hfed : Fed now eaten s.clearLatest u) (hmid : Midway first u)
    (hg : Good hi lo api tail) (hframe : frame hi lo api tail = first ++ second) (hsecond : second ≠ [])
    (hin : s.env.inbound = eaten ++ second ++ rest) :
    ∃ t, exec (.poll now) s = .next t ∧
      t.env.responses = s.env.responses ++ [pollResponse 0x02 (eaten ++ second).length] ∧ t.env.inbound = rest ∧
      Holds t hi lo api tail := by
  obtain ⟨hs, hsum⟩ := hg
  obtain rfl | ⟨init, b, rfl⟩ := List.eq_nil_or_concat' second
  · exact absurd rfl hsecond
  obtain ⟨w, hw, hmw⟩ := fed_midway hs hmid (bs := init) (by simpa using hframe) (List.cons_ne_nil b []) now
  obtain ⟨body, rfl, hrw⟩ := receiving_of_midway hs hmw (by simpa using hframe)
  obtain ⟨-, -, hsize⟩ := hs
  obtain ⟨v, hv, -, hholds⟩ := byteStep_receiving_last hrw hsize hsum now
  have hfed' := fed_append hfed hw
  obtain ⟨hinb, hresp⟩ :=
    pollAnswered_reads (pollAnswered_respondPoll (byteFrame_of_fed_byteStep hfed' hv) rest .valid _)
  have hlen : (eaten ++ (init ++ [b])).length = (eaten ++ init).length + 1 := by simp [Nat.add_assoc]
  rw [hlen]
  exact ⟨_, execPoll_of_pollEnd ha (by simpa using hin) hfed' (.valid hv), hresp, hinb, hholds⟩

/-- Settles O43: what the parser holds after the first part does not depend on the POLL, so the second POLL completes the
frame; its start recorded a deadline that the first POLL's own clock value cannot pass. -/
theorem splitFrameCompletesInLaterPoll : Obligations.SplitFrameCompletesInLaterPoll := by
  intro now later s hi lo api tail first second rest ha h0 hg hfirst hsecond hframe hin
  have hstart : Midway [] s.clearLatest := h0
  obtain ⟨u, hu, hmu⟩ := fed_midway hg.1 hstart hframe hsecond now
  obtain ⟨hkeeps, -⟩ := fed_frame hu
  have ⟨hcfg, _, _⟩ := hkeeps
  have hcounter : u.p.counter.toNat = first.length := midway_counter hmu
  have hbusy : u.p.counter ≠ 0 := fun hz => hfirst (List.eq_nil_of_length_eq_zero (by rw [← hcounter, hz]; rfl))
  have hdeadline : u.p.deadline.toNat = now.toNat + s.cfg.timeout.toNat :=
    ((fed_deadlineFrom hu).deadline hbusy).resolve_left fun hkept => hkept.1 h0
  have hpoll := execPoll_of_pollEnd ha (left := []) (by simpa using hin) hu .readOut
  rw [finishPoll_inProgress (s := u.setInbound []) _ hbusy (hdeadline ▸ Nat.le_add_right _ _)] at hpoll
  obtain ⟨-, hresp⟩ := pollAnswered_reads (pollAnswered_respondPoll hkeeps [] .inProgress first.length)
  refine ⟨_, hpoll, hresp, hcounter, hdeadline, ?_⟩
  exact exec_poll_completes (eaten := []) (hcfg ▸ ha) rfl (midway_congr hmu rfl rfl) hg hframe hsecond rfl

/-! ### Frames that are dropped or refused -/

/-- The last byte of a frame whose checksum fails drops it (42_parser.md R169). -/
theorem byteStep_receiving_last_bad {hi lo api : Byte} {got : List Byte} {s : State} (h : Receiving hi lo api got s)
    {b : Byte} (hlen : (got ++ [b]).length = declared hi lo) (hbad : api + sum8 (got ++ [b]) ≠ 0xFF) (now : U32) :
    ∃ t, byteStep b now s = .next (t, .dropped) ∧ t.p.counter = 0 := by
  have hc := h.counter
  obtain ⟨hcsum, -⟩ := accAfterBody_receiving h b
  have hfail : ¬ isCompleteChecksum (s.acc.csum + b) = true := by
    rw [show s.acc.csum + b = (accAfterBody s b).csum from rfl, hcsum]
    simpa [isCompleteChecksum] using hbad
  have hstep := byteStep_complete (s := s) (by omega) (by rw [hc, h.size, ← hlen]; simp) h.alloc b now
  rw [if_neg hfail] at hstep
  exact ⟨_, hstep, rfl⟩

theorem fed_bad {s : State} (h0 : s.p.counter = 0) {hi lo api : Byte} {tail : List Byte} (hb : Bad hi lo api tail)
    (now : U32) : ∃ t, Fed now (frame hi lo api tail) s t ∧ t.p.counter = 0 := by
  obtain ⟨hs, hsum⟩ := hb
  have hstart : Midway [] s := h0
  obtain h | ⟨init, b, hframe⟩ := List.eq_nil_or_concat' (frame hi lo api tail)
  · cases h
  obtain ⟨u, hu, hmu⟩ := fed_midway hs hstart hframe (by simp) now
  obtain ⟨body, rfl, hru⟩ := receiving_of_midway hs hmu hframe
  obtain ⟨-, -, hlen⟩ := hs
  obtain ⟨t, ht, hidle⟩ := byteStep_receiving_last_bad hru hlen hsum now
  exact ⟨t, hframe ▸ fed_append hu ⟨t, .dropped, ht, .inr rfl, rfl⟩, hidle⟩

/-- From an idle parser, up to the byte before the low length byte. -/
theorem fed_before_lenLo {s : State} (h0 : s.p.counter = 0) (hi : Byte) (now : U32) :
    ∃ t, Fed now [0x7E, hi] s t ∧ t.p.counter = 2 ∧ t.acc.sizePhase = true ∧ t.acc.sizeHigh = hi := by
  obtain ⟨u, hu, h1, hphase, -⟩ := fed_start h0 now
  obtain ⟨t, ht, h2, hacc⟩ := fed_lenHi h1 hphase hi now
  exact ⟨t, fed_append hu ht, h2, by rw [hacc], by rw [hacc]⟩

/-- Settles O40: the bad frame leaves the parser idle, where the stream ends or the good frame begins. -/
theorem badChecksumIsDroppedSilently : Obligations.BadChecksumIsDroppedSilently := by
  intro now s h l a hi lo api bad tail rest ha h0 hb
  obtain ⟨u, hu, hidle⟩ := fed_bad (s := s.clearLatest) h0 hb now
  obtain ⟨hframe, hlat⟩ := fed_frame hu
  refine ⟨fun hin => ?_, fun hg => exec_poll_completes (first := []) ha hu hidle hg rfl (List.cons_ne_nil _ _)⟩
  have hpoll := execPoll_of_pollEnd ha (left := []) (by simpa using hin) hu .readOut
  rw [finishPoll_idle (s := u.setInbound []) _ hidle] at hpoll
  obtain ⟨-, hresp⟩ := pollAnswered_reads (pollAnswered_respondPoll hframe [] .none (frame h l a bad).length)
  exact ⟨_, hpoll, hidle, congrArg Latest.valid hlat, hresp⟩

/-- Settles O41: the zero size leaves the parser idle at the good frame. -/
theorem zeroLengthIsDroppedSilently : Obligations.ZeroLengthIsDroppedSilently := by
  intro now s hi lo api tail rest ha h0 hg hin
  obtain ⟨u, hu, h2, hphase, hhigh⟩ := fed_before_lenLo (s := s.clearLatest) h0 0x00 now
  have hstep := byteStep_lenLo_zero h2 (b := 0x00) (by rw [toNat_beginSize_low_eq_declared hphase, hhigh]; rfl) now
  have hfed : Fed now [0x7E, 0x00, 0x00] s.clearLatest _ := fed_append hu ⟨_, .dropped, hstep, .inr rfl, rfl⟩
  have hlen : 7 + tail.length = ([0x7E, 0x00, 0x00] ++ frame hi lo api tail).length := by simp [frame]; omega
  rw [hlen]
  exact exec_poll_completes (first := []) ha hfed rfl hg rfl (List.cons_ne_nil _ _) hin

/-- Settles O42: the event comes at the second length byte, and the next POLL is one from an idle parser. -/
theorem oversizeIsRejected : Obligations.OversizeIsRejected := by
  intro now s h l rest ha h0 hbig hin
  obtain ⟨u, hu, h2, hphase, hhigh⟩ := fed_before_lenLo (s := s.clearLatest) h0 h now
  have hstep := byteStep_lenLo_big h2 (b := l) (by rwa [toNat_beginSize_low_eq_declared hphase, hhigh]) now
  have hpoll := execPoll_of_pollEnd ha (left := l :: rest) hin hu (.tooLarge hstep)
  have hframe := execPoll_frame hpoll
  obtain ⟨hinb, hresp⟩ :=
    pollAnswered_reads (pollAnswered_respondPoll (byteFrame_of_fed_byteStep hu hstep) rest .tooLarge 3)
  refine ⟨_, hpoll, hresp, hinb, rfl, congrArg Latest.valid (fed_frame hu).2, hframe, ?_⟩
  intro later hi lo api tail after hg hrest
  obtain ⟨v, hv, hvresp, -, -, hholds, -⟩ :=
    wellFormedFrameIsAccepted later _ [] hi lo api tail after (hframe.1 ▸ ha) rfl (by simp) hg (hinb.trans hrest)
  exact ⟨v, hv, hvresp, hholds⟩

end Sys2Proof.Statements
end

section

/-! ## Errors and their causes, and the clock (60_exceptions.md R202, R207, R209) -/

namespace Sys2Proof.Machine

open Sys2Proof.Statements Sys2Proof.Safety

/-- R202's table: when a command of the port may answer a code. ERR_UNDEFINED answers reserved opcodes, not commands. -/
def ErrorCause (i : Instr) (s : State) : RespCode → Prop
  | .ok => True
  | .errUndefined => False
  | .errInternal => HostMicroOp i
  | .errNoRequest => (∃ d, i = .reqcpy d ∨ i = .reqtake d) ∧ s.req.opened = false
  | .errImmutable => (∃ d, i = .reqcpy d ∨ i = .reqtake d) ∧ s.req.isSet = true
  | .errNoPayload => (i = .encode ∨ i = .send) ∧ (s.req.opened = false ∨ s.req.isSet = false)
  | .errLenOverflow => (i = .encode ∨ i = .send) ∧ 14 + s.req.len.toNat > 65535
  | .errNoStream => i = .send ∧ s.cfg.attached = false
  | .errEmpty => FullSlotAccessor i ∧ s.lat.valid = false
  | .errShort => i = .lsaddr ∧ s.lat.size.toNat < 9

/-- If the command answers next, it gives one response, and an error only for its cause and with nothing else changed. -/
def Accounted (i : Instr) (s : State) : Prop :=
  ∀ t, exec i s = .next t →
    ∃ r, t.env.responses = s.env.responses ++ [r] ∧ (r.code ≠ .ok → r.data = [] ∧ t = answered s r) ∧
      ErrorCause i s r.code

section
variable {i : Instr} {s : State}

theorem accounted_of_ok {t : State} {d : List Byte} (h : exec i s = .next t)
    (hr : t.env.responses = s.env.responses ++ [⟨.ok, d⟩]) : Accounted i s := by
  intro u hu
  cases h.symm.trans hu
  exact ⟨⟨.ok, d⟩, hr, fun hne => absurd rfl hne, trivial⟩

theorem accounted_of_error {c : RespCode} (h : exec i s = .next (answered s ⟨c, []⟩)) (hc : ErrorCause i s c) :
    Accounted i s := by
  intro u hu
  cases h.symm.trans hu
  exact ⟨⟨c, []⟩, rfl, fun _ => ⟨rfl, rfl⟩, hc⟩

theorem accounted_hostMicroOp (hi : HostMicroOp i) : Accounted i s :=
  accounted_of_error (exec_hostMicroOp hi s) hi

theorem accounted_attach_payload {data : List Byte} (hi : i = .reqcpy data ∨ i = .reqtake data)
    (hw : i.wellFormed = true) : Accounted i s := by
  obtain ⟨hclosed, himmutable, hstored, -⟩ := payloadIsAttachedOnce data s i hi hw
  cases ho : s.req.opened with
  | false => exact accounted_of_error (hclosed ho) ⟨⟨data, hi⟩, ho⟩
  | true =>
    cases hs : s.req.isSet with
    | true => exact accounted_of_error (himmutable ho hs) ⟨⟨data, hi⟩, hs⟩
    | false =>
      obtain ⟨t, ht, heq, -⟩ := hstored ho hs
      exact accounted_of_ok ht (by rw [heq]; rfl)

/-- The checks of ENCODE and SEND on the request (40_encoder.md R109, R110), whatever is done with the frame. -/
theorem accounted_of_withFrame (hi : i = .encode ∨ i = .send) {k : List Byte → Host.Outcome State Fault Refusal}
    (h : exec i s = withFrame s k)
    (hk : ∀ f, ∃ t d, k f = .next t ∧ t.env.responses = s.env.responses ++ [⟨.ok, d⟩]) : Accounted i s := by
  by_cases hp : s.req.opened = false ∨ s.req.isSet = false
  · exact accounted_of_error (h.trans (withFrame_noPayload hp k)) ⟨hi, hp⟩
  obtain ⟨ho, hs⟩ : s.req.opened = true ∧ s.req.isSet = true := by simpa using hp
  by_cases hlen : 14 + s.req.len.toNat > 65535
  · exact accounted_of_error (h.trans (withFrame_overflow ho hs hlen k)) ⟨hi, hlen⟩
  · have hframe := h.trans (withFrame_frame ho hs (Nat.not_lt.1 hlen) k)
    obtain ⟨t, d, ht, hr⟩ := hk _
    exact accounted_of_ok (hframe.trans ht) hr

theorem accounted_encode : Accounted .encode s :=
  accounted_of_withFrame (.inl rfl) (exec_encode_eq s) fun _ => ⟨_, _, rfl, rfl⟩

theorem accounted_send : Accounted .send s := by
  cases ha : s.cfg.attached with
  | false => exact accounted_of_error (if_pos ha) ⟨rfl, ha⟩
  | true => exact accounted_of_withFrame (.inr rfl) (exec_send_attached ha) fun _ => ⟨_, _, rfl, rfl⟩

/-- POLL reports what it met as a status (42_parser.md R183), never as an error. -/
theorem accounted_poll (now : U32) : Accounted (.poll now) s := by
  cases ha : s.cfg.attached with
  | false => exact accounted_of_ok (exec_poll_detached ha now) rfl
  | true =>
    intro t ht
    obtain ⟨_, _, -, hr, -⟩ := pollReportsOneOutcome now s t ha ht
    exact accounted_of_ok ht hr t ht

theorem accounted_lsaddr_full (hv : s.lat.valid = true) : Accounted .lsaddr s := by
  obtain ⟨-, hshort, hlong, -⟩ := lsaddrReturnsFirstEightBytes s
  by_cases hlt : s.lat.size.toNat < 9
  · exact accounted_of_error (hshort hv hlt) ⟨rfl, hlt⟩
  · exact accounted_of_ok (hlong hv (Nat.not_lt.1 hlt)) rfl

theorem accounted_lappdat_full (hv : s.lat.valid = true) : Accounted .lappdat s := by
  obtain ⟨-, hshort, hlong, -⟩ := lappdatStripsPrefixAndChecksum s
  by_cases hle : s.lat.size.toNat ≤ 12
  · exact accounted_of_ok (hshort hv hle) rfl
  · exact accounted_of_ok (hlong hv (Nat.not_le.1 hle)) rfl

theorem accounted_fullSlotAccessor (hi : FullSlotAccessor i) : Accounted i s := by
  cases hv : s.lat.valid with
  | false => exact accounted_of_error (emptySlotIsRefused s i hi hv) ⟨hi, hv⟩
  | true =>
    obtain ⟨hlapi, hlsize, hlcsum, hlcompl, -⟩ := (scalarAccessorsReadTheSlot s).2.1 hv
    rcases hi with rfl | rfl | rfl | rfl | rfl | rfl | rfl
    · exact accounted_of_ok hlapi rfl
    · exact accounted_of_ok hlsize rfl
    · exact accounted_of_ok ((lpayldReturnsPayload s).2.1 hv) rfl
    · exact accounted_of_ok hlcsum rfl
    · exact accounted_of_ok hlcompl rfl
    · exact accounted_lsaddr_full hv
    · exact accounted_lappdat_full hv

end

theorem eq_port_of_fromPort {α : Type} {op : MicroIssue α} (h : op.fromPort = true) : op = .port := by
  cases op with
  | port => rfl
  | parser _ => cases h

theorem accounted_of_wellFormed {i : Instr} (hw : i.wellFormed = true) (s : State) : Accounted i s := by
  cases i with
  | settmo _ | attach | detach | reqnew _ _ | lvalid => exact accounted_of_ok rfl rfl
  | reqcpy _ => exact accounted_attach_payload (.inl rfl) hw
  | reqtake _ => exact accounted_attach_payload (.inr rfl) hw
  | encode => exact accounted_encode
  | send => exact accounted_send
  | poll now => exact accounted_poll now
  | lapi | lsize | lpayld | lcsum | lcompl | lsaddr | lappdat =>
    exact accounted_fullSlotAccessor (by simp [FullSlotAccessor])
  | beginSize _ | setApiId _ | writeAt _ | accCsum _ | isComplete _ =>
    cases eq_port_of_fromPort hw
    exact accounted_hostMicroOp (by simp [HostMicroOp])

end Sys2Proof.Machine

namespace Sys2Proof.Safety

open Sys2Proof.Machine

/-- Of what a step can do, only a tick writes the clock, and it does not wrap. -/
theorem step_clock_le {s t : State} (h : step s = .next t) : s.env.clock.toNat ≤ t.env.clock.toNat := by
  rcases step_cases h with ⟨i, rest, hd, he⟩ | ⟨op, rest, -, rfl⟩ | ⟨-, -, rfl⟩ | ⟨m, ms, -, -, hm⟩
  · obtain ⟨-, hclock, -⟩ := exec_host_frame (wellFormed_of_decode hd) he
    rw [hclock]
    exact Nat.le_refl _
  · exact Nat.le_refl _
  · exact Nat.le_refl _
  · exact hostMove_clock_le (s := s.setAgenda ms) hm

end Sys2Proof.Safety

namespace Sys2Proof.Statements

open Sys2Proof.Machine

/-- Settles O45: command by command, from the answers that the statements about each family give. -/
theorem errorResponsesHaveTheirCause : Obligations.ErrorResponsesHaveTheirCause :=
  fun _ s t hw h => accounted_of_wellFormed hw s t h

/-- Settles O52: a command of the port and the port's own answers leave the clock, and a host move only advances it. -/
theorem clockNeverGoesBack : Obligations.ClockNeverGoesBack :=
  fun _ _ h => Safety.step_clock_le h

/-- Settles O24: the port's issue of a micro-operation is `raise`. -/
theorem hostMicroOpsAreRefused : Obligations.HostMicroOpsAreRefused :=
  fun s _ hi => exec_hostMicroOp hi s

end Sys2Proof.Statements
end

section

/-! ## The state after reset (70_reset_and_hazards.md R230, R231) -/

namespace Sys2Proof.Safety

open Sys2Proof.Machine

/-- Idle parser, empty slot, no payload: each part of the invariant owes nothing. -/
theorem inv_reset : Inv State.reset :=
  ⟨⟨rfl, rfl, rfl, nofun, nofun, nofun⟩, parserInv_idle rfl, nofun, ⟨nofun, fun _ => rfl, nofun⟩⟩

end Sys2Proof.Safety

namespace Sys2Proof.Statements

open Sys2Proof.Machine Sys2Proof.Safety

/-- Settles O1: a detached POLL from O33's lemma, the one after ATTACH as the empty POLL of an idle parser from O35. -/
theorem resetGivesIdleDetachedEmpty : Obligations.ResetGivesIdleDetachedEmpty := by
  refine ⟨exec_poll_detached rfl, ⟨_, rfl, fun now => ?_⟩, rfl⟩
  obtain ⟨u, hu, -, -, -, hidle, -⟩ :=
    emptyPollChecksDeadline now ((State.reset.setAttached true).respond .ok []) rfl rfl
  obtain ⟨hp, -, hresp⟩ := hidle rfl
  exact ⟨u, hu, hresp, congrArg Parser.counter hp⟩

/-- Settles O2: the fields of `State.reset`. -/
theorem resetValuesOfTheSpec : Obligations.ResetValuesOfTheSpec :=
  ⟨rfl, rfl, rfl, rfl, rfl, rfl, rfl⟩

/-- Settles O3: `inv_reset`, and the port is empty. -/
theorem resetMeetsInvariant : Obligations.ResetMeetsInvariant :=
  ⟨inv_reset, oneCommand_of_port_nil rfl⟩

end Sys2Proof.Statements
end

section

/-! ## No step reads an unspecified element (70_reset_and_hazards.md R230, 93_implementation_defined.md section 2) -/

namespace Sys2Proof.Safety

open Sys2Proof.Machine

/-! ### Outcomes side by side -/

/-- Where the first outcome goes on, so does the second, to a result that `R` relates to the first's. -/
def Follows {σ : Type} (R : σ → σ → Prop) (o o' : Host.Outcome σ Fault Refusal) : Prop :=
  ∀ a, o = .next a → ∃ b, o' = .next b ∧ R a b

section
variable {σ : Type} {R : σ → σ → Prop}

theorem follows_next {a b : σ} (h : R a b) : Follows R (.next a) (.next b) := by
  intro x hx; cases hx
  exact ⟨b, rfl, h⟩

theorem follows_fault (r : Fault) (o : Host.Outcome σ Fault Refusal) : Follows R (.fault r) o := nofun

theorem follows_ite {c c' : Prop} [Decidable c] [Decidable c'] {x y x' y' : Host.Outcome σ Fault Refusal} (hc : c ↔ c')
    (hx : c → Follows R x x') (hy : ¬ c → Follows R y y') :
    Follows R (if c then x else y) (if c' then x' else y') := by
  by_cases h : c
  · rw [if_pos h, if_pos (hc.1 h)]; exact hx h
  · rw [if_neg h, if_neg (mt hc.2 h)]; exact hy h

end

/-- Results of byte steps that agree: the states on every specified element, and the events. -/
def SameStep (r q : State × StepEvent) : Prop := SameSpecified r.1 q.1 ∧ r.2 = q.2

/-! ### Reads and copies of a memory -/

/-- The bytes within a valid length that has been written depend on the listed bytes alone, not on the memory's draw. -/
theorem bytes_eq_of_lookup {m n : Memory} {len start count : Nat} (hle : start + count ≤ len)
    (hwritten : ∀ i, i < len → i ∈ offsets m) (hsame : ∀ i, i < len → lookupCell i m.cells = lookupCell i n.cells) :
    m.bytes start count = n.bytes start count := by
  refine List.map_congr_left fun i hi => ?_
  have hlt : start + i < len := by have := List.mem_range.1 hi; omega
  obtain ⟨b, hb⟩ := lookupCell_isSome (hwritten _ hlt)
  rw [Memory.byteAt, Memory.byteAt, ← hsame _ hlt, hb]
  rfl

theorem firstBytes_cells_eq {m n : Memory} {len len' : Nat} (hcells : m.cells = n.cells) (hlen : len = len') :
    (m.firstBytes len).cells = (n.firstBytes len').cells := by
  rw [Memory.firstBytes, Memory.firstBytes, hcells, hlen]

section
variable {s t : State} (h : SameSpecified s t)
include h

/-! ### The operations keep the two states in agreement -/

theorem sameSpecified_setEnv (f : Env → Env) : SameSpecified { s with env := f s.env } { t with env := f t.env } :=
  { h with env := congrArg f h.env }

theorem sameSpecified_setCfg (f : Cfg → Cfg) : SameSpecified { s with cfg := f s.cfg } { t with cfg := f t.cfg } :=
  { h with cfg := congrArg f h.cfg }

theorem sameSpecified_respond (c : RespCode) {d d' : List Byte} (hd : d = d') :
    SameSpecified (s.respond c d) (t.respond c d') :=
  hd ▸ sameSpecified_setEnv h fun e => { e with responses := e.responses ++ [⟨c, d⟩] }

theorem sameSpecified_setInbound (bs : List Byte) : SameSpecified (s.setInbound bs) (t.setInbound bs) :=
  sameSpecified_setEnv h fun e => { e with inbound := bs }

theorem sameSpecified_setPort (bs : List Byte) : SameSpecified (s.setPort bs) (t.setPort bs) :=
  sameSpecified_setEnv h fun e => { e with port := bs }

theorem sameSpecified_setAgenda (ms : List HostMove) : SameSpecified (s.setAgenda ms) (t.setAgenda ms) :=
  sameSpecified_setEnv h fun e => { e with agenda := ms }

theorem sameSpecified_streamWrite (bs : List Byte) : SameSpecified (s.streamWrite bs) (t.streamWrite bs) :=
  sameSpecified_setEnv h fun e => { e with outbound := e.outbound ++ bs }

theorem sameSpecified_clearLatest : SameSpecified s.clearLatest t.clearLatest :=
  { h with latValid := rfl, latApiId := nofun, latCsum := nofun, latSize := nofun, latBytes := nofun }

/-- With no valid length, `REQ.PAY` has no specified byte (20_memory.md R50). -/
theorem sameSpecified_openRequest (hi lo : U32) : SameSpecified (s.openRequest hi lo) (t.openRequest hi lo) :=
  { h with
    opened := rfl, isSet := rfl, len := rfl, addrHi := fun _ => rfl, addrLo := fun _ => rfl
    reqBytes := fun _ hlt => absurd hlt (Nat.not_lt_zero _) }

/-- The payload written is the whole valid length. -/
theorem sameSpecified_setPayload (data : List Byte) :
    SameSpecified (s.setPayload (s.req.pay.writeBytes 0 data) (BitVec.ofNat 16 data.length))
      (t.setPayload (t.req.pay.writeBytes 0 data) (BitVec.ofNat 16 data.length)) := by
  refine { h with isSet := rfl, len := rfl, reqBytes := fun i hlt => ?_ }
  have hlt' : i < data.length := hlt.trans_le (Nat.mod_le _ _)
  have hwritten (m : Memory) : lookupCell i (m.writeBytes 0 data).cells = some data[i] := by
    simpa using Memory.lookup_writeBytes_mem m data 0 i data[i] (List.getElem?_eq_getElem hlt')
  exact (hwritten _).trans (hwritten _).symm

/-- After `discard()` nothing of the parser but its counter is specified (60_exceptions.md R204). -/
theorem sameSpecified_discard : SameSpecified s.discard t.discard :=
  { h with
    counter := rfl
    deadline := fun h0 => absurd rfl h0, csum := fun h0 => absurd rfl h0, sizePhase := fun h0 => absurd rfl h0
    alloc := fun h0 => absurd rfl h0, accBytes := fun h0 => absurd rfl h0
    sizeHigh := nofun, size := nofun, apiId := nofun }

/-- The same answer to agreeing states. -/
theorem follows_respond (c : RespCode) {d d' : List Byte} (hd : d = d') :
    Follows SameSpecified (.next (s.respond c d)) (.next (t.respond c d')) :=
  follows_next (sameSpecified_respond h c hd)

/-! ### The byte step (42_parser.md R162 to R169) -/

theorem sameSpecified_start (now : U32) :
    SameSpecified ((s.createAcc.setDeadline (zext33 now + zext33 s.cfg.timeout)).setCounter 1)
      ((t.createAcc.setDeadline (zext33 now + zext33 t.cfg.timeout)).setCounter 1) :=
  { h with
    counter := rfl, deadline := fun _ => congrArg (fun c : Cfg => zext33 now + zext33 c.timeout) h.cfg
    csum := fun _ => rfl, sizePhase := fun _ => rfl, alloc := fun _ => rfl, accBytes := fun _ => rfl
    sizeHigh := nofun, size := nofun, apiId := nofun }

theorem sameSpecified_lenHi (h1 : s.p.counter = 1) (hphase : s.acc.sizePhase = false) (b : Byte) :
    SameSpecified ((s.setAcc (s.acc.beginSize b)).setCounter 2) ((t.setAcc (t.acc.beginSize b)).setCounter 2) := by
  have h0 : s.p.counter ≠ 0 := by simp [h1]
  rw [beginSize_high hphase, beginSize_high (h.sizePhase h0 ▸ hphase)]
  exact { h with
    counter := rfl, deadline := fun _ => h.deadline h0
    csum := fun _ => h.csum h0, sizePhase := fun _ => rfl, alloc := fun _ => h.alloc h0
    accBytes := fun _ => h.accBytes h0, sizeHigh := fun _ => rfl, size := nofun, apiId := nofun }

theorem beginSize_size_eq (h2 : s.p.counter = 2) (hphase : s.acc.sizePhase = true) (b : Byte) :
    (s.acc.beginSize b).size = (t.acc.beginSize b).size := by
  rw [beginSize_low hphase, beginSize_low (h.sizePhase (by simp [h2]) ▸ hphase)]
  exact congrArg (u16Of · b) (h.sizeHigh h2)

theorem sameSpecified_lenLo (h2 : s.p.counter = 2) (hphase : s.acc.sizePhase = true) (b : Byte) :
    SameSpecified ((s.setAcc (s.acc.beginSize b)).allocate.setCounter 3)
      ((t.setAcc (t.acc.beginSize b)).allocate.setCounter 3) := by
  have h0 : s.p.counter ≠ 0 := by simp [h2]
  have hsize := beginSize_size_eq h h2 hphase b
  rw [beginSize_low hphase, beginSize_low (h.sizePhase h0 ▸ hphase)] at hsize ⊢
  exact { h with
    counter := rfl, deadline := fun _ => h.deadline h0
    csum := fun _ => h.csum h0, sizePhase := fun _ => rfl, alloc := fun _ => rfl, accBytes := fun _ => rfl
    sizeHigh := nofun, size := fun _ => hsize, apiId := nofun }

theorem sameSpecified_api (h3 : s.p.counter = 3) (b : Byte) :
    SameSpecified ((s.setAcc { s.acc with apiId := b, csum := s.acc.csum + b }).setCounter 4)
      ((t.setAcc { t.acc with apiId := b, csum := t.acc.csum + b }).setCounter 4) := by
  have h0 : s.p.counter ≠ 0 := by simp [h3]
  exact { h with
    counter := rfl, deadline := fun _ => h.deadline h0
    csum := fun _ => congrArg (· + b) (h.csum h0), sizePhase := fun _ => h.sizePhase h0, alloc := fun _ => h.alloc h0
    accBytes := fun _ => h.accBytes h0, sizeHigh := nofun, size := fun _ => h.size (by simp [h3]), apiId := fun _ => rfl }

section
variable (h4 : 4 ≤ s.p.counter.toNat) (b : Byte)
include h4

theorem accAfterBody_csum_eq : (accAfterBody s b).csum = (accAfterBody t b).csum :=
  congrArg (· + b) (h.csum (counter_ne_of_four_le h4).1)

theorem accAfterBody_cells_eq : (accAfterBody s b).pay.cells = (accAfterBody t b).pay.cells := by
  simp only [accAfterBody, Memory.write, h.counter, h.accBytes (counter_ne_of_four_le h4).1]

theorem sameSpecified_body :
    SameSpecified ((s.setAcc (accAfterBody s b)).setCounter (s.p.counter + 1))
      ((t.setAcc (accAfterBody t b)).setCounter (t.p.counter + 1)) := by
  obtain ⟨h0, -, h2, -⟩ := counter_ne_of_four_le h4
  exact { h with
    counter := congrArg (· + 1) h.counter, deadline := fun _ => h.deadline h0
    csum := fun _ => accAfterBody_csum_eq h h4 b, sizePhase := fun _ => h.sizePhase h0, alloc := fun _ => h.alloc h0
    accBytes := fun _ => accAfterBody_cells_eq h h4 b
    sizeHigh := fun (hwrap : s.p.counter + 1 = 2) => by bv_omega
    size := fun _ => h.size (by omega), apiId := fun _ => h.apiId h4 }

/-- Promotion copies what is specified of a whole frame (42_parser.md R168). -/
theorem sameSpecified_complete :
    SameSpecified (s.setAcc (accAfterBody s b)).promote (t.setAcc (accAfterBody t b)).promote :=
  { sameSpecified_discard h with
    latValid := rfl, latApiId := fun _ => h.apiId h4, latCsum := fun _ => accAfterBody_csum_eq h h4 b
    latSize := fun _ => h.size (by omega)
    latBytes := fun _ => firstBytes_cells_eq (accAfterBody_cells_eq h h4 b) (congrArg BitVec.toNat (h.size (by omega))) }

end

theorem follows_step (e : StepEvent) : Follows SameStep (.next (s, e)) (.next (t, e)) := follows_next ⟨h, rfl⟩

/-- In each state of the parser the rule that applies tests and uses only what is specified there. -/
theorem byteStep_follows (hi : Inv s) (b : Byte) (now : U32) : Follows SameStep (byteStep b now s) (byteStep b now t) := by
  by_cases h0 : s.p.counter = 0
  · by_cases hb : b = Config.start
    · subst hb
      rw [byteStep_idle_start h0, byteStep_idle_start (h.counter ▸ h0)]
      exact follows_step (sameSpecified_start h now) _
    · rw [byteStep_idle_other h0 hb, byteStep_idle_other (h.counter ▸ h0) hb]
      exact follows_step h _
  by_cases h1 : s.p.counter = 1
  · rw [byteStep_lenHi h1, byteStep_lenHi (h.counter ▸ h1)]
    exact follows_step (sameSpecified_lenHi h h1 (hi.parser.lenHi h1).1 b) _
  by_cases h2 : s.p.counter = 2
  · have hphase := (hi.parser.lenLo h2).1
    rw [byteStep_lenLo h2, byteStep_lenLo (h.counter ▸ h2), ← beginSize_size_eq h h2 hphase b]
    exact follows_ite Iff.rfl (fun _ => follows_step (sameSpecified_discard h) _) fun _ =>
      follows_ite Iff.rfl (fun _ => follows_step (sameSpecified_discard h) _) fun _ =>
        follows_step (sameSpecified_lenLo h h2 hphase b) _
  by_cases h3 : s.p.counter = 3
  · rw [byteStep_api h3, byteStep_api (h.counter ▸ h3)]
    exact follows_step (sameSpecified_api h h3 b) _
  have h4 : 4 ≤ s.p.counter.toNat := four_le_counter h0 h1 h2 h3
  have h4' : 4 ≤ t.p.counter.toNat := h.counter ▸ h4
  have hsize : s.acc.size = t.acc.size := h.size (by omega)
  obtain ⟨-, halloc, -, -, hle⟩ := hi.parser.sized (by omega)
  have halloc' : t.acc.alloc = true := h.alloc h0 ▸ halloc
  rcases Nat.lt_or_eq_of_le hle with hlt | heq
  · rw [byteStep_body h4 hlt halloc, byteStep_body h4' (by rwa [← h.counter, ← hsize]) halloc']
    exact follows_step (sameSpecified_body h h4 b) _
  · rw [byteStep_complete h4 heq halloc, byteStep_complete h4' (by rwa [← h.counter, ← hsize]) halloc', ← h.csum h0]
    exact follows_ite Iff.rfl (fun _ => follows_step (sameSpecified_complete h h4 b) _) fun _ =>
      follows_step (sameSpecified_discard h) _

/-! ### POLL (42_parser.md R175 to R182) -/

theorem sameSpecified_finishPoll (now n : U32) : SameSpecified (finishPoll now n s) (finishPoll now n t) := by
  unfold finishPoll
  rw [← h.counter]
  by_cases h0 : s.p.counter = 0
  · rw [if_pos h0, if_pos h0]
    exact sameSpecified_respond h _ rfl
  rw [if_neg h0, if_neg h0, ← h.deadline h0]
  split
  · exact sameSpecified_respond (sameSpecified_discard h) _ rfl
  · exact sameSpecified_respond h _ rfl

theorem drain_follows (hi : Inv s) (now : U32) (bytes : List Byte) (n : U32) :
    Follows SameSpecified (drain now bytes n s) (drain now bytes n t) := by
  induction bytes generalizing s t n with
  | nil => exact follows_next (sameSpecified_finishPoll h now n)
  | cons b rest ih =>
    have hin : Inv (s.setInbound rest) := inv_congr hi rfl rfl rfl rfl
    obtain ⟨⟨u, e⟩, hu⟩ := goesOn_byteStep hin b now
    obtain ⟨⟨v, _⟩, hv, huv, rfl⟩ := byteStep_follows (sameSpecified_setInbound h rest) hin b now _ hu
    have more := ih huv (byteStep_inv hin hu) (n + 1)
    cases e with
    | none => rwa [drain_cons_next hu (.inl rfl), drain_cons_next hv (.inl rfl)]
    | dropped => rwa [drain_cons_next hu (.inr rfl), drain_cons_next hv (.inr rfl)]
    | valid =>
      rw [drain_cons_valid hu, drain_cons_valid hv]
      exact follows_respond huv _ rfl
    | tooLarge =>
      rw [drain_cons_tooLarge hu, drain_cons_tooLarge hv]
      exact follows_respond huv _ rfl

theorem execPoll_follows (hi : Inv s) (now : U32) : Follows SameSpecified (execPoll now s) (execPoll now t) := by
  unfold execPoll
  rw [← h.cfg, ← h.env]
  exact follows_ite Iff.rfl (fun _ => follows_respond h _ rfl) fun _ =>
    drain_follows (sameSpecified_clearLatest h) (inv_clearLatest hi) now _ 0

/-! ### The latest slot's accessors (41_accumulator.md R140 to R149) -/

theorem onFullSlot_follows {k k' : Host.Outcome State Fault Refusal}
    (hk : s.lat.valid = true → Follows SameSpecified k k') :
    Follows SameSpecified (onFullSlot s k) (onFullSlot t k') :=
  follows_ite (by rw [h.latValid]) (fun _ => follows_respond h _ rfl) fun hv =>
    hk (Bool.eq_true_of_not_eq_false hv)

/-- A full slot's valid length is written, so its bytes are those listed. -/
theorem withLatestBytes_follows (hi : Inv s) (hv : s.lat.valid = true) {start count : Nat}
    (hle : start + count ≤ s.lat.size.toNat) (d : List Byte → List Byte) :
    Follows SameSpecified (withLatestBytes s start count fun bs => s.respond .ok (d bs))
      (withLatestBytes t start count fun bs => t.respond .ok (d bs)) := by
  obtain ⟨-, -, -, hwritten, -⟩ := hi.latest hv
  have hbytes : s.lat.pay.bytes start count = t.lat.pay.bytes start count :=
    bytes_eq_of_lookup hle (fun i hlt => hwritten ▸ List.mem_range.2 hlt) fun i _ => by rw [h.latBytes hv]
  rw [withLatestBytes_ok s hle, withLatestBytes_ok t (h.latSize hv ▸ hle), ← hbytes]
  exact follows_respond h _ rfl

theorem execLpayld_follows (hi : Inv s) : Follows SameSpecified (execLpayld s) (execLpayld t) :=
  onFullSlot_follows h fun hv => by
    rw [← h.latSize hv]
    exact withLatestBytes_follows h hi hv (Nat.zero_add _).le _

theorem execLsaddr_follows (hi : Inv s) : Follows SameSpecified (execLsaddr s) (execLsaddr t) :=
  onFullSlot_follows h fun hv => by
    rw [← h.latSize hv]
    exact follows_ite Iff.rfl (fun _ => follows_respond h _ rfl) fun _ =>
      withLatestBytes_follows h hi hv (by omega) _

theorem execLappdat_follows (hi : Inv s) : Follows SameSpecified (execLappdat s) (execLappdat t) :=
  onFullSlot_follows h fun hv => by
    rw [← h.latSize hv]
    exact follows_ite Iff.rfl (fun _ => follows_respond h _ rfl) fun _ =>
      withLatestBytes_follows h hi hv (by omega) _

/-! ### The request's commands and the encoder (40_encoder.md R103 to R110) -/

theorem attachPayload_follows {data : List Byte} (hlen : data.length < 65536) :
    Follows SameSpecified (attachPayload data s) (attachPayload data t) := by
  have hcap : data.length ≤ Config.reqCap := Nat.le_of_lt_succ hlen
  unfold attachPayload
  rw [Memory.fillChecked_ok _ hcap, Memory.fillChecked_ok _ hcap]
  exact follows_ite (by rw [h.opened]) (fun _ => follows_respond h _ rfl) fun _ =>
    follows_ite (by rw [h.isSet]) (fun _ => follows_respond h _ rfl) fun _ =>
      follows_respond (sameSpecified_setPayload h data) _ rfl

/-- The frame of an open request with a payload is made of specified elements alone. -/
theorem withFrame_follows (hi : Inv s) {k k' : List Byte → Host.Outcome State Fault Refusal}
    (hk : ∀ f, Follows SameSpecified (k f) (k' f)) : Follows SameSpecified (withFrame s k) (withFrame t k') := by
  rw [withFrame_eq, withFrame_eq, ← h.opened, ← h.isSet, ← h.len]
  refine follows_ite Iff.rfl (fun _ => follows_respond h _ rfl) fun hset =>
    follows_ite Iff.rfl (fun _ => follows_respond h _ rfl) fun _ => ?_
  have hopen : s.req.opened = true := Bool.eq_true_of_not_eq_false (not_or.1 hset).1
  rw [← h.addrHi hopen, ← h.addrLo hopen,
    ← bytes_eq_of_lookup (Nat.zero_add _).le hi.request.written h.reqBytes]
  exact hk _

/-! ### Every command and every host move -/

theorem microOp_follows {α : Type} {op : MicroIssue α} (hop : op.fromPort = true)
    (f f' : α → Host.Outcome State Fault Refusal) : Follows SameSpecified (microOp op s f) (microOp op t f') := by
  rw [eq_port_of_fromPort hop]
  exact follows_respond h _ rfl

theorem exec_follows (hi : Inv s) {i : Instr} (hw : i.wellFormed = true) :
    Follows SameSpecified (exec i s) (exec i t) := by
  cases i with
  | settmo w => exact follows_respond (sameSpecified_setCfg h ({ · with timeout := w })) _ rfl
  | attach => exact follows_respond (sameSpecified_setCfg h ({ · with attached := true })) _ rfl
  | detach => exact follows_respond (sameSpecified_setCfg h ({ · with attached := false })) _ rfl
  | reqnew hi lo => exact follows_respond (sameSpecified_openRequest h hi lo) _ rfl
  | reqcpy data | reqtake data => exact attachPayload_follows h (of_decide_eq_true hw)
  | encode =>
    rw [exec_encode_eq, exec_encode_eq]
    exact withFrame_follows h hi fun _ => follows_respond h _ rfl
  | send =>
    exact follows_ite (by rw [h.cfg]) (fun _ => follows_respond h _ rfl) fun _ =>
      withFrame_follows h hi fun f => follows_respond (sameSpecified_streamWrite h f) _ rfl
  | poll now => exact execPoll_follows h hi now
  | lvalid => exact follows_respond h _ (by rw [h.latValid])
  | lapi => exact onFullSlot_follows h fun hv => follows_respond h _ (by rw [h.latApiId hv])
  | lsize => exact onFullSlot_follows h fun hv => follows_respond h _ (by rw [h.latSize hv])
  | lcsum => exact onFullSlot_follows h fun hv => follows_respond h _ (by rw [h.latCsum hv])
  | lcompl => exact onFullSlot_follows h fun hv => follows_respond h _ (by rw [h.latCsum hv])
  | lpayld => exact execLpayld_follows h hi
  | lsaddr => exact execLsaddr_follows h hi
  | lappdat => exact execLappdat_follows h hi
  | beginSize _ | setApiId _ | writeAt _ | accCsum _ | isComplete _ => exact microOp_follows h hw _ _

/-- A host move reads and writes the environment alone. -/
theorem hostMove_follows (m : HostMove) : Follows SameSpecified (hostMove m s) (hostMove m t) := by
  cases m with
  | issue bytes =>
    exact follows_next (sameSpecified_setEnv h fun e =>
      { e with
        port := firstCommand (e.port ++ bytes)
        agenda := withheld (afterCommand (e.port ++ bytes)) e.agenda })
  | arrive bytes => exact follows_next (sameSpecified_setEnv h fun e => { e with inbound := e.inbound ++ bytes })
  | deliver n => exact follows_next (sameSpecified_setEnv h fun e => { e with outbound := e.outbound.drop n })
  | loopback n =>
    exact follows_next (sameSpecified_setEnv h fun e =>
      { e with inbound := e.inbound ++ e.outbound.take n, outbound := e.outbound.drop n })
  | tick x =>
    exact follows_ite (by rw [h.env])
      (fun _ => follows_next (sameSpecified_setEnv h fun e => { e with clock := e.clock + x }))
      fun _ => follows_fault _ _
  | collect n => exact follows_next (sameSpecified_setEnv h fun e => { e with responses := e.responses.drop n })

theorem step_follows (hi : Inv s) : Follows SameSpecified (step s) (step t) := by
  cases hd : decode s.env.port with
  | instr i rest =>
    rw [step_instr hd, step_instr (h.env ▸ hd)]
    exact exec_follows (sameSpecified_setPort h rest) (inv_congr hi rfl rfl rfl rfl) (wellFormed_of_decode hd)
  | reserved op rest =>
    rw [step_reserved hd, step_reserved (h.env ▸ hd)]
    exact follows_respond (sameSpecified_setPort h rest) _ rfl
  | incomplete =>
    rw [step_incomplete hd, step_incomplete (h.env ▸ hd), hostTurn, hostTurn, ← h.env]
    cases s.env.agenda with
    | nil => exact follows_next h
    | cons m ms => exact hostMove_follows (sameSpecified_setAgenda h ms) m

end

end Sys2Proof.Safety

namespace Sys2Proof.Statements

open Sys2Proof.Safety

/-- Settles O58: the invariant of the first state alone makes every read one of a specified element. -/
theorem unspecifiedElementsAreNeverRead : Obligations.UnspecifiedElementsAreNeverRead :=
  fun _ _ s' hi _ h hs => step_follows h hi s' hs

end Sys2Proof.Statements
end
